-- ==== Sys2Proof/Word.lean ====
section
/-!
DEFINITION. The words of the codec block: bus words, window addresses, symbols, artifact bytes and bit strings
(00_scope.md R9, R10, R13; 20_memory.md R60, R62).
-/

namespace Sys2Proof

/-- A 32-bit word: what one host transaction moves, and the width of every register (R20, R63). -/
abbrev Word := BitVec 32

/-- A byte address of the host window (R60). -/
abbrev Addr := BitVec 22

/-- A symbol: an unsigned 21-bit value, compared only for equality (R13). -/
abbrev Sym := BitVec 21

/-- One byte of an artifact (R62, R68). -/
abbrev Byte := BitVec 8

/-- A bit string in transmission order, first bit first (R10). -/
abbrev Bits := List Bool

end Sys2Proof
end

