-- ==== Sys2Proof/Machine/Bits.lean ====
section
/-!
DEFINITION. Bit strings and their packing: `bin8`, `val`, `zeros` (00_scope.md R10), `pack` and `unpack`
(20_memory.md R69), the left-aligned read-back words (10_state.md R45).
-/

namespace Sys2Proof.Machine

/-- `val(s)`: the unsigned value of a bit string, most significant bit first (R10). -/
def bitsVal (s : Bits) : Nat := s.foldl (fun n b => 2 * n + b.toNat) 0

/-- `bin8(v)`: the 8 bits of a byte, most significant bit first (R10). -/
def bin8 (v : Byte) : Bits :=
  [v.getLsbD 7, v.getLsbD 6, v.getLsbD 5, v.getLsbD 4, v.getLsbD 3, v.getLsbD 2, v.getLsbD 1, v.getLsbD 0]

/-- `zeros(n)` (R10). -/
def zeros (n : Nat) : Bits := List.replicate n false

/-- `pack`: byte `k` is `val(s[8k .. 8k+8))` (R69). A tail of fewer than 8 bits is no byte. -/
def packBits : Bits → List Byte
  | b7 :: b6 :: b5 :: b4 :: b3 :: b2 :: b1 :: b0 :: rest =>
    BitVec.ofNat 8 (bitsVal [b7, b6, b5, b4, b3, b2, b1, b0]) :: packBits rest
  | _ => []

/-- `unpack`: `bin8` of each byte, in order (R69). -/
def unpackBytes : List Byte → Bits
  | [] => []
  | b :: rest => bin8 b ++ unpackBytes rest

/-- Word `k` of a code's read-back window: bit `31 - m` is bit `32k + m` of the code, and every other bit is 0 (R45). -/
def codeWord (code : Bits) (k : Nat) : Word :=
  let part := (code.drop (32 * k)).take 32
  BitVec.ofNat 32 (bitsVal (part ++ zeros (32 - part.length)))

end Sys2Proof.Machine
end

