-- ==== Sys2Proof/Config.lean ====
section
/-!
DEFINITION. What an implementation fixes (00_scope.md R7) and the values the spec leaves free
(20_memory.md R82, 42_decode.md R153).
-/

namespace Sys2Proof.Config

/-- The parameters of a block that have a legal range in R7: capacities, so plain numbers. `State.cfg` holds them. -/
structure Params where
  /-- NSYM_MAX: capacity of the shared table in distinct symbols. -/
  nsymMax : Nat
  /-- IN_MAX: depth of SYM_MEM in symbols. -/
  inMax : Nat
  /-- PACK_MAX: depth of PACK_MEM in bytes. -/
  packMax : Nat
  /-- OUT_MAX: depth of OUT_MEM in symbols. -/
  outMax : Nat
  deriving DecidableEq, Repr

/-- The default values of R7. -/
def defaultParams : Params := { nsymMax := 256, inMax := 4096, packMax := 16384, outMax := 4096 }

/-- The ID register's constant, ASCII "HUFF" (R21). -/
def idValue : Word := 0x48554646#32

/-- The VERSION register's constant (R22). -/
def versionValue : Word := 0x00000001#32

/-- FREE VALUE: what word `i` of SYM_MEM holds in draw `d` of unspecified contents, before it is written
(R82; log 4). No body: nothing constrains it. -/
opaque freeSymWord : Nat → Nat → Sym

/-- FREE VALUE: what word `i` of PACK_MEM holds in draw `d` of unspecified contents, before it is written
(R82; log 4). No body: nothing constrains it. -/
opaque freePackWord : Nat → Nat → Byte

/-- FREE VALUE: what word `i` of OUT_MEM holds in draw `d` of unspecified contents, before it is written
(R82, R153; logs 4 and 5). No body: nothing constrains it. -/
opaque freeOutWord : Nat → Nat → Sym

end Sys2Proof.Config
end

