-- ==== Sys2Proof/Syntax.lean ====
section
/-!
DEFINITION. The commands of the opcode table (30_encoding.md R85-R90), which play the role of instructions (R2).
A command has no operand field (R89), so no constructor has an argument.
-/

namespace Sys2Proof

/-- One constructor per row of spec/opcode_table.json. -/
inductive Instr where
  /-- CLEAR, word 0x00000001: discard the per-invocation context (R109). -/
  | clear
  /-- ENCODE, word 0x00000002: compress SYM_MEM into PACK_MEM and rebuild the shared table (R117). -/
  | encode
  /-- DECODE, word 0x00000003: decode PACK_MEM against the shared table into OUT_MEM (R141). -/
  | decode
  deriving DecidableEq, Repr

end Sys2Proof
end

