-- ==== Sys2Proof/WellFormed.lean ====
section
/-!
DEFINITION. Which terms are well formed: commands (no operand to check, 30_encoding.md R89), the two fields of a
command word (R86, R87) and the parameters' legal ranges (00_scope.md R7).
-/

namespace Sys2Proof

/-- Every command is well formed: it has no register, immediate or mode field (R89). -/
def Instr.wellFormed : Instr → Bool
  | .clear => true
  | .encode => true
  | .decode => true

/-- RSV, bits 31:4 of a command word, must be 0 (R86). -/
def rsvIsZero (v : Word) : Bool := v.extractLsb 31 4 == 0#28

/-- OP, bits 3:0 of a command word, is one the map of R87 assigns. -/
def opIsAssigned (v : Word) : Bool :=
  let op := v.extractLsb 3 0
  op == 0x1#4 || op == 0x2#4 || op == 0x3#4

/-- A command word of one of the three commands (R86, R87). -/
def commandWordOk (v : Word) : Bool := rsvIsZero v && opIsAssigned v

/-- NSYM_MAX is in 1 .. 256 (R7). -/
def Config.Params.nsymOk (p : Config.Params) : Bool := decide (1 ≤ p.nsymMax ∧ p.nsymMax ≤ 256)

/-- IN_MAX is in 1 .. 262144 (R7). -/
def Config.Params.inOk (p : Config.Params) : Bool := decide (1 ≤ p.inMax ∧ p.inMax ≤ 262144)

/-- PACK_MAX is in 2 .. 262144 (R7). -/
def Config.Params.packOk (p : Config.Params) : Bool := decide (2 ≤ p.packMax ∧ p.packMax ≤ 262144)

/-- OUT_MAX is in 1 .. 262144 (R7). -/
def Config.Params.outOk (p : Config.Params) : Bool := decide (1 ≤ p.outMax ∧ p.outMax ≤ 262144)

/-- Every parameter is in its legal range (R7). -/
def Config.Params.legal (p : Config.Params) : Bool := p.nsymOk && p.inOk && p.packOk && p.outOk

end Sys2Proof
end

