-- ==== Sys2Proof/Decode.lean ====
section
/-!
DEFINITION. Decoding a command word, total on all 32-bit values (30_encoding.md R88), and the encoder (R87).
-/

namespace Sys2Proof

/-- What a command word decodes to: a command of the table, or the pseudo-command ILLEGAL(v) (R88, R110). -/
inductive Command where
  /-- A command of the opcode table. -/
  | instr (i : Instr)
  /-- The rejection of every other word, by name and with the word (R88). -/
  | illegal (v : Word)
  deriving DecidableEq, Repr

/-- `decode_cmd` of R88. Match is the whole word (R87). -/
def decodeCmd (v : Word) : Command :=
  if v = 0x00000001#32 then .instr .clear
  else if v = 0x00000002#32 then .instr .encode
  else if v = 0x00000003#32 then .instr .decode
  else .illegal v

/-- The word of a command, from the opcode map of R87. -/
def encode : Instr → Word
  | .clear => 0x00000001#32
  | .encode => 0x00000002#32
  | .decode => 0x00000003#32

/-- The command of a decoded word, when the word is one of the table's. -/
def Command.instr? : Command → Option Instr
  | .instr i => some i
  | .illegal _ => none

/-- The command word whose low `nbits` bits are `w` and whose other bits are 0. A command is one 32-bit CMD write
(R90), and the bus has no byte lanes (R67), so no byte order enters. -/
def commandWord (nbits w : Nat) : Word := BitVec.ofNat 32 (w % 2 ^ nbits)

/-- The command the decoder reads from a word numbered as spec/opcode_table.json numbers it. -/
def decodeTableWord (nbits w : Nat) : Option Instr := (decodeCmd (commandWord nbits w)).instr?

end Sys2Proof
end

