-- ==== Sys2Proof/Machine/State.lean ====
section
/-!
DEFINITION. The state of the codec block (10_state.md, 20_memory.md R62), plain data, and its value after reset
(10_state.md R52). INVENTORY.md lists every field with its rule.
-/

namespace Sys2Proof.Machine

/-- Why a step stops with a fault. EMPTY: the spec gives no event that stops the block; every error is a completion
with a cause (R165) and no command hangs (R107). Nothing raises it; having no case is exact (log 14). -/
inductive Fault where
  deriving DecidableEq, Repr

/-- Why a step is refused: what the spec itself asks a model to refuse. -/
inductive Refusal where
  /-- Raised by `exec` for a command with no meaning yet; no arm does. Safe: the model stops. -/
  | notModelled (mnemonic : String)
  /-- Raised by `step` when a parameter is outside its legal range (R7, I14). Safe: no such block exists. -/
  | parameterOutOfRange
  /-- Raised by `step` for a byte or halfword transaction (R63, D3, I21). Safe: the spec gives it no effect. -/
  | subwordTransaction
  /-- Raised by `step` for a transaction of a second bus master (R178, D37, I20). Safe: outside the spec. -/
  | secondBusMaster
  deriving DecidableEq, Repr

/-- The error causes of R161. `Cause.code` gives their numbers. -/
inductive Cause where
  | emptyInput
  | duplicateCode
  | corruptStream
  | illegalCommand
  | symbolCapacity
  | lengthCapacity
  | outputCapacity
  deriving DecidableEq, Repr

/-- `raise C(info)` of R11 and R170: a cause and its detail. -/
structure Raised where
  cause : Cause
  info : Word
  deriving DecidableEq, Repr

/-- ENG (R19): idle, or running an accepted command. -/
inductive Engine where
  | idle
  | run (op : Command)
  deriving DecidableEq, Repr

/-- A valid entry of the shared table (R41). `clen` is the length of `code` (log 8). -/
structure Entry where
  sym : Sym
  freq : Word
  code : Bits
  deriving DecidableEq, Repr

/-- A data memory of `w`-bit words (R62): the words written since its last draw, as (index, value) pairs in rising
order of index, and the number of that draw. A word not listed holds the free value of the draw (R82; logs 4, 6). -/
structure Memory (w : Nat) where
  draw : Nat
  cells : List (Nat × BitVec w)
  deriving DecidableEq, Repr

/-- The canonical form of a memory of `depth` words: indexes strictly rising, each below the depth. -/
abbrev Memory.wf {w : Nat} (depth : Nat) (m : Memory w) : Prop :=
  m.cells.Pairwise (fun a b => a.1 < b.1) ∧ ∀ c ∈ m.cells, c.1 < depth

/-- What the outside world does next: a line of a host program (R91), a wait for `irq` (R190), the reset input
(R186), or a transaction the spec keeps outside (I20, I21). -/
inductive Event where
  /-- `WR`: MemWrite(addr, 4, v) (R63). -/
  | write (addr : Addr) (v : Word)
  /-- `RD`: MemRead(addr, 4); the value goes to `State.replies` (R63). -/
  | read (addr : Addr)
  /-- `POLL`: read until `(result AND mask) = value`, one read a step (R91). -/
  | poll (addr : Addr) (mask value : Word)
  /-- The host waits until `irq` is 1 (R77, R190). -/
  | waitIrq
  /-- Assertion of `rst` (R186). -/
  | rst
  /-- A transaction of fewer than 4 bytes (I21). -/
  | subword (addr : Addr) (bytes : Nat)
  /-- A transaction of a second bus master (I20). -/
  | secondMaster (addr : Addr)
  deriving DecidableEq, Repr

/-- The state of the block and, below it, what the model adds to run it. -/
structure State where
  /-- The block's parameters, read as CFG_NSYM, CFG_IN, CFG_PACK, CFG_OUT (R7, R23). -/
  cfg : Config.Params
  /-- ENG (R19). -/
  eng : Engine
  /-- CTRL.IE (R24). -/
  ie : Bool
  /-- STATUS.DONE (R27). -/
  done : Bool
  /-- STATUS.OVR (R29). -/
  ovr : Bool
  /-- ERR_CODE bits 3:0 (R32). -/
  errCode : BitVec 4
  /-- ERR_INFO (R33). -/
  errInfo : Word
  /-- IN_LEN (R34). -/
  inLen : Word
  /-- PACK_LEN (R35). -/
  packLen : Word
  /-- OUT_LEN (R36). -/
  outLen : Word
  /-- ENC_BITS (R38). -/
  encBits : Word
  /-- ENC_PAD bits 3:0 (R39). -/
  encPad : BitVec 4
  /-- TBL_IDX (R42). -/
  tblIdx : Word
  /-- TV (R41), read as STATUS.TVALID. -/
  tv : Bool
  /-- The valid entries E[0..N-1] of the shared table; N is the list's length (R41; log 8). -/
  table : List Entry
  /-- SYM_MEM (R62). -/
  symMem : Memory 21
  /-- PACK_MEM (R62). -/
  packMem : Memory 8
  /-- OUT_MEM (R62). -/
  outMem : Memory 21
  /-- MODEL'S OWN: the events still to come, next first (log 3). -/
  world : List Event
  /-- MODEL'S OWN: the values the host's reads have returned, newest first (log 3). -/
  replies : List Word
  /-- MODEL'S OWN: how many more events pass before the running command completes (LATENCY, R7; log 2). -/
  wait : Nat
  /-- MODEL'S OWN: the `wait` each later acceptance takes, next first (LATENCY, R7; log 2). -/
  latencies : List Nat
  /-- MODEL'S OWN: the next unused draw of unspecified memory contents (R82; log 4). -/
  draws : Nat
  deriving DecidableEq, Repr

/-- The block right after reset (R52), with the default parameters (R7) and nothing to do. -/
def State.reset : State where
  cfg := Config.defaultParams
  eng := .idle
  ie := false
  done := false
  ovr := false
  errCode := 0
  errInfo := 0
  inLen := 0
  packLen := 0
  outLen := 0
  encBits := 0
  encPad := 0
  tblIdx := 0
  tv := false
  table := []
  symMem := { draw := 0, cells := [] }
  packMem := { draw := 0, cells := [] }
  outMem := { draw := 0, cells := [] }
  world := []
  replies := []
  wait := 0
  latencies := []
  draws := 1

end Sys2Proof.Machine
end

