-- ==== Sys2Proof/Machine/Ops.lean ====
section
/-!
DEFINITION. The operations over memories and registers that the commands share: a memory word's read and write, a fresh
draw of unspecified contents, the lifecycle of a command (acceptance, completion, error completion, acknowledgement)
and the reset event (40_control.md R106, R107; 60_exceptions.md R161, R169-R171; 70_reset_and_hazards.md R186, R187).
-/

namespace Sys2Proof.Machine

/-! ### Data memories -/

/-- The value listed for word `i`. -/
def lookupCell {w : Nat} : List (Nat × BitVec w) → Nat → Option (BitVec w)
  | [], _ => none
  | (j, v) :: rest, i => if i = j then some v else lookupCell rest i

/-- List `v` for word `i`, keeping the indexes rising. -/
def insertCell {w : Nat} (i : Nat) (v : BitVec w) : List (Nat × BitVec w) → List (Nat × BitVec w)
  | [] => [(i, v)]
  | (j, u) :: rest =>
    if i < j then (i, v) :: (j, u) :: rest
    else if i = j then (i, v) :: rest
    else (j, u) :: insertCell i v rest

/-- Word `i` of a memory whose words hold `free draw i` until they are written (R82). -/
def Memory.read {w : Nat} (free : Nat → Nat → BitVec w) (m : Memory w) (i : Nat) : BitVec w :=
  (lookupCell m.cells i).getD (free m.draw i)

/-- Store `v` in word `i`. -/
def Memory.write {w : Nat} (m : Memory w) (i : Nat) (v : BitVec w) : Memory w :=
  { m with cells := insertCell i v m.cells }

/-- Store the values of a list in consecutive words from word `i` on. -/
def Memory.writeFrom {w : Nat} (m : Memory w) (i : Nat) : List (BitVec w) → Memory w
  | [] => m
  | v :: vs => (m.write i v).writeFrom (i + 1) vs

/-- A memory whose every word holds an unspecified value: draw `d`, nothing written since (R82, R153). -/
def Memory.drawn {w : Nat} (d : Nat) : Memory w := { draw := d, cells := [] }

/-- Word `i` of SYM_MEM (R62). -/
def State.readSym (s : State) (i : Nat) : Sym := s.symMem.read Config.freeSymWord i

/-- Word `i` of PACK_MEM (R62). -/
def State.readPack (s : State) (i : Nat) : Byte := s.packMem.read Config.freePackWord i

/-- Word `i` of OUT_MEM (R62). -/
def State.readOut (s : State) (i : Nat) : Sym := s.outMem.read Config.freeOutWord i

/-- Every word of OUT_MEM takes an unspecified value (R153; log 5). -/
def State.drawOutMem (s : State) : State :=
  { s with outMem := Memory.drawn s.draws, draws := s.draws + 1 }

/-! ### Causes -/

/-- The number of a cause in ERR_CODE (R161). -/
def Cause.code : Cause → BitVec 4
  | .emptyInput => 1#4
  | .duplicateCode => 2#4
  | .corruptStream => 3#4
  | .illegalCommand => 4#4
  | .symbolCapacity => 5#4
  | .lengthCapacity => 6#4
  | .outputCapacity => 7#4

/-- `raise CORRUPT_STREAM(sub-cause)` (R162). -/
def corrupt (sub : Word) : Raised := { cause := .corruptStream, info := sub }

/-! ### The lifecycle of a command -/

/-- Acceptance: ENG runs the command, DONE and the error registers are cleared (R106). -/
def State.begin (op : Command) (s : State) : State :=
  { s with eng := .run op, done := false, errCode := 0#4, errInfo := 0#32 }

/-- How long the command just accepted runs, counted in events let through before its completion (LATENCY, R7; log 2). -/
def State.takeLatency (s : State) : State :=
  { s with wait := s.latencies.headD 0, latencies := s.latencies.tail }

/-- A CMD write that is accepted (R106). -/
def State.accept (v : Word) (s : State) : State := (s.begin (decodeCmd v)).takeLatency

/-- Completion without error: `complete()` (R107). -/
def State.completeOk (s : State) : State :=
  { s with errCode := 0#4, errInfo := 0#32, eng := .idle, done := true }

/-- Error completion, the block's trap entry: the cause and the detail are saved, the engine is idle, DONE is set
(R169, R170). The command's error commit has been made. -/
def State.completeRaised (e : Raised) (s : State) : State :=
  { s with errCode := e.cause.code, errInfo := e.info, eng := .idle, done := true }

/-- Acknowledgement, the block's trap return: DONE is cleared, so `irq` drops; nothing is restored (R171). -/
def State.acknowledge (s : State) : State := { s with done := false }

/-- The reset event (R52, R186, R187): registers at their reset values, a running command discarded, the table
invalid, every data memory word unspecified even if it was written (R82). The parameters are the block's and the
events, replies and latencies still to come are the outside world's (log 13). -/
def State.resetBlock (s : State) : State :=
  { State.reset with
    cfg := s.cfg
    symMem := Memory.drawn s.draws
    packMem := Memory.drawn s.draws
    outMem := Memory.drawn s.draws
    world := s.world
    replies := s.replies
    latencies := s.latencies
    draws := s.draws + 1 }

end Sys2Proof.Machine
end

