-- ==== Sys2Proof/Machine/Flags.lean ====
section
/-!
DEFINITION. The flags: CTRL, STATUS and the `irq` output (10_state.md R24-R30, R48, R49).
-/

namespace Sys2Proof.Machine

/-- STATUS.BUSY: a command has been accepted and has not completed (R26). -/
def State.busy (s : State) : Bool :=
  match s.eng with
  | .idle => false
  | .run _ => true

/-- STATUS.ERR: ERR_CODE is nonzero; no storage of its own (R28). -/
def State.err (s : State) : Bool := s.errCode != 0#4

/-- STATUS.TVALID: reads TV (R30). -/
def State.tvalid (s : State) : Bool := s.tv

/-- STATUS as software reads it: BUSY, DONE, ERR, OVR, TVALID in bits 0 to 4, bits 31:5 zero (R25). -/
def State.statusWord (s : State) : Word :=
  BitVec.ofNat 32
    (s.busy.toNat + 2 * s.done.toNat + 4 * s.err.toNat + 8 * s.ovr.toNat + 16 * s.tvalid.toNat)

/-- CTRL as software reads it: IE in bit 0, bits 31:1 zero (R24). -/
def State.ctrlWord (s : State) : Word := BitVec.ofNat 32 s.ie.toNat

/-- A write of CTRL: bit 0 goes to IE, the reserved bits are ignored (R24). -/
def State.writeCtrl (v : Word) (s : State) : State := { s with ie := v.getLsbD 0 }

/-- A write of STATUS: bit 1 clears DONE (the acknowledgement of R171), bit 3 clears OVR, all other bits are
ignored (R25). -/
def State.writeStatus (v : Word) (s : State) : State :=
  let s := if v.getLsbD 1 then s.acknowledge else s
  if v.getLsbD 3 then { s with ovr := false } else s

/-- The interrupt output, a level (R48, R172). -/
def State.irq (s : State) : Bool := s.ie && s.done

end Sys2Proof.Machine
end

