-- ==== Sys2Proof/Machine/Operands.lean ====
section
/-!
DEFINITION. Where operands come from: the registers of the map (10_state.md R20), the word a bus address names
(20_memory.md R61, R63, R66), the table entry TBL_IDX selects (10_state.md R42-R46) and the two commands' inputs
(41_encode.md R119, 42_decode.md R143).
-/

namespace Sys2Proof.Machine

/-- The registers of R20. -/
inductive Reg where
  | id
  | version
  | cfgNsym
  | cfgIn
  | cfgPack
  | cfgOut
  | ctrl
  | status
  | cmd
  | errCode
  | errInfo
  | inLen
  | packLen
  | outLen
  | ndist
  | encBits
  | encPad
  | tblIdx
  | tblSym
  | tblFreq
  | tblClen
  | tblCode (k : Fin 8)
  deriving DecidableEq, Repr

/-- What the word at a bus address is (R61). -/
inductive Target where
  | reg (r : Reg)
  | sym (i : Nat)
  | pack (i : Nat)
  | out (i : Nat)
  /-- A reserved register offset (R40) or a word at or beyond a memory's depth (R66). -/
  | unmapped
  deriving DecidableEq, Repr

/-- The byte offset of a register (R20). -/
def Reg.offset : Reg → Nat
  | .id => 0x000
  | .version => 0x004
  | .cfgNsym => 0x008
  | .cfgIn => 0x00C
  | .cfgPack => 0x010
  | .cfgOut => 0x014
  | .ctrl => 0x020
  | .status => 0x024
  | .cmd => 0x028
  | .errCode => 0x02C
  | .errInfo => 0x030
  | .inLen => 0x034
  | .packLen => 0x038
  | .outLen => 0x03C
  | .ndist => 0x040
  | .encBits => 0x044
  | .encPad => 0x048
  | .tblIdx => 0x050
  | .tblSym => 0x054
  | .tblFreq => 0x058
  | .tblClen => 0x05C
  | .tblCode k => 0x060 + 4 * k.val

/-- Every register of R20, in the order of its table. -/
def allRegs : List Reg :=
  [.id, .version, .cfgNsym, .cfgIn, .cfgPack, .cfgOut, .ctrl, .status, .cmd, .errCode, .errInfo, .inLen, .packLen,
   .outLen, .ndist, .encBits, .encPad, .tblIdx, .tblSym, .tblFreq, .tblClen] ++
  [.tblCode 0, .tblCode 1, .tblCode 2, .tblCode 3, .tblCode 4, .tblCode 5, .tblCode 6, .tblCode 7]

/-- The register at a word-aligned offset of the register window, if one is listed there (R20, R40). -/
def regAt (offset : Nat) : Option Reg := allRegs.find? (fun r => r.offset == offset)

/-- A memory word below the memory's depth is mapped, any other is not (R61, R66). -/
def mappedWord (depth i : Nat) (t : Target) : Target := if i < depth then t else .unmapped

/-- The register at a word address of the register window, or nothing (R20, R40). -/
def regTarget (offset : Nat) : Target :=
  match regAt offset with
  | some r => .reg r
  | none => .unmapped

/-- The byte address of the word a transaction at `a` acts on: bits 1:0 are ignored (R63). -/
def wordAddress (a : Addr) : Nat := a.toNat - a.toNat % 4

/-- The word a transaction at byte address `a` acts on: the region its word address lies in, and the word of that region
(R61). -/
def targetAt (p : Config.Params) (a : Addr) : Target :=
  let w := wordAddress a
  if w < 0x100000 then regTarget w
  else if w < 0x200000 then mappedWord p.inMax ((w - 0x100000) / 4) (.sym ((w - 0x100000) / 4))
  else if w < 0x300000 then mappedWord p.packMax ((w - 0x200000) / 4) (.pack ((w - 0x200000) / 4))
  else mappedWord p.outMax ((w - 0x300000) / 4) (.out ((w - 0x300000) / 4))

/-! ### The shared table as software reads it -/

/-- N, the number of valid entries (R41). -/
def State.ndist (s : State) : Nat := s.table.length

/-- The entry TBL_IDX selects: none when TV = 0 or the index is at or above N (R43, R46). -/
def State.selected (s : State) : Option Entry :=
  if s.tv then s.table[s.tblIdx.toNat]? else none

/-- CLEN of an entry, a 9-bit field: the length of its code (R41). -/
def Entry.clen (e : Entry) : BitVec 9 := BitVec.ofNat 9 e.code.length

/-- TBL_SYM (R43). -/
def State.tblSym (s : State) : Word :=
  match s.selected with
  | some e => e.sym.setWidth 32
  | none => 0#32

/-- TBL_FREQ (R44). -/
def State.tblFreq (s : State) : Word :=
  match s.selected with
  | some e => e.freq
  | none => 0#32

/-- TBL_CLEN (R44). -/
def State.tblClen (s : State) : Word :=
  match s.selected with
  | some e => e.clen.setWidth 32
  | none => 0#32

/-- TBL_CODEk (R45). -/
def State.tblCode (s : State) (k : Fin 8) : Word :=
  match s.selected with
  | some e => codeWord e.code k.val
  | none => 0#32

/-! ### The commands' inputs -/

/-- The input text of ENCODE: symbol `j` is SYM_MEM word `j`, for `j` below IN_LEN (R119). -/
def State.inputText (s : State) : List Sym := (List.range s.inLen.toNat).map s.readSym

/-- The artifact DECODE reads: byte `k` is PACK_MEM word `k`, for `k` below PACK_LEN (R68, R143). -/
def State.artifact (s : State) : List Byte := (List.range s.packLen.toNat).map s.readPack

end Sys2Proof.Machine
end

