-- ==== Sys2Proof/Machine/Bus.lean ====
section
/-!
DEFINITION. Host transactions: MemRead and MemWrite of one word of the host window (20_memory.md R63-R66), with the
access rule of every register (10_state.md) and the restrictions while BUSY (70_reset_and_hazards.md R192).
-/

namespace Sys2Proof.Machine

/-- The value of a register when no command runs (R21-R46). CMD is write-only and reads 0 (R31). -/
def State.regValue (s : State) : Reg → Word
  | .id => Config.idValue
  | .version => Config.versionValue
  | .cfgNsym => BitVec.ofNat 32 s.cfg.nsymMax
  | .cfgIn => BitVec.ofNat 32 s.cfg.inMax
  | .cfgPack => BitVec.ofNat 32 s.cfg.packMax
  | .cfgOut => BitVec.ofNat 32 s.cfg.outMax
  | .ctrl => s.ctrlWord
  | .status => s.statusWord
  | .cmd => 0#32
  | .errCode => s.errCode.setWidth 32
  | .errInfo => s.errInfo
  | .inLen => s.inLen
  | .packLen => s.packLen
  | .outLen => s.outLen
  | .ndist => BitVec.ofNat 32 s.ndist
  | .encBits => s.encBits
  | .encPad => s.encPad.setWidth 32
  | .tblIdx => s.tblIdx
  | .tblSym => s.tblSym
  | .tblFreq => s.tblFreq
  | .tblClen => s.tblClen
  | .tblCode k => s.tblCode k

/-- The registers that read as their values while BUSY: ID, VERSION, CFG_*, CTRL, STATUS (R192). -/
def Reg.readableWhileBusy : Reg → Bool
  | .id => true
  | .version => true
  | .cfgNsym => true
  | .cfgIn => true
  | .cfgPack => true
  | .cfgOut => true
  | .ctrl => true
  | .status => true
  | _ => false

/-- The value of a word of the window when no command runs: a register's value, a memory word zero-extended, or 0
where nothing is mapped (R64, R66). -/
def State.wordValue (s : State) : Target → Word
  | .reg r => s.regValue r
  | .sym i => (s.readSym i).setWidth 32
  | .pack i => (s.readPack i).setWidth 32
  | .out i => (s.readOut i).setWidth 32
  | .unmapped => 0#32

/-- The words whose value a read returns while BUSY; every other word reads 0 then (R192). -/
def Target.readableWhileBusy : Target → Bool
  | .reg r => r.readableWhileBusy
  | _ => false

/-- `MemRead(addr, 4)` (R64). It has no side effect (R73), so it is a function of the state. -/
def State.busRead (s : State) (a : Addr) : Word :=
  let t := targetAt s.cfg a
  if s.busy && !t.readableWhileBusy then 0#32 else s.wordValue t

/-- A write of CMD: a request while idle (R106), dropped with OVR set while BUSY (R111). -/
def State.writeCmd (v : Word) (s : State) : State :=
  if s.busy then { s with ovr := true } else s.accept v

/-- A write that is ignored while BUSY, because it would change a command's input or TBL_IDX (R192). -/
def State.whenIdle (f : State → State) (s : State) : State := if s.busy then s else f s

/-- A write of a register, by its access rule (R20-R46, R192). -/
def State.writeReg (v : Word) (s : State) : Reg → State
  | .ctrl => s.writeCtrl v
  | .status => s.writeStatus v
  | .cmd => s.writeCmd v
  | .inLen => s.whenIdle fun s => { s with inLen := v }
  | .packLen => s.whenIdle fun s => { s with packLen := v }
  | .tblIdx => s.whenIdle fun s => { s with tblIdx := v }
  | .id => s
  | .version => s
  | .cfgNsym => s
  | .cfgIn => s
  | .cfgPack => s
  | .cfgOut => s
  | .errCode => s
  | .errInfo => s
  | .outLen => s
  | .ndist => s
  | .encBits => s
  | .encPad => s
  | .tblSym => s
  | .tblFreq => s
  | .tblClen => s
  | .tblCode _ => s

/-- `MemWrite(addr, 4, v)` (R65). SYM_MEM stores bits 20:0 and PACK_MEM bits 7:0 (R62); OUT_MEM and unmapped words
ignore the write (R62, R66). -/
def State.busWrite (s : State) (a : Addr) (v : Word) : State :=
  match targetAt s.cfg a with
  | .reg r => s.writeReg v r
  | .sym i => s.whenIdle fun s => { s with symMem := s.symMem.write i (v.setWidth 21) }
  | .pack i => s.whenIdle fun s => { s with packMem := s.packMem.write i (v.setWidth 8) }
  | .out _ => s
  | .unmapped => s

end Sys2Proof.Machine
end

