-- ==== Sys2Proof/Machine/Control.lean ====
section
/-!
DEFINITION. CLEAR and the illegal pseudo-command (40_control.md R109, R110), and the stage a failure belongs to
(60_exceptions.md R163).
-/

namespace Sys2Proof.Machine

/-- What CLEAR writes: table invalid, lengths and encoder results 0 (R109). -/
def State.commitClear (s : State) : State :=
  { s with tv := false, table := [], packLen := 0#32, outLen := 0#32, encBits := 0#32, encPad := 0#4 }

/-- CLEAR (R109): always completes without error. -/
def execClear (s : State) : Host.Outcome State Fault Refusal := .next s.commitClear.completeOk

/-- ILLEGAL(v): raises ILLEGAL_COMMAND with the word as detail and changes nothing else (R110). -/
def execIllegal (v : Word) (s : State) : Host.Outcome State Fault Refusal :=
  .next (s.completeRaised { cause := .illegalCommand, info := v })

/-- The stages a failure is attributed to (R163). -/
inductive Stage where
  | frequencyAnalyzer
  | treeBuilder
  | bitPacker
  | bitUnpacker
  | walk
  | symbolOutput
  deriving DecidableEq, Repr

/-- The stage that failed, from the command the host last issued and the cause and detail it reads (R163); none for
ILLEGAL_COMMAND and for a cause the command never raises. -/
def failureStage (op : Instr) (e : Raised) : Option Stage :=
  match op, e.cause with
  | .encode, .emptyInput => some .frequencyAnalyzer
  | .encode, .symbolCapacity => some .frequencyAnalyzer
  | .encode, .lengthCapacity => some .frequencyAnalyzer
  | .encode, .duplicateCode => some .treeBuilder
  | .encode, .outputCapacity => some .bitPacker
  | .decode, .lengthCapacity => some .bitUnpacker
  | .decode, .corruptStream => some (if e.info.toNat ≤ 3 then .bitUnpacker else .walk)
  | .decode, .outputCapacity => some .symbolOutput
  | _, _ => none

end Sys2Proof.Machine
end

