-- ==== Sys2Proof/Machine/Decoder.lean ====
section
/-!
DEFINITION. DECODE, the huffman_decoder unit (42_decode.md): BitUnpacker, the walk against the shared table, symbol
output and the two commits.
-/

namespace Sys2Proof.Machine

/-! ### BitUnpacker -/

/-- Header check and padding strip of an unpacked bit sequence (R144-R146). -/
def stripPadding (bits : Bits) : Except Raised Bits :=
  let p := bitsVal (bits.take 8)
  let body := bits.drop 8
  if 8 < p then .error (corrupt 2#32)
  else if body.length < p then .error (corrupt 3#32)
  else .ok (body.take (body.length - p))

/-- The stripped body of the artifact, or the error raised before the walk (R142-R146). -/
def unpackBody (s : State) : Except Raised Bits :=
  if s.cfg.packMax < s.packLen.toNat then .error { cause := .lengthCapacity, info := s.packLen }
  else if s.packLen.toNat = 0 then .error (corrupt 1#32)
  else stripPadding (unpackBytes s.artifact)

/-! ### The walk -/

/-- The valid entries as the walk sees them: none when TV = 0 (R148). -/
def State.validEntries (s : State) : List Entry := if s.tv then s.table else []

/-- The entry whose code is the buffer (R148). -/
def matchCode (entries : List Entry) (buf : Bits) : Option Entry := entries.find? (fun e => e.code == buf)

/-- The buffer is a proper prefix of some valid code (R10, R149). -/
def beginsCode (entries : List Entry) (buf : Bits) : Bool :=
  entries.any fun e => buf.isPrefixOf e.code && decide (buf.length < e.code.length)

/-- The walk over the body bits still to come, with the candidate buffer and the symbols output so far
(R147-R151). The output count `k` is the length of `out`. -/
def walk (entries : List Entry) (outMax : Nat) : (body : Bits) → (buf : Bits) → (out : List Sym) →
    Except Raised (List Sym)
  | [], buf, out => if buf = [] then .ok out else .error (corrupt 5#32)
  | b :: bs, buf, out =>
    match matchCode entries (buf ++ [b]) with
    | some e =>
      if out.length = outMax then .error { cause := .outputCapacity, info := BitVec.ofNat 32 outMax }
      else walk entries outMax bs [] (out ++ [e.sym])
    | none =>
      if beginsCode entries (buf ++ [b]) then walk entries outMax bs (buf ++ [b]) out
      else .error (corrupt 4#32)

/-! ### The command -/

/-- Success commit (R152): the count and the decoded symbols. -/
def State.commitDecoded (out : List Sym) (s : State) : State :=
  { s with outLen := BitVec.ofNat 32 out.length, outMem := s.outMem.writeFrom 0 out }

/-- Error commit of a raise before the walk: OUT_MEM is unchanged (R153). -/
def State.commitDecodeError (s : State) : State := { s with outLen := 0#32 }

/-- Error commit of a raise in the walk or at its end: every OUT_MEM word is unspecified (R153; log 5). -/
def State.commitWalkError (s : State) : State := s.commitDecodeError.drawOutMem

/-- DECODE (R141, R154). -/
def execDecode (s : State) : Host.Outcome State Fault Refusal :=
  match unpackBody s with
  | .error e => .next (s.commitDecodeError.completeRaised e)
  | .ok body =>
    match walk s.validEntries s.cfg.outMax body [] [] with
    | .error e => .next (s.commitWalkError.completeRaised e)
    | .ok out => .next (s.commitDecoded out).completeOk

end Sys2Proof.Machine
end

