-- ==== Sys2Proof/Machine/Encoder.lean ====
section
/-!
DEFINITION. ENCODE, the huffman_encoder unit (41_encode.md): FrequencyAnalyzer, TreeBuilder, CodeTable, BitPacker and
the two commits. Arithmetic is exact on natural numbers and narrowed once, at the commit (R139).
-/

namespace Sys2Proof.Machine

/-- The checks made before anything is read (R118). -/
def checkInput (p : Config.Params) (inLen : Word) : Except Raised Unit :=
  if p.inMax < inLen.toNat then .error { cause := .lengthCapacity, info := inLen }
  else if inLen.toNat = 0 then .error { cause := .emptyInput, info := 0#32 }
  else .ok ()

/-! ### FrequencyAnalyzer -/

/-- An entry `{sym, freq}` of the table being counted (R120). -/
structure Count where
  sym : Sym
  freq : Nat
  deriving DecidableEq, Repr

/-- `T[i].freq <- T[i].freq + 1` for the entry of symbol `x`; none when there is no such entry (R120). -/
def bump (x : Sym) : List Count → Option (List Count)
  | [] => none
  | c :: cs =>
    if c.sym = x then some ({ c with freq := c.freq + 1 } :: cs)
    else (bump x cs).map (c :: ·)

/-- The loop of `analyze` from position `j` on, with the table counted so far (R120-R122). -/
def analyzeFrom (nsymMax : Nat) : List Sym → Nat → List Count → Except Raised (List Count)
  | [], _, counts => .ok counts
  | x :: xs, j, counts =>
    match bump x counts with
    | some counts' => analyzeFrom nsymMax xs (j + 1) counts'
    | none =>
      if counts.length = nsymMax then .error { cause := .symbolCapacity, info := BitVec.ofNat 32 j }
      else analyzeFrom nsymMax xs (j + 1) (counts ++ [{ sym := x, freq := 1 }])

/-- `analyze(s, n)` (R120). -/
def analyze (nsymMax : Nat) (text : List Sym) : Except Raised (List Count) := analyzeFrom nsymMax text 0 []

/-! ### TreeBuilder -/

/-- An element `(weight, seq, leaves)` of the priority collection (R123). -/
structure Node where
  weight : Nat
  seq : Nat
  leaves : List Nat
  deriving DecidableEq, Repr

/-- `a` is extracted before `b`: least weight first, then least sequence number (R123). -/
def Node.before (a b : Node) : Bool :=
  a.weight < b.weight || (a.weight == b.weight && a.seq < b.seq)

/-- The least element of a non-empty collection, given as one element and the rest, and what is left (R123). -/
def extractLeast : Node → List Node → Node × List Node
  | x, [] => (x, [])
  | x, y :: ys =>
    if y.before x then
      let r := extractLeast y ys
      (r.1, x :: r.2)
    else
      let r := extractLeast x ys
      (r.1, y :: r.2)

/-- `for i in leaves: code[i] <- bit ++ code[i]` (R124). -/
def prependBit (bit : Bool) (leaves : List Nat) (codes : List Bits) : List Bits :=
  codes.zipIdx.map fun ci => if ci.2 ∈ leaves then bit :: ci.1 else ci.1

/-- The loop `while |Q| >= 2` of `build`; each pass removes one element, so `fuel` at least the collection's size
never runs out (R124). `next` is the sequence number of the next internal node. -/
def mergeAll : (fuel : Nat) → (queue : List Node) → (next : Nat) → List Bits → List Bits
  | 0, _, _, codes => codes
  | _ + 1, [], _, codes => codes
  | fuel + 1, x :: xs, next, codes =>
    match extractLeast x xs with
    | (_, []) => codes
    | (a, y :: ys) =>
      let bq := extractLeast y ys
      let b := bq.1
      let codes := prependBit true b.leaves (prependBit false a.leaves codes)
      let node : Node := { weight := a.weight + b.weight, seq := next, leaves := a.leaves ++ b.leaves }
      mergeAll fuel (bq.2 ++ [node]) (next + 1) codes

/-- The collection seeded with one leaf per entry, leaf `i` with sequence number `i` (R123). -/
def seedQueue (freqs : List Nat) : List Node :=
  freqs.zipIdx.map fun fi => { weight := fi.1, seq := fi.2, leaves := [fi.2] }

/-- `build(T)`: the code of every entry, from the entries' frequencies (R124-R126). A single entry has code "0" (R125). -/
def build (freqs : List Nat) : List Bits :=
  if freqs.length = 1 then [[false]]
  else mergeAll freqs.length (seedQueue freqs) freqs.length (freqs.map fun _ => [])

/-! ### CodeTable -/

/-- The loop of `check_distinct`: `seen` holds the codes of the entries below index `i` (R129). -/
def checkDistinctFrom : (i : Nat) → (seen : List Bits) → List Bits → Except Raised Unit
  | _, _, [] => .ok ()
  | i, seen, c :: cs =>
    if c ∈ seen then .error { cause := .duplicateCode, info := BitVec.ofNat 32 i }
    else checkDistinctFrom (i + 1) (seen ++ [c]) cs

/-- `check_distinct(code)` (R129). -/
def checkDistinct (codes : List Bits) : Except Raised Unit := checkDistinctFrom 0 [] codes

/-- The entries `E[i]`, in table order (R128). -/
def entriesOf (counts : List Count) (codes : List Bits) : List Entry :=
  List.zipWith (fun c code => { sym := c.sym, freq := BitVec.ofNat 32 c.freq, code := code }) counts codes

/-! ### BitPacker -/

/-- `L`: the sum over the entries of frequency times code length (R130). -/
def rawLength (counts : List Count) (codes : List Bits) : Nat :=
  (List.zipWith (fun c code => c.freq * code.length) counts codes).sum

/-- `padding = 8 - (L mod 8)`, 8 when `L` is a multiple of 8 (R131). -/
def padding (L : Nat) : Nat := 8 - L % 8

/-- `B`: the artifact's length in bytes (R133). -/
def artifactLength (L : Nat) : Nat := 1 + (L + padding L) / 8

/-- `code[idx(x)]`: the code of the entry whose symbol is `x` (R130). -/
def codeOf (table : List Entry) (x : Sym) : Bits :=
  match table.find? (fun e => e.sym == x) with
  | some e => e.code
  | none => []

/-- The raw code stream: the codes of the symbols in input order (R130). -/
def rawStream (table : List Entry) (text : List Sym) : Bits := text.flatMap (codeOf table)

/-- The artifact's bits: header, raw code stream, zero padding (R97, R132). -/
def artifactBits (pad : Nat) (raw : Bits) : Bits := bin8 (BitVec.ofNat 8 pad) ++ raw ++ zeros pad

/-! ### The command -/

/-- What a successful ENCODE commits (R137). -/
structure Encoded where
  table : List Entry
  rawBits : Nat
  pad : Nat
  bytes : List Byte
  deriving DecidableEq, Repr

/-- The phases of ENCODE after the analysis: codes, their check, the length check, packing (R123-R136). -/
def encodeCounts (p : Config.Params) (text : List Sym) (counts : List Count) : Except Raised Encoded :=
  let codes := build (counts.map (·.freq))
  match checkDistinct codes with
  | .error e => .error e
  | .ok () =>
    let L := rawLength counts codes
    if p.packMax < artifactLength L then
      .error { cause := .outputCapacity, info := BitVec.ofNat 32 (artifactLength L) }
    else
      let table := entriesOf counts codes
      .ok { table := table, rawBits := L, pad := padding L,
            bytes := packBits (artifactBits (padding L) (rawStream table text)) }

/-- The phases of ENCODE in order, stopping at the first raise (R117, R135). -/
def encodeResult (s : State) : Except Raised Encoded :=
  match checkInput s.cfg s.inLen with
  | .error e => .error e
  | .ok () =>
    match analyze s.cfg.nsymMax s.inputText with
    | .error e => .error e
    | .ok counts => encodeCounts s.cfg s.inputText counts

/-- Success commit (R137): the table, the artifact and the three result registers. -/
def State.commitEncoded (r : Encoded) (s : State) : State :=
  { s with
    tv := true
    table := r.table
    packLen := BitVec.ofNat 32 (artifactLength r.rawBits)
    encBits := BitVec.ofNat 32 r.rawBits
    encPad := BitVec.ofNat 4 r.pad
    packMem := s.packMem.writeFrom 0 r.bytes }

/-- Error commit (R138): no table, lengths and encoder results 0. -/
def State.commitEncodeError (s : State) : State :=
  { s with tv := false, table := [], packLen := 0#32, encBits := 0#32, encPad := 0#4 }

/-- ENCODE (R117). -/
def execEncode (s : State) : Host.Outcome State Fault Refusal :=
  match encodeResult s with
  | .ok r => .next (s.commitEncoded r).completeOk
  | .error e => .next (s.commitEncodeError.completeRaised e)

end Sys2Proof.Machine
end

