-- ==== Sys2Proof/Machine/Schedule.lean ====
section
/-!
DEFINITION. The two agents' steps (00_scope.md R17): the engine's completion step (40_control.md R107, R108) and one
event of the outside world (20_memory.md R63, 30_encoding.md R91, 70_reset_and_hazards.md R186), and which of them moves.
-/

namespace Sys2Proof.Machine

/-- The completion step of a command (R107). -/
def runCommand : Command → State → Host.Outcome State Fault Refusal
  | .instr i, s => exec i s
  | .illegal v, s => execIllegal v s

/-- The engine moves now: no more events pass before the completion, or none is left to pass (R108; log 2). -/
def State.engineDue (s : State) : Bool := s.wait == 0 || s.world.isEmpty

/-- A read whose value the host receives (R63). -/
def State.hostRead (a : Addr) (s : State) : State := { s with replies := s.busRead a :: s.replies }

/-- The next event of the outside world takes place; with none left the block stays as it is (R186; log 12). -/
def worldStep (s : State) : Host.Outcome State Fault Refusal :=
  match s.world with
  | [] => .next s
  | .write a v :: rest => .next (({ s with world := rest } : State).busWrite a v)
  | .read a :: rest => .next (({ s with world := rest } : State).hostRead a)
  | .poll a mask value :: rest =>
    if s.busRead a &&& mask = value then .next (({ s with world := rest } : State).hostRead a)
    else .next (s.hostRead a)
  | .waitIrq :: rest => if s.irq then .next { s with world := rest } else .next s
  | .rst :: rest => .next ({ s with world := rest } : State).resetBlock
  | .subword _ _ :: _ => .refused .subwordTransaction
  | .secondMaster _ :: _ => .refused .secondBusMaster

/-- One step of a block with legal parameters: while a command runs, its completion when it is due and an event, with
one less to wait for, when it is not; an event while idle (R19, R107, R108). -/
def agentStep (s : State) : Host.Outcome State Fault Refusal :=
  match s.eng with
  | .idle => worldStep s
  | .run op => if s.engineDue then runCommand op s else worldStep { s with wait := s.wait - 1 }

/-- Put the block where the step completes the command of word `v`: as its acceptance leaves it (R106), the
completion due. -/
def State.withCommandWord (s : State) (v : Word) : State := { s.begin (decodeCmd v) with wait := 0 }

end Sys2Proof.Machine
end

