-- ==== Sys2Proof/Machine/Step.lean ====
section
/-!
DEFINITION. One step of the block: the next state or a refusal (no event faults, log 14).
-/

namespace Sys2Proof.Machine

/-- One step. A block whose parameters are outside their ranges is refused (R7, I14). -/
def step (s : State) : Host.Outcome State Fault Refusal :=
  if s.cfg.legal then agentStep s else .refused .parameterOutOfRange

/-- `s` with the command of a table word accepted and due, so that the very next step runs it (log 1). -/
def State.withFetchWord (s : State) (nbits w : Nat) : State := s.withCommandWord (commandWord nbits w)

end Sys2Proof.Machine
end

