-- ==== Sys2Proof/Machine/HostProgram.lean ====
section
/-!
DEFINITION. The notation of host programs (30_encoding.md R91, R92) as events of the outside world.
-/

namespace Sys2Proof.Machine.HostProgram

/-- The bus address of a register: its offset added to the window base, which is 0 here (R20, R91). -/
def regAddr (r : Reg) : Addr := BitVec.ofNat 22 r.offset

/-- The bus address of `SYM[i]` (R61). -/
def symAddr (i : Nat) : Addr := BitVec.ofNat 22 (0x100000 + 4 * i)

/-- The bus address of `PACK[i]` (R61). -/
def packAddr (i : Nat) : Addr := BitVec.ofNat 22 (0x200000 + 4 * i)

/-- The bus address of `OUT[i]` (R61). -/
def outAddr (i : Nat) : Addr := BitVec.ofNat 22 (0x300000 + 4 * i)

/-- `CMD CLEAR`, `CMD ENCODE`, `CMD DECODE` (R92). -/
def cmd (i : Instr) : List Event := [.write (regAddr .cmd) (encode i)]

/-- `WAIT`: POLL STATUS until BUSY = 0 (R92). -/
def waitIdle : List Event := [.poll (regAddr .status) 0x00000001#32 0x00000000#32]

/-- `ACK`: clear DONE (R92). -/
def ack : List Event := [.write (regAddr .status) 0x00000002#32]

/-- The writes of `LOADSYM` from word `i` on. -/
def loadSymFrom : Nat → List Word → List Event
  | _, [] => []
  | i, v :: vs => .write (symAddr i) v :: loadSymFrom (i + 1) vs

/-- `LOADSYM`: the symbols, then IN_LEN (R92). -/
def loadSym (vs : List Word) : List Event :=
  loadSymFrom 0 vs ++ [.write (regAddr .inLen) (BitVec.ofNat 32 vs.length)]

end Sys2Proof.Machine.HostProgram
end

