-- ==== Sys2Proof/Machine/Tree.lean ====
section
/-!
DEFINITION. The Huffman tree of the TreeBuilder (00_scope.md R14, 10_state.md R50, 41_encode.md R124) and the tree
walker, the other realisation of DECODE's walk (42_decode.md R156). The block's commands do not use them: the tree is
internal and not retained (R50). Statements say that they give the codes and the decodings of Encoder.lean and
Decoder.lean.
-/

namespace Sys2Proof.Machine

/-- "Either a Leaf{symbol, weight} or an Internal{weight, left, right}" (R14). A leaf names its table entry by its
index; `missing` is the child that R156 calls missing. -/
inductive Tree where
  | leaf (entry : Nat) (weight : Nat)
  | internal (weight : Nat) (left right : Tree)
  | missing
  deriving DecidableEq, Repr

/-- An element of the priority collection that carries its tree (R123, R124). -/
structure TreeNode where
  weight : Nat
  seq : Nat
  tree : Tree
  deriving DecidableEq, Repr

/-- The order of extraction, as for `Node.before` (R123). -/
def TreeNode.before (a b : TreeNode) : Bool :=
  a.weight < b.weight || (a.weight == b.weight && a.seq < b.seq)

/-- The least element of a non-empty collection and what is left (R123). -/
def extractLeastTree : TreeNode → List TreeNode → TreeNode × List TreeNode
  | x, [] => (x, [])
  | x, y :: ys =>
    if y.before x then
      let r := extractLeastTree y ys
      (r.1, x :: r.2)
    else
      let r := extractLeastTree x ys
      (r.1, y :: r.2)

/-- "Repeatedly extract the two lowest-weight nodes, combine, and reinsert, until one node remains: the root"
(R124). -/
def mergeTrees : (fuel : Nat) → (queue : List TreeNode) → (next : Nat) → Tree
  | 0, _, _ => .missing
  | _ + 1, [], _ => .missing
  | fuel + 1, x :: xs, next =>
    match extractLeastTree x xs with
    | (a, []) => a.tree
    | (a, y :: ys) =>
      let bq := extractLeastTree y ys
      let b := bq.1
      let w := a.weight + b.weight
      mergeTrees fuel (bq.2 ++ [{ weight := w, seq := next, tree := .internal w a.tree b.tree }]) (next + 1)

/-- The tree of the entries' frequencies: one leaf per entry (R123, R124). -/
def buildTree (freqs : List Nat) : Tree :=
  mergeTrees freqs.length (freqs.zipIdx.map fun fi => { weight := fi.1, seq := fi.2, tree := .leaf fi.2 fi.1 })
    freqs.length

/-- The root the walker starts from: a lone leaf becomes the left child of a node whose right child is missing, and
without a table both children are missing (R156). -/
def walkRoot : Tree → Tree
  | .leaf i w => .internal w (.leaf i w) .missing
  | .internal w l r => .internal w l r
  | .missing => .internal 0 .missing .missing

/-- The path from a node to leaf `i`, first edge first, 0 for left and 1 for right (R95, R126). -/
def Tree.path (i : Nat) : Tree → Option Bits
  | .leaf j _ => if i = j then some [] else none
  | .internal _ l r =>
    match l.path i with
    | some p => some (false :: p)
    | none => (r.path i).map (true :: ·)
  | .missing => none

/-- The table indices of a tree's leaves, left to right. -/
def Tree.entries : Tree → List Nat
  | .leaf i _ => [i]
  | .internal _ l r => l.entries ++ r.entries
  | .missing => []

/-- No child is missing: "no node with fewer than 2 children" (90_conflicts.md C3). -/
def Tree.full : Tree → Bool
  | .leaf _ _ => true
  | .internal _ l r => l.full && r.full
  | .missing => false

/-- The child a bit leads to (R156). -/
def Tree.child (b : Bool) : Tree → Tree
  | .internal _ l r => if b then r else l
  | .leaf _ _ => .missing
  | .missing => .missing

/-- The tree walker (R156): from the root, a bit leads to a child; a leaf outputs its entry's symbol and returns to the
root; a missing child is CORRUPT_STREAM(4); ending away from the root is CORRUPT_STREAM(5). `here` is the node reached
and `atRoot` says that it is the root. -/
def treeWalk (symOf : Nat → Sym) (outMax : Nat) (root : Tree) :
    (body : Bits) → (here : Tree) → (atRoot : Bool) → (out : List Sym) → Except Raised (List Sym)
  | [], _, atRoot, out => if atRoot then .ok out else .error (corrupt 5#32)
  | b :: bs, here, _, out =>
    match here.child b with
    | .leaf i _ =>
      if out.length = outMax then .error { cause := .outputCapacity, info := BitVec.ofNat 32 outMax }
      else treeWalk symOf outMax root bs root true (out ++ [symOf i])
    | .internal w l r => treeWalk symOf outMax root bs (.internal w l r) false out
    | .missing => .error (corrupt 4#32)

end Sys2Proof.Machine
end

