-- ==== Sys2Proof/Safety.lean ====
section
/-!
DEFINITION. What counts as a good state and a good run of the block, and the spec's own descriptions of a text's table
and of an artifact's body, in the terms the statements use.
-/

namespace Sys2Proof.Machine

/-! ### Codes -/

/-- "No codeword is a prefix of another" (R14), so in particular no two are equal. -/
def codesPrefixFree (codes : List Bits) : Prop := codes.Pairwise fun a b => ¬ a <+: b ∧ ¬ b <+: a

/-- Every bit string begins with a code or begins a code (R160). -/
def codesComplete (codes : List Bits) : Prop := ∀ s : Bits, ∃ c ∈ codes, c <+: s ∨ s <+: c

/-! ### A text's table and an artifact's body, as the rules describe them -/

/-- The codes of a text's distinct symbols, in first-occurrence order, from their exact counts (R120, R121, R124). -/
def textCodes (text : List Sym) : List Bits := build (text.eraseDups.map fun x => text.count x)

/-- The table of a text: its distinct symbols in first-occurrence order with their exact counts and codes (R120, R121,
R128). -/
def textTable (text : List Sym) : List Entry :=
  List.zipWith (fun x code => { sym := x, freq := BitVec.ofNat 32 (text.count x), code := code })
    text.eraseDups (textCodes text)

/-- The raw code stream of a text against its own table (R130). -/
def textRaw (text : List Sym) : Bits := rawStream (textTable text) text

/-- The artifact's header value, PACK_MEM word 0 (R70, R144). -/
def State.header (s : State) : Nat := (s.readPack 0).toNat

/-- The artifact's bits after the header with the padding dropped (R144, R146). -/
def State.body (s : State) : Bits := ((unpackBytes s.artifact).drop 8).take (8 * s.packLen.toNat - 8 - s.header)

/-- PACK_LEN and the header pass the checks made before the walk (R142, R145, R146). -/
def State.bodyReadable (s : State) : Prop :=
  1 ≤ s.packLen.toNat ∧ s.packLen.toNat ≤ s.cfg.packMax ∧ s.header ≤ 8 ∧ s.header ≤ 8 * s.packLen.toNat - 8

/-- The codes of the valid entries (R148). -/
def State.codes (s : State) : List Bits := s.validEntries.map (·.code)

/-- The codes a DECODE can meet are non-empty and prefix-free (R41, R129); `State.TableInv` gives it. -/
def State.codesUsable (s : State) : Prop := codesPrefixFree s.codes ∧ ∀ c ∈ s.codes, 1 ≤ c.length

/-- The command completes with the cause and the detail of `e`, from which the host reads that `stage` failed (R163). -/
def State.failsIn (s : State) (i : Instr) (e : Raised) (stage : Stage) : Prop :=
  ∃ t, exec i s = .next t ∧ t.errCode = e.cause.code ∧ t.errInfo = e.info ∧ failureStage i e = some stage

/-- The offsets of R20's table. -/
def registerOffsets : List Nat :=
  [0x000, 0x004, 0x008, 0x00C, 0x010, 0x014, 0x020, 0x024, 0x028, 0x02C, 0x030, 0x034, 0x038, 0x03C, 0x040, 0x044,
   0x048, 0x050, 0x054, 0x058, 0x05C, 0x060, 0x064, 0x068, 0x06C, 0x070, 0x074, 0x078, 0x07C]

/-! ### Good states -/

/-- The invariant of the registers, flags and memories: legal parameters (R7), DONE and BUSY never both 1 (R27),
causes 0 to 7 (R161), ERR_INFO 0 when there is no error (R33), no error while a command runs (R106), memories in
canonical form within their depths (R62, R74), draws fresh (R82), OUT_LEN within OUT_MEM (R150). -/
structure State.ControlInv (s : State) : Prop where
  legal : s.cfg.legal = true
  doneNotBusy : s.done = true → s.busy = false
  causeRange : s.errCode.toNat ≤ 7
  infoZero : s.errCode = 0#4 → s.errInfo = 0#32
  busyNoError : s.busy = true → s.errCode = 0#4
  symWf : s.symMem.wf s.cfg.inMax
  packWf : s.packMem.wf s.cfg.packMax
  outWf : s.outMem.wf s.cfg.outMax
  symDraw : s.symMem.draw < s.draws
  packDraw : s.packMem.draw < s.draws
  outDraw : s.outMem.draw < s.draws
  outLenRange : s.outLen.toNat ≤ s.cfg.outMax

/-- The invariant of the shared table (R41): TV = 0 exactly when N = 0, N within NSYM_MAX, symbols pairwise distinct,
counts positive with a sum within IN_MAX, codes of length 1 to max(1, N - 1) (R127), prefix-free (R129) and complete for
N of 2 and more (R160), ENC_BITS and ENC_PAD those of the table (R130, R131), 0 without one (R38, R39). -/
structure State.TableInv (s : State) : Prop where
  validIff : s.tv = true ↔ s.table ≠ []
  size : s.table.length ≤ s.cfg.nsymMax
  symsDistinct : (s.table.map (·.sym)).Nodup
  freqPos : ∀ e ∈ s.table, 1 ≤ e.freq.toNat
  freqSum : (s.table.map (·.freq.toNat)).sum ≤ s.cfg.inMax
  codePos : ∀ e ∈ s.table, 1 ≤ e.code.length
  codeLen : ∀ e ∈ s.table, e.code.length ≤ max 1 (s.table.length - 1)
  free : codesPrefixFree (s.table.map (·.code))
  complete : 2 ≤ s.table.length → codesComplete (s.table.map (·.code))
  single : s.table.length = 1 → s.table.map (·.code) = [[false]]
  bits : s.encBits.toNat = (s.table.map fun e => e.freq.toNat * e.code.length).sum
  pad : s.tv = true → s.encPad.toNat = 8 - s.encBits.toNat % 8
  padZero : s.tv = false → s.encPad = 0#4

/-- The invariant every step keeps. -/
structure State.Inv (s : State) : Prop where
  control : s.ControlInv
  shared : s.TableInv

/-! ### Good runs -/

/-- An event the spec keeps inside: a 32-bit transaction of the one host, its wait for `irq`, or reset (R63, R178). -/
def Event.inside : Event → Bool
  | .write _ _ => true
  | .read _ => true
  | .poll _ _ _ => true
  | .waitIrq => true
  | .rst => true
  | .subword _ _ => false
  | .secondMaster _ => false

/-- An event that leaves a running command running: any of those but reset (R105, R116). -/
def Event.keepsRunning : Event → Bool
  | .rst => false
  | e => e.inside

/-- A good run: every event still to come is inside the spec. -/
def State.worldInside (s : State) : Prop := ∀ e ∈ s.world, e.inside = true

end Sys2Proof.Machine
end

