-- ==== Sys2Proof/Certificates/Slice0/Obligations.lean ====
section
/-!
DEFINITION. The statements for the provers. A statement whose docstring names rules formalises those rules of spec/; one
that names a log entry rests, in the part it says, on the model's own choice.
-/

open Sys2Proof Sys2Proof.Machine

/-! ### Command words -/

/-- The words of R87 and illegal words of spec/95_test_vectors.md 2.1. -/
def Obligations.CommandWordsDecode : Prop :=
  decodeCmd 0x00000001#32 = .instr .clear ∧ decodeCmd 0x00000002#32 = .instr .encode ∧
  decodeCmd 0x00000003#32 = .instr .decode ∧ decodeCmd 0x00000000#32 = .illegal 0x00000000#32 ∧
  decodeCmd 0x00000004#32 = .illegal 0x00000004#32 ∧ decodeCmd 0x00000012#32 = .illegal 0x00000012#32 ∧
  decodeCmd 0x80000001#32 = .illegal 0x80000001#32

/-- Decoding the word of a well-formed command gives the command, every word of a command is its encoding, and every
other word is rejected with itself (R87, R88). -/
def Obligations.DecodeAndEncodeAgree : Prop :=
  (∀ i : Instr, i.wellFormed = true → decodeCmd (encode i) = .instr i) ∧
  (∀ (v : Word) (i : Instr), decodeCmd v = .instr i → v = encode i) ∧
  (∀ v : Word, (∀ i : Instr, v ≠ encode i) → decodeCmd v = .illegal v)

/-- A word decodes to a command exactly when its RSV field is 0 and its OP field is one of the three assigned (R86-R88):
"any value with a nonzero RSV bit (whatever its OP)" is illegal. -/
def Obligations.CommandWordFieldsDecide : Prop :=
  ∀ v : Word, (∃ i, decodeCmd v = .instr i) ↔
    v.extractLsb 31 4 = 0#28 ∧ (v.extractLsb 3 0 = 1#4 ∨ v.extractLsb 3 0 = 2#4 ∨ v.extractLsb 3 0 = 3#4)

/-! ### Steps -/

/-- The completion step of a running command, when it is due, is the command's meaning, the illegal pseudo-command's
too; with the command word stored where the step takes its next command, the very next step runs it (R107; logs 1
and 2). -/
def Obligations.StepRunsTheCommand : Prop :=
  (∀ (s : State) (op : Command), s.cfg.legal = true → s.eng = .run op → s.wait = 0 ∨ s.world = [] →
    step s = runCommand op s ∧ (∀ i, op = .instr i → step s = exec i s) ∧
      ∀ v, op = .illegal v → step s = execIllegal v s) ∧
  (∀ (s : State) (v : Word) (i : Instr), s.cfg.legal = true → decodeCmd v = .instr i →
    step (s.withFetchWord 32 v.toNat) =
      exec i { s with eng := .run (.instr i), done := false, errCode := 0#4, errInfo := 0#32, wait := 0 })

/-- What a word other than the three decodes to completes with ILLEGAL_COMMAND and the word; nothing but STATUS, ERR_CODE
and ERR_INFO changes (R110). -/
def Obligations.IllegalWordCompletes : Prop :=
  ∀ (s : State) (v : Word), v ≠ 1#32 → v ≠ 2#32 → v ≠ 3#32 →
    runCommand (decodeCmd v) s = .next { s with errCode := 4#4, errInfo := v, eng := .idle, done := true }

/-- A CMD write while idle is accepted in its own transaction (R106). The `wait` taken is LATENCY, the model's list
(log 2). -/
def Obligations.CmdWriteIsAccepted : Prop :=
  ∀ (s : State) (a : Addr) (v : Word) (rest : List Event), s.cfg.legal = true → s.eng = .idle →
    s.world = .write a v :: rest → wordAddress a = 0x028 →
    step s = .next { s with world := rest, eng := .run (decodeCmd v), done := false, errCode := 0#4, errInfo := 0#32,
                            wait := s.latencies.headD 0, latencies := s.latencies.tail }

/-- A CMD write while a command runs is dropped: the command goes on and OVR is set (R111). -/
def Obligations.CmdWriteWhileBusyIsDropped : Prop :=
  ∀ (s : State) (op : Command) (a : Addr) (v : Word) (rest : List Event), s.cfg.legal = true → s.eng = .run op →
    s.wait ≠ 0 → s.world = .write a v :: rest → wordAddress a = 0x028 →
    step s = .next { s with world := rest, ovr := true, wait := s.wait - 1 }

/-- A read changes nothing of the block: the host receives the value, and while a command runs one event less is waited
for (R64, R73). -/
def Obligations.ReadHasNoSideEffect : Prop :=
  ∀ (s : State) (a : Addr) (rest : List Event), s.cfg.legal = true → s.eng = .idle ∨ s.wait ≠ 0 →
    s.world = .read a :: rest →
    step s = .next { s with world := rest, replies := s.busRead a :: s.replies,
                            wait := if s.eng = .idle then s.wait else s.wait - 1 }

/-- A POLL reads again and again until the masked value is the one waited for, in an idle block and while a command runs,
which then waits for one event less (R91; logs 2 and 3). -/
def Obligations.PollRepeatsUntilItMatches : Prop :=
  ∀ (s : State) (a : Addr) (mask value : Word) (rest : List Event), s.cfg.legal = true →
    s.eng = .idle ∨ s.wait ≠ 0 → s.world = .poll a mask value :: rest →
    step s = .next { s with world := if s.busRead a &&& mask = value then rest else s.world,
                            replies := s.busRead a :: s.replies,
                            wait := if s.eng = .idle then s.wait else s.wait - 1 }

/-- ENG leaves IDLE only by the acceptance of a CMD write, and RUN only by its completion or by reset (R19, R105; when a
completion is due is log 2's). -/
def Obligations.EngineChangesOnlyByItsThreeEvents : Prop :=
  ∀ s t : State, step s = .next t →
    (s.eng = .idle → t.eng = .idle ∨
      ∃ a v rest, s.world = .write a v :: rest ∧ wordAddress a = 0x028 ∧ t.eng = .run (decodeCmd v)) ∧
    (∀ op, s.eng = .run op → t.eng = .run op ∨
      (t.eng = .idle ∧ (s.wait = 0 ∨ s.world = [] ∨ ∃ rest, s.world = .rst :: rest)))

/-- A step is refused exactly in the three cases the spec asks a model to refuse (I14, I20, I21), and never faults. -/
def Obligations.StepRefusesOnlyWhatTheSpecKeepsOutside : Prop :=
  ∀ (s : State) (r : Refusal), step s = .refused r ↔
    (s.cfg.legal = false ∧ r = .parameterOutOfRange) ∨
    (s.cfg.legal = true ∧ (s.eng = .idle ∨ s.wait ≠ 0) ∧
      ((∃ a n rest, s.world = .subword a n :: rest ∧ r = .subwordTransaction) ∨
       (∃ a rest, s.world = .secondMaster a :: rest ∧ r = .secondBusMaster)))

/-! ### CLEAR -/

/-- CLEAR, word 0x00000001: the table invalid, PACK_LEN, OUT_LEN, ENC_BITS and ENC_PAD 0, no error, everything else
unchanged (R109). -/
def Obligations.ClearCompletes : Prop :=
  decodeCmd 0x00000001#32 = .instr .clear ∧
  ∀ s : State, exec .clear s = .next
    { s with tv := false, table := [], packLen := 0#32, outLen := 0#32, encBits := 0#32, encPad := 0#4,
             errCode := 0#4, errInfo := 0#32, eng := .idle, done := true }

/-! ### ENCODE -/

/-- ENCODE of a text that fits: the table of the exact counts in first-occurrence order with the codes of `build`, the
padding `8 - (L mod 8)`, the artifact in PACK_MEM, the result registers, everything else unchanged (R131, R137). -/
def Obligations.EncodeCompresses : Prop :=
  ∀ s : State, 1 ≤ s.inLen.toNat → s.inLen.toNat ≤ s.cfg.inMax → s.inputText.eraseDups.length ≤ s.cfg.nsymMax →
    ∀ (raw : Bits) (p : Nat), raw = s.inputText.flatMap (codeOf (textTable s.inputText)) → p = 8 - raw.length % 8 →
    1 + (raw.length + p) / 8 ≤ s.cfg.packMax →
    exec .encode s = .next
      { s with
        tv := true
        table := List.zipWith (fun x code => { sym := x, freq := BitVec.ofNat 32 (s.inputText.count x), code := code })
          s.inputText.eraseDups (build (s.inputText.eraseDups.map fun x => s.inputText.count x))
        packLen := BitVec.ofNat 32 (1 + (raw.length + p) / 8)
        encBits := BitVec.ofNat 32 raw.length
        encPad := BitVec.ofNat 4 p
        packMem := s.packMem.writeFrom 0 (packBits (bin8 (BitVec.ofNat 8 p) ++ raw ++ List.replicate p false))
        errCode := 0#4, errInfo := 0#32, eng := .idle, done := true }

/-- The two checks made before anything is read, in their order: LENGTH_CAPACITY with IN_LEN, then EMPTY_INPUT with 0;
the error commit invalidates the table and leaves PACK_MEM, OUT_LEN and OUT_MEM unchanged (R118, R138). -/
def Obligations.EncodeLengthChecks : Prop :=
  ∀ s : State,
    (s.cfg.inMax < s.inLen.toNat → exec .encode s = .next
      { s with tv := false, table := [], packLen := 0#32, encBits := 0#32, encPad := 0#4,
               errCode := 6#4, errInfo := s.inLen, eng := .idle, done := true }) ∧
    (s.inLen = 0#32 → exec .encode s = .next
      { s with tv := false, table := [], packLen := 0#32, encBits := 0#32, encPad := 0#4,
               errCode := 1#4, errInfo := 0#32, eng := .idle, done := true })

/-- SYMBOL_CAPACITY at the first symbol that does not fit, with its position (R122). -/
def Obligations.EncodeSymbolCapacity : Prop :=
  ∀ (s : State) (pre post : List Sym) (x : Sym), s.inLen.toNat ≤ s.cfg.inMax → s.inputText = pre ++ x :: post →
    x ∉ pre → pre.eraseDups.length = s.cfg.nsymMax →
    exec .encode s = .next
      { s with tv := false, table := [], packLen := 0#32, encBits := 0#32, encPad := 0#4,
               errCode := 5#4, errInfo := BitVec.ofNat 32 pre.length, eng := .idle, done := true }

/-- OUTPUT_CAPACITY with the number of bytes the artifact would need (R134). -/
def Obligations.EncodeOutputCapacity : Prop :=
  ∀ s : State, 1 ≤ s.inLen.toNat → s.inLen.toNat ≤ s.cfg.inMax → s.inputText.eraseDups.length ≤ s.cfg.nsymMax →
    ∀ (L B : Nat), L = (s.inputText.flatMap (codeOf (textTable s.inputText))).length → B = 1 + (L + (8 - L % 8)) / 8 →
    s.cfg.packMax < B →
    exec .encode s = .next
      { s with tv := false, table := [], packLen := 0#32, encBits := 0#32, encPad := 0#4,
               errCode := 7#4, errInfo := BitVec.ofNat 32 B, eng := .idle, done := true }

/-- DUPLICATE_CODE is never raised (R129: "it is never raised by a block that follows rules R123-R126"). -/
def Obligations.DuplicateCodeIsNeverRaised : Prop :=
  ∀ (s t : State) (i : Instr), exec i s = .next t → t.errCode ≠ 2#4

/-- What holds of the table after every successful ENCODE: TV = 1, N at least 1 and at most NSYM_MAX, symbols pairwise
distinct in first-occurrence order, counts positive with sum IN_LEN, codes non-empty, at most max(1, N - 1) bits long and
pairwise prefix-free (R41, R120, R121, R127, R129). -/
def Obligations.EncodeLeavesAValidTable : Prop :=
  ∀ s t : State, s.cfg.legal = true → exec .encode s = .next t → t.errCode = 0#4 →
    t.tv = true ∧ 1 ≤ t.table.length ∧ t.table.length ≤ s.cfg.nsymMax ∧
    (t.table.map (·.sym)).Nodup ∧ t.table.map (·.sym) = s.inputText.eraseDups ∧
    (∀ e ∈ t.table, 1 ≤ e.freq.toNat ∧ e.freq.toNat = s.inputText.count e.sym) ∧
    (t.table.map (·.freq.toNat)).sum = s.inLen.toNat ∧
    (∀ e ∈ t.table, 1 ≤ e.code.length ∧ e.code.length ≤ max 1 (t.table.length - 1)) ∧
    codesPrefixFree (t.table.map (·.code))

/-- A rarer symbol never has a shorter code (R140). -/
def Obligations.RarerSymbolsHaveNoShorterCodes : Prop :=
  ∀ s t : State, s.cfg.legal = true → exec .encode s = .next t → t.errCode = 0#4 →
    ∀ e ∈ t.table, ∀ e' ∈ t.table, e.freq.toNat < e'.freq.toNat → e'.code.length ≤ e.code.length

/-- What a successful ENCODE leaves in PACK_MEM: `B = 1 + (L + padding) / 8` bytes, at least 2, whose bits are the
header, the raw code stream and the padding zeros; the words from `B` on are unchanged, and a failing ENCODE changes no
word (R97, R99, R136, R138). -/
def Obligations.EncodeWritesTheArtifact : Prop :=
  ∀ s t : State, s.cfg.legal = true → exec .encode s = .next t →
    (t.errCode = 0#4 →
      1 ≤ t.encPad.toNat ∧ t.encPad.toNat ≤ 8 ∧ (t.encBits.toNat + t.encPad.toNat) % 8 = 0 ∧
      t.packLen.toNat = 1 + (t.encBits.toNat + t.encPad.toNat) / 8 ∧ 2 ≤ t.packLen.toNat ∧
      t.packLen.toNat ≤ s.cfg.packMax ∧ (t.readPack 0).toNat = t.encPad.toNat ∧
      unpackBytes t.artifact =
        bin8 (t.readPack 0) ++ s.inputText.flatMap (codeOf t.table) ++ List.replicate t.encPad.toNat false ∧
      (s.inputText.flatMap (codeOf t.table)).length = t.encBits.toNat ∧
      ∀ k, t.packLen.toNat ≤ k → t.readPack k = s.readPack k) ∧
    (t.errCode ≠ 0#4 → ∀ k, t.readPack k = s.readPack k)

/-- The result of ENCODE is a function of IN_LEN and the input text (R115). -/
def Obligations.EncodeDependsOnItsInputsOnly : Prop :=
  ∀ s₁ s₂ t₁ t₂ : State, s₁.cfg = s₂.cfg → s₁.inLen = s₂.inLen →
    (∀ j < s₁.inLen.toNat, s₁.readSym j = s₂.readSym j) →
    exec .encode s₁ = .next t₁ → exec .encode s₂ = .next t₂ →
    t₁.tv = t₂.tv ∧ t₁.table = t₂.table ∧ t₁.packLen = t₂.packLen ∧ t₁.encBits = t₂.encBits ∧ t₁.encPad = t₂.encPad ∧
    t₁.errCode = t₂.errCode ∧ t₁.errInfo = t₂.errInfo ∧
    ∀ k < t₁.packLen.toNat, t₁.readPack k = t₂.readPack k

/-! ### The tree -/

/-- The codes are the paths of the tree of the merges, root to leaf, for a lone leaf taken as left child (R124-R126,
R156); the tree has one leaf per entry and no node with one child. -/
def Obligations.CodesArePathsOfTheTree : Prop :=
  ∀ freqs : List Nat, 1 ≤ freqs.length →
    (build freqs).length = freqs.length ∧ (buildTree freqs).full = true ∧
    (buildTree freqs).entries.Perm (List.range freqs.length) ∧
    ∀ i < freqs.length, (walkRoot (buildTree freqs)).path i = some ((build freqs).getD i [])

/-- The tree walker and the table match give the same outputs and the same errors, with and without a table (R156). -/
def Obligations.TreeWalkerRefinesTheTableMatch : Prop :=
  ∀ (freqs : List Nat) (entries : List Entry) (outMax : Nat) (body : Bits),
    entries.map (·.code) = build freqs →
    treeWalk (fun i => ((entries[i]?).map (·.sym)).getD 0#21) outMax (walkRoot (buildTree freqs)) body
      (walkRoot (buildTree freqs)) true [] = walk entries outMax body [] []

/-! ### DECODE -/

/-- DECODE of a body that is a concatenation of codes: the symbols in OUT_MEM, their number in OUT_LEN, no error,
everything else unchanged (R150, R152). -/
def Obligations.DecodeOutputsTheSymbols : Prop :=
  ∀ (s : State) (es : List Entry), s.codesUsable → s.bodyReadable → (∀ e ∈ es, e ∈ s.validEntries) →
    s.body = es.flatMap (·.code) → es.length ≤ s.cfg.outMax →
    exec .decode s = .next
      { s with outLen := BitVec.ofNat 32 es.length, outMem := s.outMem.writeFrom 0 (es.map (·.sym)),
               errCode := 0#4, errInfo := 0#32, eng := .idle, done := true }

/-- The errors raised before the walk, in their order, with OUT_LEN 0 and OUT_MEM unchanged (R142, R145, R146). -/
def Obligations.DecodeHeaderChecks : Prop :=
  ∀ s : State,
    (s.cfg.packMax < s.packLen.toNat → exec .decode s = .next
      { s with outLen := 0#32, errCode := 6#4, errInfo := s.packLen, eng := .idle, done := true }) ∧
    (s.packLen = 0#32 → exec .decode s = .next
      { s with outLen := 0#32, errCode := 3#4, errInfo := 1#32, eng := .idle, done := true }) ∧
    (1 ≤ s.packLen.toNat → s.packLen.toNat ≤ s.cfg.packMax → 8 < (s.readPack 0).toNat → exec .decode s = .next
      { s with outLen := 0#32, errCode := 3#4, errInfo := 2#32, eng := .idle, done := true }) ∧
    (s.packLen = 1#32 → 1 ≤ s.cfg.packMax → 1 ≤ (s.readPack 0).toNat → (s.readPack 0).toNat ≤ 8 →
      exec .decode s = .next
        { s with outLen := 0#32, errCode := 3#4, errInfo := 3#32, eng := .idle, done := true })

/-- The three errors of the walk: more symbols than OUT_MEM holds, a buffer that begins no code, a leftover that begins a
code; OUT_LEN is 0 and every OUT_MEM word takes an unspecified value (R149-R151, R153; the draw that stands for it is
log 5's). -/
def Obligations.DecodeWalkErrors : Prop :=
  ∀ (s : State) (es : List Entry) (rest : Bits), s.codesUsable → s.bodyReadable → (∀ e ∈ es, e ∈ s.validEntries) →
    s.body = es.flatMap (·.code) ++ rest →
    (s.cfg.outMax < es.length → exec .decode s = .next
      { s with outLen := 0#32, outMem := Memory.drawn s.draws, draws := s.draws + 1,
               errCode := 7#4, errInfo := BitVec.ofNat 32 s.cfg.outMax, eng := .idle, done := true }) ∧
    (∀ (u : Bits) (b : Bool) (tail : Bits), es.length ≤ s.cfg.outMax → rest = u ++ b :: tail →
      (u = [] ∨ ∃ c ∈ s.codes, u <+: c) → (∀ c ∈ s.codes, ¬ c <+: u ++ [b]) → (∀ c ∈ s.codes, ¬ u ++ [b] <+: c) →
      exec .decode s = .next
        { s with outLen := 0#32, outMem := Memory.drawn s.draws, draws := s.draws + 1,
                 errCode := 3#4, errInfo := 4#32, eng := .idle, done := true }) ∧
    (es.length ≤ s.cfg.outMax → rest ≠ [] → (∃ c ∈ s.codes, rest <+: c ∧ rest ≠ c) → exec .decode s = .next
      { s with outLen := 0#32, outMem := Memory.drawn s.draws, draws := s.draws + 1,
               errCode := 3#4, errInfo := 5#32, eng := .idle, done := true })

/-- Without a table an empty body decodes to the empty text and any other fails at its first bit (R157). -/
def Obligations.DecodeWithoutATable : Prop :=
  ∀ s : State, s.tv = false → s.bodyReadable →
    (s.body = [] → exec .decode s = .next
      { s with outLen := 0#32, errCode := 0#4, errInfo := 0#32, eng := .idle, done := true }) ∧
    (s.body ≠ [] → exec .decode s = .next
      { s with outLen := 0#32, outMem := Memory.drawn s.draws, draws := s.draws + 1,
               errCode := 3#4, errInfo := 4#32, eng := .idle, done := true })

/-- A DECODE that succeeds has consumed every body bit: the codes of the symbols output are the body, and the OUT_MEM
words from OUT_LEN on are unchanged (R152, R155). -/
def Obligations.DecodeConsumesTheWholeBody : Prop :=
  ∀ s t : State, s.cfg.legal = true → (s.validEntries.map (·.sym)).Nodup → exec .decode s = .next t →
    t.errCode = 0#4 →
    s.bodyReadable ∧ t.outLen.toNat ≤ s.cfg.outMax ∧
    ((List.range t.outLen.toNat).map t.readOut).flatMap (codeOf s.validEntries) = s.body ∧
    ∀ j, t.outLen.toNat ≤ j → t.readOut j = s.readOut j

/-- "decode(encode(T)) == T, run using the identical CodeTable from the same encode invocation": in every later state
that still has the table and the artifact (R158). -/
def Obligations.DecodeUndoesEncode : Prop :=
  ∀ s t u : State, s.cfg.legal = true → exec .encode s = .next t → t.errCode = 0#4 →
    u.cfg = t.cfg → u.tv = t.tv → u.table = t.table → u.packLen = t.packLen →
    (∀ k < t.packLen.toNat, u.readPack k = t.readPack k) →
    (s.inLen.toNat ≤ s.cfg.outMax → ∃ w, exec .decode u = .next w ∧ w.errCode = 0#4 ∧ w.outLen = s.inLen ∧
      ∀ j < s.inLen.toNat, w.readOut j = s.readSym j) ∧
    (s.cfg.outMax < s.inLen.toNat → ∃ w, exec .decode u = .next w ∧ w.errCode = 7#4 ∧
      w.errInfo = BitVec.ofNat 32 s.cfg.outMax ∧ w.outLen = 0#32)

/-- With two entries or more the walk never raises CORRUPT_STREAM(4) (R160). -/
def Obligations.TwoEntriesNeverBeginNoCode : Prop :=
  ∀ s t : State, s.TableInv → 2 ≤ s.table.length → exec .decode s = .next t →
    ¬ (t.errCode = 3#4 ∧ t.errInfo = 4#32)

/-- The padding bits are dropped unread: two artifacts that differ in them only decode alike (R100, R146). -/
def Obligations.PaddingBitsChangeNothing : Prop :=
  ∀ (s t : State) (m : Memory 8), (m.read Config.freePackWord 0 = s.readPack 0) →
    (unpackBytes ((List.range s.packLen.toNat).map (m.read Config.freePackWord))).take
        (8 * s.packLen.toNat - s.header) =
      (unpackBytes s.artifact).take (8 * s.packLen.toNat - s.header) →
    exec .decode s = .next t → exec .decode { s with packMem := m } = .next { t with packMem := m }

/-- The outcome of DECODE is a function of PACK_LEN, the artifact and the table (R115). -/
def Obligations.DecodeDependsOnItsInputsOnly : Prop :=
  ∀ s₁ s₂ t₁ t₂ : State, s₁.cfg = s₂.cfg → s₁.packLen = s₂.packLen → s₁.tv = s₂.tv → s₁.table = s₂.table →
    (∀ k < s₁.packLen.toNat, s₁.readPack k = s₂.readPack k) →
    exec .decode s₁ = .next t₁ → exec .decode s₂ = .next t₂ →
    t₁.outLen = t₂.outLen ∧ t₁.errCode = t₂.errCode ∧ t₁.errInfo = t₂.errInfo ∧
    ∀ j < t₁.outLen.toNat, t₁.readOut j = t₂.readOut j

/-! ### Frames and whole-machine rules -/

/-- What each command leaves unchanged (R114): no command writes CTRL, STATUS.OVR, IN_LEN, TBL_IDX or SYM_MEM; CLEAR
writes no memory word; ENCODE writes no OUT_LEN and no OUT_MEM word; DECODE writes no table, PACK_LEN, ENC_BITS, ENC_PAD
and no PACK_MEM word. The parameters and the outside world's fields are no command's either. -/
def Obligations.CommandsWriteOnlyTheirOwn : Prop :=
  ∀ (s t : State) (i : Instr), exec i s = .next t →
    (t.ie = s.ie ∧ t.ovr = s.ovr ∧ t.inLen = s.inLen ∧ t.tblIdx = s.tblIdx ∧ t.symMem = s.symMem ∧ t.cfg = s.cfg ∧
      t.world = s.world ∧ t.replies = s.replies ∧ t.latencies = s.latencies ∧ t.wait = s.wait) ∧
    (t.eng = .idle ∧ t.done = true) ∧
    (i = .clear → t.packMem = s.packMem ∧ t.outMem = s.outMem) ∧
    (i = .encode → t.outLen = s.outLen ∧ t.outMem = s.outMem) ∧
    (i = .decode → t.tv = s.tv ∧ t.table = s.table ∧ t.packLen = s.packLen ∧ t.encBits = s.encBits ∧
      t.encPad = s.encPad ∧ t.packMem = s.packMem)

/-- Every failing command ends with a nonzero ERR_CODE, that of what it raised, with its detail, and the length register
of its result reads 0 (R16): ENCODE's PACK_LEN, DECODE's OUT_LEN. -/
def Obligations.RaisedErrorsAreReported : Prop :=
  ∀ (s : State) (e : Raised),
    (encodeResult s = .error e → ∃ t, exec .encode s = .next t ∧ t.errCode = e.cause.code ∧ t.errCode ≠ 0#4 ∧
      t.errInfo = e.info ∧ t.packLen = 0#32) ∧
    (unpackBody s = .error e ∨
      (∃ body, unpackBody s = .ok body ∧ walk s.validEntries s.cfg.outMax body [] [] = .error e) →
      ∃ t, exec .decode s = .next t ∧ t.errCode = e.cause.code ∧ t.errCode ≠ 0#4 ∧ t.errInfo = e.info ∧
        t.outLen = 0#32) ∧
    ∀ v t, execIllegal v s = .next t → t.errCode ≠ 0#4

/-- The command last issued, ERR_CODE and ERR_INFO name the stage that failed (R163), phase by phase. A raise of ENCODE's
length checks or of `analyze` belongs to the FrequencyAnalyzer, an equal pair of codes to the TreeBuilder (on any code
list, since DuplicateCodeIsNeverRaised), an artifact too long to the BitPacker; a raise before DECODE's walk to the
BitUnpacker, CORRUPT_STREAM(4) and (5) to the walk, DECODE's OUTPUT_CAPACITY to the symbol output; ILLEGAL_COMMAND belongs
to no stage. Every failing command of the table has a stage, and ERR_CODE determines the cause. -/
def Obligations.FailuresNameTheirStage : Prop :=
  (∀ (s : State) (e : Raised),
    (checkInput s.cfg s.inLen = .error e → s.failsIn .encode e .frequencyAnalyzer) ∧
    (checkInput s.cfg s.inLen = .ok () → analyze s.cfg.nsymMax s.inputText = .error e →
      s.failsIn .encode e .frequencyAnalyzer) ∧
    (∀ codes : List Bits, checkDistinct codes = .error e → failureStage .encode e = some .treeBuilder) ∧
    (∀ (counts : List Count) (codes : List Bits), checkInput s.cfg s.inLen = .ok () →
      analyze s.cfg.nsymMax s.inputText = .ok counts → codes = build (counts.map (·.freq)) →
      checkDistinct codes = .ok () → s.cfg.packMax < artifactLength (rawLength counts codes) →
      s.failsIn .encode
        { cause := .outputCapacity, info := BitVec.ofNat 32 (artifactLength (rawLength counts codes)) } .bitPacker) ∧
    (unpackBody s = .error e → s.failsIn .decode e .bitUnpacker) ∧
    (∀ body : Bits, unpackBody s = .ok body → walk s.validEntries s.cfg.outMax body [] [] = .error e →
      (e = corrupt 4#32 ∨ e = corrupt 5#32 → s.failsIn .decode e .walk) ∧
      (e.cause = .outputCapacity → s.failsIn .decode e .symbolOutput))) ∧
  (∀ (i : Instr) (v : Word), failureStage i { cause := .illegalCommand, info := v } = none) ∧
  (∀ (s t : State) (i : Instr), exec i s = .next t → t.errCode ≠ 0#4 →
    ∃ (e : Raised) (stage : Stage), e.cause.code = t.errCode ∧ e.info = t.errInfo ∧ failureStage i e = some stage) ∧
  ∀ c d : Cause, c.code = d.code → c = d

/-- A completion raises `irq` exactly when CTRL.IE is 1, success and error alike (R172). -/
def Obligations.CompletionRaisesIrqWhenEnabled : Prop :=
  ∀ (s t : State) (op : Command), runCommand op s = .next t → t.irq = s.ie

/-- The table changes only when CLEAR or ENCODE completes, or at reset (R41: "Only ENCODE ... and CLEAR ... write the
table"; when a completion is due is log 2's). -/
def Obligations.OnlyEncodeAndClearWriteTheTable : Prop :=
  ∀ s t : State, step s = .next t → t.tv ≠ s.tv ∨ t.table ≠ s.table →
    ((s.eng = .run (.instr .encode) ∨ s.eng = .run (.instr .clear)) ∧ (s.wait = 0 ∨ s.world = [])) ∨
    ∃ rest, s.world = .rst :: rest

/-- Which events write OVR and DONE (R27, R29, R49): OVR is set only by a CMD write while BUSY and cleared only by a
STATUS write with bit 3 set or by reset; DONE is set only by a completion and cleared only by an acceptance, by a STATUS
write with bit 1 set or by reset. That a completion is due when no event is left to wait for, or none is left at all, is
the model's choice, log 2's. -/
def Obligations.FlagsChangeOnlyByTheirEvents : Prop :=
  ∀ s t : State, step s = .next t →
    (s.ovr = false → t.ovr = true → s.busy = true ∧
      ∃ a v rest, s.world = .write a v :: rest ∧ wordAddress a = 0x028) ∧
    (s.ovr = true → t.ovr = false → (∃ rest, s.world = .rst :: rest) ∨
      ∃ a v rest, s.world = .write a v :: rest ∧ wordAddress a = 0x024 ∧ v.getLsbD 3 = true) ∧
    (s.done = false → t.done = true → s.busy = true ∧ (s.wait = 0 ∨ s.world = [])) ∧
    (s.done = true → t.done = false → (∃ rest, s.world = .rst :: rest) ∨
      ∃ a v rest, s.world = .write a v :: rest ∧
        ((wordAddress a = 0x024 ∧ v.getLsbD 1 = true) ∨ (wordAddress a = 0x028 ∧ s.busy = false)))

/-- No step changes a running command's inputs, nor what it hides, while the command keeps running (R76, R192). -/
def Obligations.InputsAreFrozenWhileBusy : Prop :=
  ∀ s t : State, step s = .next t → s.busy = true → t.busy = true →
    t.eng = s.eng ∧ t.inLen = s.inLen ∧ t.packLen = s.packLen ∧ t.symMem = s.symMem ∧ t.packMem = s.packMem ∧
    t.outMem = s.outMem ∧ t.tv = s.tv ∧ t.table = s.table ∧ t.tblIdx = s.tblIdx ∧ t.outLen = s.outLen ∧
    t.encBits = s.encBits ∧ t.encPad = s.encPad ∧ t.errCode = s.errCode ∧ t.errInfo = s.errInfo ∧ t.cfg = s.cfg

/-- Every accepted command completes unless a reset comes first: within the events it lets pass, some state runs the
command's completion step, which leaves the engine idle and DONE set (R107; the count of events is log 2's). -/
def Obligations.EveryCommandCompletes : Prop :=
  ∀ (s : State) (op : Command), s.cfg.legal = true → s.eng = .run op →
    (∀ e ∈ s.world.take s.wait, e.keepsRunning = true) →
    ∃ k t u, k ≤ s.wait ∧ Sys2Proof.core.run k s = .next t ∧ t.eng = .run op ∧ t.inputText = s.inputText ∧
      t.artifact = s.artifact ∧ t.validEntries = s.validEntries ∧
      Sys2Proof.core.run (k + 1) s = .next u ∧ runCommand op t = .next u ∧ u.eng = .idle ∧ u.done = true

/-- Reset (R52, R186, R187): a running command is discarded, every register at its reset value, the table invalid, every
data memory word unspecified even if it was written (the draw that stands for it is log 4's). -/
def Obligations.ResetEventResetsTheBlock : Prop :=
  ∀ (s : State) (rest : List Event), s.cfg.legal = true → s.eng = .idle ∨ s.wait ≠ 0 → s.world = .rst :: rest →
    ∃ t, step s = .next t ∧ t.eng = .idle ∧ t.busRead 0x020#22 = 0#32 ∧ t.busRead 0x024#22 = 0#32 ∧
      t.errCode = 0#4 ∧ t.errInfo = 0#32 ∧ t.inLen = 0#32 ∧ t.packLen = 0#32 ∧ t.outLen = 0#32 ∧ t.encBits = 0#32 ∧
      t.encPad = 0#4 ∧ t.tblIdx = 0#32 ∧ t.tv = false ∧ t.table = [] ∧ t.irq = false ∧ t.cfg = s.cfg ∧ t.world = rest ∧
      (∀ i, t.readSym i = Config.freeSymWord s.draws i) ∧ (∀ i, t.readPack i = Config.freePackWord s.draws i) ∧
      (∀ i, t.readOut i = Config.freeOutWord s.draws i)

/-- The state after reset reads as R20 and R52 say: ID, VERSION, the default capacities (R7), every other register 0. -/
def Obligations.ResetStateReadsAsSpecified : Prop :=
  State.reset.busRead 0x000#22 = 0x48554646#32 ∧ State.reset.busRead 0x004#22 = 1#32 ∧
  State.reset.busRead 0x008#22 = 256#32 ∧ State.reset.busRead 0x00C#22 = 4096#32 ∧
  State.reset.busRead 0x010#22 = 16384#32 ∧ State.reset.busRead 0x014#22 = 4096#32 ∧
  (∀ a ∈ registerOffsets, 0x020 ≤ a → State.reset.busRead (BitVec.ofNat 22 a) = 0#32) ∧
  State.reset.eng = .idle ∧ State.reset.irq = false

/-! ### The bus -/

/-- Seventeen registers of R20 as they read while idle (R21-R24, R31-R39, R42): all but STATUS, which StatusBitsReadTheFlags
states, and TBL_SYM to TBL_CODE7, which TableReadBack states. -/
def Obligations.RegistersReadTheirValues : Prop :=
  ∀ s : State, s.eng = .idle →
    s.busRead 0x000#22 = 0x48554646#32 ∧ s.busRead 0x004#22 = 0x00000001#32 ∧
    s.busRead 0x008#22 = BitVec.ofNat 32 s.cfg.nsymMax ∧ s.busRead 0x00C#22 = BitVec.ofNat 32 s.cfg.inMax ∧
    s.busRead 0x010#22 = BitVec.ofNat 32 s.cfg.packMax ∧ s.busRead 0x014#22 = BitVec.ofNat 32 s.cfg.outMax ∧
    s.busRead 0x020#22 = (if s.ie then 1#32 else 0#32) ∧ s.busRead 0x028#22 = 0#32 ∧
    s.busRead 0x02C#22 = s.errCode.setWidth 32 ∧ s.busRead 0x030#22 = s.errInfo ∧ s.busRead 0x034#22 = s.inLen ∧
    s.busRead 0x038#22 = s.packLen ∧ s.busRead 0x03C#22 = s.outLen ∧
    s.busRead 0x040#22 = BitVec.ofNat 32 s.table.length ∧ s.busRead 0x044#22 = s.encBits ∧
    s.busRead 0x048#22 = s.encPad.setWidth 32 ∧ s.busRead 0x050#22 = s.tblIdx

/-- The bits of STATUS, running or idle: BUSY, DONE, ERR, OVR, TVALID, and zeros above (R25-R30). -/
def Obligations.StatusBitsReadTheFlags : Prop :=
  ∀ s : State,
    ((s.busRead 0x024#22).getLsbD 0 = true ↔ s.eng ≠ .idle) ∧ (s.busRead 0x024#22).getLsbD 1 = s.done ∧
    ((s.busRead 0x024#22).getLsbD 2 = true ↔ s.errCode ≠ 0#4) ∧ (s.busRead 0x024#22).getLsbD 3 = s.ovr ∧
    (s.busRead 0x024#22).getLsbD 4 = s.tv ∧ ∀ k, 5 ≤ k → (s.busRead 0x024#22).getLsbD k = false

/-- What writes of the registers do while idle: CTRL, STATUS (W1C), IN_LEN, PACK_LEN and TBL_IDX take effect, CMD is
accepted, and every other register ignores the write (R20, R24, R25, R34, R35, R42). -/
def Obligations.IdleRegisterWrites : Prop :=
  ∀ (s : State) (v : Word), s.eng = .idle →
    s.busWrite 0x020#22 v = { s with ie := v.getLsbD 0 } ∧
    s.busWrite 0x024#22 v = { s with done := s.done && !v.getLsbD 1, ovr := s.ovr && !v.getLsbD 3 } ∧
    s.busWrite 0x028#22 v = s.accept v ∧
    s.busWrite 0x034#22 v = { s with inLen := v } ∧ s.busWrite 0x038#22 v = { s with packLen := v } ∧
    s.busWrite 0x050#22 v = { s with tblIdx := v } ∧
    ∀ a ∈ registerOffsets, a ∉ [0x020, 0x024, 0x028, 0x034, 0x038, 0x050] → s.busWrite (BitVec.ofNat 22 a) v = s

/-- Access while BUSY (R192): which reads give their values and which give 0, which writes take effect and which are
ignored, for every address of the window. -/
def Obligations.AccessWhileBusy : Prop :=
  ∀ (s : State) (a : Addr) (v : Word), s.busy = true →
    s.busRead a =
      (if wordAddress a = 0x024 then s.statusWord
       else if wordAddress a ∈ [0x000, 0x004, 0x008, 0x00C, 0x010, 0x014, 0x020] then
         ({ s with eng := .idle } : State).busRead a
       else 0#32) ∧
    s.busWrite a v =
      (if wordAddress a = 0x020 then { s with ie := v.getLsbD 0 }
       else if wordAddress a = 0x024 then { s with done := s.done && !v.getLsbD 1, ovr := s.ovr && !v.getLsbD 3 }
       else if wordAddress a = 0x028 then { s with ovr := true }
       else s)

/-- An unmapped address, a reserved register offset or a word at or beyond a memory's depth, reads 0 and ignores writes,
running or idle (R40, R66). -/
def Obligations.UnmappedWordsReadZero : Prop :=
  ∀ (s : State) (a : Addr) (v : Word),
    (wordAddress a < 0x100000 ∧ wordAddress a ∉ registerOffsets) ∨
    (0x100000 ≤ wordAddress a ∧ wordAddress a < 0x200000 ∧ s.cfg.inMax ≤ (wordAddress a - 0x100000) / 4) ∨
    (0x200000 ≤ wordAddress a ∧ wordAddress a < 0x300000 ∧ s.cfg.packMax ≤ (wordAddress a - 0x200000) / 4) ∨
    (0x300000 ≤ wordAddress a ∧ s.cfg.outMax ≤ (wordAddress a - 0x300000) / 4) →
    s.busRead a = 0#32 ∧ s.busWrite a v = s

/-- Bits 1:0 of an address are ignored (R63, R71). -/
def Obligations.LowAddressBitsAreIgnored : Prop :=
  ∀ (s : State) (a : Addr) (v : Word),
    s.busRead a = s.busRead (BitVec.ofNat 22 (wordAddress a)) ∧
    s.busWrite a v = s.busWrite (BitVec.ofNat 22 (wordAddress a)) v

/-- The words of SYM_MEM while idle: word `i` at 0x100000 + 4i reads zero-extended and stores bits 20:0, every other word
keeps its value; a word beyond IN_MAX reads 0 and ignores writes (R61, R62, R66). -/
def Obligations.SymMemWords : Prop :=
  ∀ (s : State) (i b : Nat) (v : Word), s.eng = .idle → i < 262144 → b < 4 →
    ∀ a : Addr, a = BitVec.ofNat 22 (0x100000 + 4 * i + b) →
    (i < s.cfg.inMax → s.busRead a = (s.readSym i).setWidth 32 ∧
      ∃ m, s.busWrite a v = { s with symMem := m } ∧
        ∀ j, (s.busWrite a v).readSym j = if j = i then v.setWidth 21 else s.readSym j) ∧
    (s.cfg.inMax ≤ i → s.busRead a = 0#32 ∧ s.busWrite a v = s)

/-- The words of PACK_MEM while idle, as those of SYM_MEM with bits 7:0 (R61, R62, R66). -/
def Obligations.PackMemWords : Prop :=
  ∀ (s : State) (i b : Nat) (v : Word), s.eng = .idle → i < 262144 → b < 4 →
    ∀ a : Addr, a = BitVec.ofNat 22 (0x200000 + 4 * i + b) →
    (i < s.cfg.packMax → s.busRead a = (s.readPack i).setWidth 32 ∧
      ∃ m, s.busWrite a v = { s with packMem := m } ∧
        ∀ j, (s.busWrite a v).readPack j = if j = i then v.setWidth 8 else s.readPack j) ∧
    (s.cfg.packMax ≤ i → s.busRead a = 0#32 ∧ s.busWrite a v = s)

/-- The words of OUT_MEM while idle: read zero-extended, host writes ignored; 0 beyond OUT_MAX (R61, R62, R66). -/
def Obligations.OutMemWords : Prop :=
  ∀ (s : State) (i b : Nat) (v : Word), s.eng = .idle → i < 262144 → b < 4 →
    ∀ a : Addr, a = BitVec.ofNat 22 (0x300000 + 4 * i + b) →
    s.busRead a = (if i < s.cfg.outMax then (s.readOut i).setWidth 32 else 0#32) ∧ s.busWrite a v = s

/-- Table read-back while idle: with an entry selected, its symbol, count, code length and code bits, the first bit of
the code in bit 31 of TBL_CODE0 (R43-R45); with none, 0 in every register (R46). -/
def Obligations.TableReadBack : Prop :=
  ∀ s : State, s.eng = .idle →
    (∀ e, s.tv = true → s.table[s.tblIdx.toNat]? = some e → e.code.length ≤ 255 →
      s.busRead 0x054#22 = e.sym.setWidth 32 ∧ s.busRead 0x058#22 = e.freq ∧
      (s.busRead 0x05C#22).toNat = e.code.length ∧
      ∀ k < 8, ∀ m < 32,
        (s.busRead (BitVec.ofNat 22 (0x060 + 4 * k))).getLsbD (31 - m) = e.code.getD (32 * k + m) false) ∧
    (s.tv = false ∨ s.table.length ≤ s.tblIdx.toNat →
      s.busRead 0x054#22 = 0#32 ∧ s.busRead 0x058#22 = 0#32 ∧ s.busRead 0x05C#22 = 0#32 ∧
      ∀ k < 8, s.busRead (BitVec.ofNat 22 (0x060 + 4 * k)) = 0#32)

/-- LOADSYM leaves the listed symbols in SYM_MEM, their number in IN_LEN, and every other SYM_MEM word as it was
(R92). -/
def Obligations.LoadSymLoadsTheText : Prop :=
  ∀ (s : State) (vs : List Word) (rest : List Event), s.cfg.legal = true → s.eng = .idle →
    vs.length ≤ s.cfg.inMax → s.world = HostProgram.loadSym vs ++ rest →
    ∃ t, Sys2Proof.core.run (vs.length + 1) s = .next t ∧ t.world = rest ∧ t.eng = .idle ∧
      t.inLen.toNat = vs.length ∧ t.inputText = vs.map (·.setWidth 21) ∧
      ∀ j, vs.length ≤ j → t.readSym j = s.readSym j

/-! ### Invariants -/

/-- The state after reset is good (R52, R41). The invariant's three clauses that draws are fresh hold of it by the model's
choice of the numbers 0 and 1 for its draws (logs 4 and 13). -/
def Obligations.ResetIsGood : Prop := State.reset.Inv

/-- Every step keeps a good state good: registers, flags and memories as `State.ControlInv` says, the shared table as
R41 says. -/
def Obligations.EveryStepKeepsTheInvariant : Prop := ∀ s t : State, s.Inv → step s = .next t → t.Inv

/-- A good block whose events are all inside the spec never stops, however long it runs, and stays good (R107: no
command hangs; R165: no error stops the block). -/
def Obligations.GoodRunsNeverStop : Prop :=
  ∀ (s : State) (n : Nat), s.Inv → s.worldInside → ∃ t, Sys2Proof.core.run n s = .next t ∧ t.Inv ∧ t.worldInside

/-! ### Events of the outside world, idle and while a command runs -/

/-- A write event answers the state `busWrite` gives, in an idle block and while a command runs, which then waits for one
event less (R63, R65, R192; logs 2 and 3). With IdleRegisterWrites, AccessWhileBusy, UnmappedWordsReadZero, SymMemWords,
PackMemWords and OutMemWords it says what the step does at every address. -/
def Obligations.WriteEventsReachTheBus : Prop :=
  ∀ (s : State) (a : Addr) (v : Word) (rest : List Event), s.cfg.legal = true → s.eng = .idle ∨ s.wait ≠ 0 →
    s.world = .write a v :: rest →
    step s = .next
      (({ s with world := rest, wait := if s.eng = .idle then s.wait else s.wait - 1 } : State).busWrite a v)

/-- The host's wait for `irq` ends at the event that finds CTRL.IE and STATUS.DONE both 1 and repeats at any other,
without a transaction, so no reply is received; a running command waits for one event less (R48, R77, R190; logs 2, 3 and
16). -/
def Obligations.IrqWaitRepeatsUntilIrq : Prop :=
  ∀ (s : State) (rest : List Event), s.cfg.legal = true → s.eng = .idle ∨ s.wait ≠ 0 → s.world = .waitIrq :: rest →
    step s = .next { s with world := if s.ie = true ∧ s.done = true then rest else s.world,
                            wait := if s.eng = .idle then s.wait else s.wait - 1 }

/-- WAIT (R92, R190). In an idle block it is one read of STATUS. While a command runs it reads STATUS once for each event
the command lets pass, meets the command's completion, reads STATUS once more, now with BUSY 0, and ends (R107; the count
of events is log 2's, one read a step log 3's). -/
def Obligations.WaitEndsWithTheCommand : Prop :=
  ∀ (s : State) (rest : List Event), s.cfg.legal = true → s.world = HostProgram.waitIdle ++ rest →
    (s.eng = .idle → step s = .next { s with world := rest, replies := s.statusWord :: s.replies }) ∧
    ∀ op, s.eng = .run op →
      ∃ t, runCommand op { s with wait := 0, replies := List.replicate s.wait s.statusWord ++ s.replies } = .next t ∧
        t.eng = .idle ∧ t.done = true ∧
        Sys2Proof.core.run (s.wait + 2) s = .next { t with world := rest, replies := t.statusWord :: t.replies }

/-- The wait for `irq` after a command that was accepted with CTRL.IE set (R77, R172, R190): it repeats until the command's
completion raises `irq`, and then ends. DONE is 0 while a command runs (R27, R106), as EveryStepKeepsTheInvariant says; the
count of events is log 2's, one look at `irq` a step log 16's. -/
def Obligations.IrqWaitEndsWithTheCommand : Prop :=
  ∀ (s : State) (op : Command) (rest : List Event), s.cfg.legal = true → s.eng = .run op → s.done = false →
    s.ie = true → s.world = .waitIrq :: rest →
    ∃ t, runCommand op { s with wait := 0 } = .next t ∧ t.eng = .idle ∧ t.done = true ∧ t.irq = true ∧
      Sys2Proof.core.run (s.wait + 2) s = .next { t with world := rest }
end

