-- ==== Sys2Proof/Laws/Analyze.lean ====
section
/-!
SUPPORT. The FrequencyAnalyzer counts exactly, in first-occurrence order, or stops at the first symbol that does not fit
(41_encode.md R120-R122).
-/

namespace Sys2Proof.Machine

/-! ### FrequencyAnalyzer -/

/-- The table of a text counted so far. -/
def countsOf (text : List Sym) : List Count := text.eraseDups.map fun x => { sym := x, freq := text.count x }

theorem bump_none {x : Sym} {cs : List Count} : bump x cs = none ↔ x ∉ cs.map (·.sym) := by
  induction cs with
  | nil => simp [bump]
  | cons c cs ih =>
    simp only [bump, List.map_cons, List.mem_cons, not_or]
    split
    · simp_all
    · simp only [Option.map_eq_none_iff, ih]
      exact ⟨fun h => ⟨fun he => by simp_all, h⟩, fun h => h.2⟩

theorem bump_some {x : Sym} {cs : List Count} (hn : (cs.map (·.sym)).Nodup) (hx : x ∈ cs.map (·.sym)) :
    bump x cs = some (cs.map fun c => if c.sym = x then { c with freq := c.freq + 1 } else c) := by
  induction cs with
  | nil => simp at hx
  | cons c cs ih =>
    simp only [List.map_cons, List.nodup_cons] at hn
    simp only [bump]
    split
    · rename_i hc
      have hrest : cs.map (fun c => if c.sym = x then { c with freq := c.freq + 1 } else c) = cs.map id := by
        refine List.map_congr_left fun d hd => ?_
        have : d.sym ≠ x := fun h => hn.1 (hc ▸ h ▸ List.mem_map_of_mem hd)
        simp [this]
      simp [hc, hrest]
    · rename_i hc
      have hx' : x ∈ cs.map (·.sym) := by simpa [Ne.symm hc] using hx
      simp [ih hn.2 hx', hc]

theorem nodup_eraseDups : ∀ t : List Sym, t.eraseDups.Nodup
  | [] => by simp
  | x :: xs => by
    rw [List.eraseDups_cons]
    refine List.nodup_cons.2 ⟨by simp, ?_⟩
    exact nodup_eraseDups _
termination_by t => t.length
decreasing_by exact Nat.lt_succ_of_le (List.length_filter_le _ _)

theorem eraseDups_snoc (t : List Sym) (x : Sym) :
    (t ++ [x]).eraseDups = if x ∈ t then t.eraseDups else t.eraseDups ++ [x] := by
  rw [List.eraseDups_append]
  split <;> simp_all [List.removeAll, List.eraseDups_cons]

theorem countsOf_syms (t : List Sym) : (countsOf t).map (·.sym) = t.eraseDups := by
  simp [countsOf, Function.comp_def]

theorem bump_countsOf (t : List Sym) (x : Sym) :
    bump x (countsOf t) = if x ∈ t then some (countsOf (t ++ [x])) else none := by
  split
  · rename_i hx
    rw [bump_some (by rw [countsOf_syms]; exact (nodup_eraseDups _)) (by rw [countsOf_syms]; simpa using hx)]
    simp only [countsOf, eraseDups_snoc, hx, if_true, List.map_map, Option.some.injEq]
    refine List.map_congr_left fun y _ => ?_
    by_cases h : y = x
    · subst h; simp
    · simp [h, List.count_append, Ne.symm h]
  · rename_i hx
    rw [bump_none, countsOf_syms]; simpa using hx

theorem countsOf_new (t : List Sym) (x : Sym) (hx : x ∉ t) :
    countsOf t ++ [{ sym := x, freq := 1 }] = countsOf (t ++ [x]) := by
  simp only [countsOf, eraseDups_snoc, hx, if_false, List.map_append, List.map_cons, List.map_nil]
  congr 1
  · refine List.map_congr_left fun y hy => ?_
    have : y ≠ x := fun h => hx (h ▸ by simpa using hy)
    simp [List.count_append, Ne.symm this]
  · simp [List.count_append, List.count_eq_zero_of_not_mem hx]

theorem eraseDups_length_mono (t u : List Sym) : t.eraseDups.length ≤ (t ++ u).eraseDups.length := by
  rw [List.eraseDups_append, List.length_append]; omega

/-- The analysis is the exact count of the text, in first-occurrence order, when the distinct symbols fit (R120, R121). -/
theorem analyze_ok {nsymMax : Nat} {text : List Sym} (h : text.eraseDups.length ≤ nsymMax) :
    analyze nsymMax text = .ok (countsOf text) := by
  have key : ∀ (xs pre : List Sym) (j : Nat), (pre ++ xs).eraseDups.length ≤ nsymMax →
      analyzeFrom nsymMax xs j (countsOf pre) = .ok (countsOf (pre ++ xs)) := by
    intro xs
    induction xs with
    | nil => simp [analyzeFrom]
    | cons x xs ih =>
      intro pre j hle
      have hsplit : pre ++ x :: xs = (pre ++ [x]) ++ xs := by simp
      simp only [analyzeFrom, bump_countsOf]
      by_cases hx : x ∈ pre
      · simp only [hx, if_true]
        rw [hsplit] at hle ⊢
        exact ih _ _ hle
      · simp only [hx, if_false]
        have hlt : (countsOf pre).length < nsymMax := by
          have h1 := eraseDups_length_mono (pre ++ [x]) xs
          rw [← hsplit, eraseDups_snoc] at h1
          simp only [hx, if_false, List.length_append, List.length_singleton] at h1
          simp only [countsOf, List.length_map]; omega
        rw [if_neg (by omega), countsOf_new _ _ hx]
        rw [hsplit] at hle ⊢
        exact ih _ _ hle
  exact key text [] 0 h

/-- The analysis stops at the first symbol that does not fit (R122). -/
theorem analyze_error {nsymMax : Nat} {pre post : List Sym} {x : Sym} (hx : x ∉ pre)
    (hfull : pre.eraseDups.length = nsymMax) :
    analyze nsymMax (pre ++ x :: post) =
      .error { cause := .symbolCapacity, info := BitVec.ofNat 32 pre.length } := by
  have key : ∀ (xs done : List Sym), done ++ xs = pre →
      analyzeFrom nsymMax (xs ++ x :: post) done.length (countsOf done) =
        .error { cause := .symbolCapacity, info := BitVec.ofNat 32 pre.length } := by
    intro xs
    induction xs with
    | nil =>
      intro done hd
      obtain rfl : done = pre := by simpa using hd
      have hl : (countsOf done).length = nsymMax := by simpa [countsOf] using hfull
      simp [analyzeFrom, bump_countsOf, hx, hl]
    | cons y ys ih =>
      intro done hd
      have hsplit : (done ++ [y]) ++ ys = pre := by simpa using hd
      have hlen : (done ++ [y]).length = done.length + 1 := by simp
      simp only [List.cons_append, analyzeFrom, bump_countsOf]
      by_cases hy : y ∈ done
      · simp only [hy, if_true]
        rw [← hlen]; exact ih _ hsplit
      · simp only [hy, if_false]
        have hlt : (countsOf done).length < nsymMax := by
          have h1 := eraseDups_length_mono (done ++ [y]) ys
          rw [hsplit, eraseDups_snoc] at h1
          simp only [hy, if_false, List.length_append, List.length_singleton] at h1
          simp only [countsOf, List.length_map]; omega
        rw [if_neg (by omega), countsOf_new _ _ hy, ← hlen]; exact ih _ hsplit
  exact key pre [] rfl

/-- The analysis either counts the whole text or stops at the first symbol that does not fit (R120, R122). -/
theorem analyze_cases (nsymMax : Nat) (text : List Sym) :
    (text.eraseDups.length ≤ nsymMax ∧ analyze nsymMax text = .ok (countsOf text)) ∨
    ∃ pre x post, text = pre ++ x :: post ∧ x ∉ pre ∧ pre.eraseDups.length = nsymMax ∧
      analyze nsymMax text = .error { cause := .symbolCapacity, info := BitVec.ofNat 32 pre.length } := by
  by_cases h : text.eraseDups.length ≤ nsymMax
  · exact .inl ⟨h, analyze_ok h⟩
  · right
    have key : ∀ (xs done : List Sym), done.eraseDups.length ≤ nsymMax →
        nsymMax < (done ++ xs).eraseDups.length →
        ∃ pre x post, done ++ xs = pre ++ x :: post ∧ x ∉ pre ∧ pre.eraseDups.length = nsymMax := by
      intro xs
      induction xs with
      | nil => intro done h1 h2; simp at h2; omega
      | cons x xs ih =>
        intro done h1 h2
        have hsplit : done ++ x :: xs = (done ++ [x]) ++ xs := by simp
        by_cases hx : x ∈ done
        · obtain ⟨pre, y, post, he, r⟩ := ih (done ++ [x]) (by rw [eraseDups_snoc]; simpa [hx] using h1)
            (by rw [← hsplit]; exact h2)
          exact ⟨pre, y, post, by rw [hsplit]; exact he, r⟩
        · by_cases hf : done.eraseDups.length = nsymMax
          · exact ⟨done, x, xs, rfl, hx, hf⟩
          · obtain ⟨pre, y, post, he, r⟩ := ih (done ++ [x])
              (by rw [eraseDups_snoc]; simp [hx]; omega) (by rw [← hsplit]; exact h2)
            exact ⟨pre, y, post, by rw [hsplit]; exact he, r⟩
    obtain ⟨pre, x, post, he, hx, hf⟩ := key text [] (by simp) (by simpa using h)
    simp only [List.nil_append] at he
    exact ⟨pre, x, post, he, hx, hf, by rw [he]; exact analyze_error hx hf⟩

/-- The only cause the counting raises is SYMBOL_CAPACITY (R122). -/
theorem analyzeFrom_error_cause {nsymMax : Nat} {e : Raised} {xs : List Sym} {j : Nat} {counts : List Count}
    (h : analyzeFrom nsymMax xs j counts = .error e) : e.cause = .symbolCapacity := by
  induction xs generalizing j counts with
  | nil => cases h
  | cons x xs ih =>
    simp only [analyzeFrom] at h
    split at h
    · exact ih h
    · split at h
      · cases h; rfl
      · exact ih h

end Sys2Proof.Machine
end

