-- ==== Sys2Proof/Laws/Bits.lean ====
section
/-!
SUPPORT. Packing and unpacking undo each other (20_memory.md R69), the value of a bit string, and the bits of a read-back word
(10_state.md R45).
-/

namespace Sys2Proof.Machine

@[simp] theorem bin8_length (v : Byte) : (bin8 v).length = 8 := rfl

@[simp] theorem zeros_length (n : Nat) : (zeros n).length = n := List.length_replicate

theorem bitsVal_append_bit (s : Bits) (b : Bool) : bitsVal (s ++ [b]) = 2 * bitsVal s + b.toNat := by
  simp [bitsVal]

theorem bitsVal_lt (s : Bits) : bitsVal s < 2 ^ s.length := by
  induction s using List.reverseRecOn with
  | nil => simp [bitsVal]
  | append_singleton s b ih =>
    rw [bitsVal_append_bit, List.length_append, List.length_singleton, pow_succ]
    cases b <;> simp <;> omega

/-- The value of a byte's eight bits is the byte. -/
@[simp] theorem bitsVal_bin8 (v : Byte) : bitsVal (bin8 v) = v.toNat := by
  revert v; decide +kernel

@[simp] theorem unpackBytes_length (bs : List Byte) : (unpackBytes bs).length = 8 * bs.length := by
  induction bs with
  | nil => rfl
  | cons b bs ih => simp only [unpackBytes, List.length_append, bin8_length, ih, List.length_cons]; omega

/-- Bits of a byte made from eight bits are those bits. -/
theorem bin8_of_bits (b7 b6 b5 b4 b3 b2 b1 b0 : Bool) :
    bin8 (BitVec.ofNat 8 (bitsVal [b7, b6, b5, b4, b3, b2, b1, b0])) = [b7, b6, b5, b4, b3, b2, b1, b0] := by
  revert b7 b6 b5 b4 b3 b2 b1 b0; decide

/-- `unpack` undoes `pack` on a whole number of bytes (R69). -/
theorem unpackBytes_packBits : ∀ s : Bits, s.length % 8 = 0 → unpackBytes (packBits s) = s
  | [], _ => rfl
  | b7 :: b6 :: b5 :: b4 :: b3 :: b2 :: b1 :: b0 :: rest, h => by
    have hr : rest.length % 8 = 0 := by simp only [List.length_cons] at h; omega
    simp only [packBits, unpackBytes, bin8_of_bits, unpackBytes_packBits rest hr, List.cons_append, List.nil_append]
  | [_], h | [_, _], h | [_, _, _], h | [_, _, _, _], h | [_, _, _, _, _], h | [_, _, _, _, _, _], h
  | [_, _, _, _, _, _, _], h => by simp at h

/-- `pack` makes one byte of every eight bits (R69). -/
theorem packBits_length : ∀ s : Bits, (packBits s).length = s.length / 8
  | [] => rfl
  | b7 :: b6 :: b5 :: b4 :: b3 :: b2 :: b1 :: b0 :: rest => by
    simp only [packBits, List.length_cons, packBits_length rest]; omega
  | [_] | [_, _] | [_, _, _] | [_, _, _, _] | [_, _, _, _, _] | [_, _, _, _, _, _] | [_, _, _, _, _, _, _] => by
    simp [packBits]

theorem unpackBytes_append (a b : List Byte) : unpackBytes (a ++ b) = unpackBytes a ++ unpackBytes b := by
  induction a with
  | nil => rfl
  | cons x xs ih => simp [unpackBytes, ih]

theorem testBit_bitsVal (s : Bits) (m : Nat) (h : m < s.length) :
    (bitsVal s).testBit (s.length - 1 - m) = s.getD m false := by
  induction s using List.reverseRecOn generalizing m with
  | nil => simp at h
  | append_singleton s b ih =>
    rw [bitsVal_append_bit]
    simp only [List.length_append, List.length_singleton] at h ⊢
    by_cases hm : m = s.length
    · subst hm
      rw [show s.length + 1 - 1 - s.length = 0 by omega]
      cases b <;> simp [Nat.testBit_zero]
    · have hlt : m < s.length := by omega
      rw [show s.length + 1 - 1 - m = (s.length - 1 - m) + 1 by omega, Nat.testBit_succ,
        show (2 * bitsVal s + b.toNat) / 2 = bitsVal s by cases b <;> simp; omega, ih m hlt]
      simp [List.getD, List.getElem?_append_left hlt]

/-- Bit `31 - m` of word `k` of the read-back window is bit `32k + m` of the code, or 0 past its end (R45). -/
theorem codeWord_bit (code : Bits) (k m : Nat) (hm : m < 32) :
    (codeWord code k).getLsbD (31 - m) = code.getD (32 * k + m) false := by
  have hpl : ((code.drop (32 * k)).take 32).length ≤ 32 := by simp
  have hget : ((code.drop (32 * k)).take 32).getD m false = code.getD (32 * k + m) false := by
    simp [List.getD, hm]
  simp only [codeWord]
  generalize (code.drop (32 * k)).take 32 = part at hpl hget ⊢
  have hl : (part ++ zeros (32 - part.length)).length = 32 := by simp; omega
  have hbit := testBit_bitsVal (part ++ zeros (32 - part.length)) m (by omega)
  rw [hl] at hbit
  simp only [BitVec.getLsbD_ofNat, show 31 - m < 32 by omega, decide_true, Bool.true_and]
  rw [show 31 - m = 32 - 1 - m by omega, hbit, ← hget]
  by_cases h : m < part.length
  · simp [List.getD, List.getElem?_append_left h]
  · simp only [List.getD, List.getElem?_append_right (Nat.le_of_not_lt h), zeros,
      List.getElem?_eq_none (Nat.le_of_not_lt h), List.getElem?_replicate]
    split <;> rfl

end Sys2Proof.Machine
end

