-- ==== Sys2Proof/Laws/Tree.lean ====
section
/-!
SUPPORT. The paths of a Huffman tree are prefix-free, complete and bounded in length (41_encode.md R127, R129; 42_decode.md R160).
-/

namespace Sys2Proof.Machine

/-- Prefix-free codes are distinct (R148). -/
theorem codesPrefixFree.nodup {codes : List Bits} (h : codesPrefixFree codes) : codes.Nodup :=
  List.Pairwise.imp (fun {a b} hab (e : a = b) => hab.1 (e ▸ List.prefix_refl a)) h

/-! ### Paths of a tree -/

theorem Tree.path_eq_none_iff (t : Tree) (i : Nat) : t.path i = none ↔ i ∉ t.entries := by
  induction t with
  | leaf j w => simp [Tree.path, Tree.entries]
  | internal w l r ihl ihr =>
    simp only [Tree.path, Tree.entries, List.mem_append, not_or, ← ihl, ← ihr]
    cases l.path i <;> simp
  | missing => simp [Tree.path, Tree.entries]

theorem Tree.path_left {w : Nat} {l r : Tree} {i : Nat} {p : Bits} (h : l.path i = some p) :
    (Tree.internal w l r).path i = some (false :: p) := by simp [Tree.path, h]

theorem Tree.path_right {w : Nat} {l r : Tree} {i : Nat} {p : Bits} (hl : i ∉ l.entries) (h : r.path i = some p) :
    (Tree.internal w l r).path i = some (true :: p) := by
  simp [Tree.path, (Tree.path_eq_none_iff l i).2 hl, h]

/-- A path of an internal node is an edge and then a path of the child the edge leads to (R95). -/
theorem Tree.path_internal {w : Nat} {l r : Tree} {i : Nat} {p : Bits}
    (h : (Tree.internal w l r).path i = some p) :
    (∃ q, l.path i = some q ∧ p = false :: q) ∨ (∃ q, r.path i = some q ∧ p = true :: q) := by
  simp only [Tree.path] at h
  cases hl : l.path i with
  | some q => simp only [hl, Option.some.injEq] at h; exact .inl ⟨q, rfl, h.symm⟩
  | none =>
    simp only [hl, Option.map_eq_some_iff] at h
    obtain ⟨q, hq, rfl⟩ := h
    exact .inr ⟨q, hq, rfl⟩

theorem Tree.mem_entries_of_path {t : Tree} {i : Nat} {p : Bits} (h : t.path i = some p) : i ∈ t.entries := by
  by_contra hn
  rw [(Tree.path_eq_none_iff t i).2 hn] at h
  cases h

/-- No path of a tree is a prefix of the path of another leaf (R129). -/
theorem Tree.path_not_isPrefix (t : Tree) {i j : Nat} {p q : Bits} (hij : i ≠ j)
    (hp : t.path i = some p) (hq : t.path j = some q) : ¬ p <+: q := by
  induction t generalizing p q with
  | leaf k w =>
    simp only [Tree.path] at hp hq
    split at hp <;> split at hq <;> simp_all
  | internal w l r ihl ihr =>
    rcases Tree.path_internal hp with ⟨p', hp', rfl⟩ | ⟨p', hp', rfl⟩ <;>
      rcases Tree.path_internal hq with ⟨q', hq', rfl⟩ | ⟨q', hq', rfl⟩
    · simpa using ihl hp' hq'
    · simp
    · simp
    · simpa using ihr hp' hq'
  | missing => simp [Tree.path] at hp

/-- In a full tree every bit string begins with a path or begins a path (R160). -/
theorem Tree.path_complete (t : Tree) (hf : t.full = true) (hd : t.entries.Nodup) (s : Bits) :
    ∃ i p, t.path i = some p ∧ (p <+: s ∨ s <+: p) := by
  induction t generalizing s with
  | leaf k w => exact ⟨k, [], by simp [Tree.path], .inl (List.nil_prefix)⟩
  | internal w l r ihl ihr =>
    simp only [Tree.full, Bool.and_eq_true] at hf
    simp only [Tree.entries, List.nodup_append] at hd
    cases s with
    | nil =>
      obtain ⟨i, p, hp, -⟩ := ihl hf.1 hd.1 []
      exact ⟨i, _, Tree.path_left hp, .inr (List.nil_prefix)⟩
    | cons b s =>
      cases b with
      | false =>
        obtain ⟨i, p, hp, h⟩ := ihl hf.1 hd.1 s
        exact ⟨i, _, Tree.path_left hp, by simpa using h⟩
      | true =>
        obtain ⟨i, p, hp, h⟩ := ihr hf.2 hd.2.1 s
        have hi : i ∉ l.entries := fun hl => hd.2.2 i hl i (Tree.mem_entries_of_path hp) rfl
        exact ⟨i, _, Tree.path_right hi hp, by simpa using h⟩
  | missing => simp [Tree.full] at hf

/-- A full tree has a leaf. -/
theorem Tree.entries_pos (t : Tree) (hf : t.full = true) : 1 ≤ t.entries.length := by
  induction t with
  | leaf k w => simp [Tree.entries]
  | internal w l r ihl ihr =>
    simp only [Tree.full, Bool.and_eq_true] at hf
    have := ihl hf.1
    simp only [Tree.entries, List.length_append]; omega
  | missing => simp [Tree.full] at hf

/-- A path is shorter than the number of leaves (R127). -/
theorem Tree.path_length (t : Tree) (hf : t.full = true) {i : Nat} {p : Bits} (hp : t.path i = some p) :
    p.length + 1 ≤ t.entries.length := by
  induction t generalizing p with
  | leaf k w => simp only [Tree.path] at hp; split at hp <;> simp_all [Tree.entries]
  | internal w l r ihl ihr =>
    simp only [Tree.full, Bool.and_eq_true] at hf
    have h1 := l.entries_pos hf.1
    have h2 := r.entries_pos hf.2
    simp only [Tree.entries, List.length_append]
    rcases Tree.path_internal hp with ⟨q, hq, rfl⟩ | ⟨q, hq, rfl⟩
    · have := ihl hf.1 hq; simp only [List.length_cons]; omega
    · have := ihr hf.2 hq; simp only [List.length_cons]; omega
  | missing => simp [Tree.full] at hf

/-- A full tree of two or more leaves is an internal node, so no path is empty. -/
theorem Tree.path_pos (t : Tree) (h2 : 2 ≤ t.entries.length) {i : Nat} {p : Bits} (hp : t.path i = some p) :
    1 ≤ p.length := by
  cases t with
  | leaf k w => simp [Tree.entries] at h2
  | internal w l r => rcases Tree.path_internal hp with ⟨q, -, rfl⟩ | ⟨q, -, rfl⟩ <;> simp
  | missing => simp [Tree.entries] at h2

end Sys2Proof.Machine
end

