-- ==== Sys2Proof/Laws/Build.lean ====
section
/-!
SUPPORT. `build` computes the paths of the Huffman tree (41_encode.md R124-R126), so its codes have the tree's properties.
-/

namespace Sys2Proof.Machine

/-! ### The priority collection -/

/-- What is extracted and what is left are together the collection (R123). -/
theorem extractLeast_perm (x : Node) (xs : List Node) :
    ((extractLeast x xs).1 :: (extractLeast x xs).2).Perm (x :: xs) := by
  induction xs generalizing x with
  | nil => exact .refl _
  | cons y ys ih =>
    simp only [extractLeast]
    split
    · exact (List.Perm.swap _ _ _).trans ((ih y).cons x)
    · exact (List.Perm.swap _ _ _).trans (((ih x).cons y).trans (List.Perm.swap _ _ _))

@[simp] theorem extractLeast_length (x : Node) (xs : List Node) : (extractLeast x xs).2.length = xs.length := by
  simpa using (extractLeast_perm x xs).length_eq

@[simp] theorem prependBit_length (b : Bool) (ls : List Nat) (codes : List Bits) :
    (prependBit b ls codes).length = codes.length := by simp [prependBit]

theorem prependBit_getD (b : Bool) (ls : List Nat) (codes : List Bits) (i : Nat) (h : i < codes.length) :
    (prependBit b ls codes).getD i [] = if i ∈ ls then b :: codes.getD i [] else codes.getD i [] := by
  simp [prependBit, List.getD, h]

/-- A node of the code computation and a node of the tree computation that agree: same weight and sequence number, the
same leaves, and each leaf's code so far is its path. -/
structure Agrees (codes : List Bits) (n : Node) (t : TreeNode) : Prop where
  weight : n.weight = t.weight
  seq : n.seq = t.seq
  leaves : n.leaves = t.tree.entries
  full : t.tree.full = true
  paths : ∀ i ∈ n.leaves, t.tree.path i = some (codes.getD i [])

theorem extractLeast_agrees {codes : List Bits} {x : Node} {xs : List Node} {y : TreeNode} {ys : List TreeNode}
    (h : Agrees codes x y) (hs : List.Forall₂ (Agrees codes) xs ys) :
    Agrees codes (extractLeast x xs).1 (extractLeastTree y ys).1 ∧
      List.Forall₂ (Agrees codes) (extractLeast x xs).2 (extractLeastTree y ys).2 := by
  induction hs generalizing x y with
  | nil => exact ⟨h, .nil⟩
  | @cons x' y' xs ys h' hs ih =>
    have hb : x'.before x = y'.before y := by
      simp [Node.before, TreeNode.before, h.weight, h'.weight, h.seq, h'.seq]
    simp only [extractLeast, extractLeastTree, hb]
    split
    · exact ⟨(ih h').1, .cons h (ih h').2⟩
    · exact ⟨(ih h).1, .cons h' (ih h).2⟩

/-- `mergeAll` computes the paths of the tree that `mergeTrees` builds (R124, R126). -/
theorem mergeAll_paths (fuel : Nat) (q : List Node) (tq : List TreeNode) (next : Nat) (codes : List Bits)
    (hq : List.Forall₂ (Agrees codes) q tq) (hne : q ≠ []) (hfuel : q.length ≤ fuel)
    (hnd : (q.flatMap (·.leaves)).Nodup) (hlt : ∀ i ∈ q.flatMap (·.leaves), i < codes.length) :
    (mergeAll fuel q next codes).length = codes.length ∧
    (mergeTrees fuel tq next).full = true ∧
    (mergeTrees fuel tq next).entries.Perm (q.flatMap (·.leaves)) ∧
    ∀ i ∈ q.flatMap (·.leaves),
      (mergeTrees fuel tq next).path i = some ((mergeAll fuel q next codes).getD i []) := by
  induction fuel generalizing q tq next codes with
  | zero => cases q <;> simp_all
  | succ fuel ih =>
    cases hq with
    | nil => exact absurd rfl hne
    | @cons x y xs ys hxy hxs =>
      obtain ⟨ha, hrest⟩ := extractLeast_agrees hxy hxs
      have hperm := extractLeast_perm x xs
      simp only [mergeAll, mergeTrees]
      generalize hea : extractLeast x xs = ea at *
      generalize het : extractLeastTree y ys = et at *
      obtain ⟨a, ra⟩ := ea
      obtain ⟨ta, rt⟩ := et
      cases hrest with
      | nil =>
        have hl : ((x :: xs).flatMap (·.leaves)).Perm a.leaves := by
          simpa using (hperm.flatMap_right (·.leaves)).symm
        refine ⟨rfl, ha.full, ?_, fun i hi => ha.paths i (hl.mem_iff.1 hi)⟩
        rw [← ha.leaves]; exact hl.symm
      | @cons x2 y2 xs2 ys2 h2 hs2 =>
        obtain ⟨hb, hrest2⟩ := extractLeast_agrees h2 hs2
        have hperm2 := extractLeast_perm x2 xs2
        dsimp only
        generalize hea2 : extractLeast x2 xs2 = eb at *
        generalize het2 : extractLeastTree y2 ys2 = etb at *
        obtain ⟨b, rb⟩ := eb
        obtain ⟨tb, rtb⟩ := etb
        dsimp only at *
        -- the leaves of the whole collection, split over what was extracted
        have hall : ((x :: xs).flatMap (·.leaves)).Perm (a.leaves ++ (b.leaves ++ rb.flatMap (·.leaves))) := by
          refine (hperm.flatMap_right (·.leaves)).symm.trans ?_
          simp only [List.flatMap_cons]
          exact List.Perm.append_left _ (by simpa using (hperm2.flatMap_right (·.leaves)).symm)
        have hnd' := hall.nodup_iff.1 hnd
        rw [List.nodup_append] at hnd'
        obtain ⟨hnda, hndbr, hdab⟩ := hnd'
        rw [List.nodup_append] at hndbr
        obtain ⟨hndb, hndr, hdbr⟩ := hndbr
        have hlen : ∀ i, i ∈ a.leaves ++ (b.leaves ++ rb.flatMap (·.leaves)) → i < codes.length :=
          fun i hi => hlt i (hall.mem_iff.2 hi)
        set codes' := prependBit true b.leaves (prependBit false a.leaves codes) with hc'
        have hget : ∀ i, i < codes.length → codes'.getD i [] =
            if i ∈ b.leaves then true :: (if i ∈ a.leaves then false :: codes.getD i [] else codes.getD i [])
            else if i ∈ a.leaves then false :: codes.getD i [] else codes.getD i [] := by
          intro i hi
          rw [hc', prependBit_getD _ _ _ _ (by simpa using hi), prependBit_getD _ _ _ _ hi]
        have hcl : codes'.length = codes.length := by simp [hc']
        -- the new node agrees, and the others keep agreeing
        have hnew : Agrees codes' { weight := a.weight + b.weight, seq := next, leaves := a.leaves ++ b.leaves }
            { weight := ta.weight + tb.weight, seq := next,
              tree := .internal (ta.weight + tb.weight) ta.tree tb.tree } := by
          refine ⟨by simp [ha.weight, hb.weight], rfl, by simp [Tree.entries, ha.leaves, hb.leaves],
            by simp [Tree.full, ha.full, hb.full], ?_⟩
          intro i hi
          simp only [List.mem_append] at hi
          have hil : i < codes.length := hlen i (by simp only [List.mem_append]; tauto)
          rw [hget i hil]
          by_cases hia : i ∈ a.leaves
          · have hib : i ∉ b.leaves := fun h => hdab i hia i (by simp [h]) rfl
            simp only [hia, hib, if_true, if_false]
            exact Tree.path_left (ha.paths i hia)
          · have hib : i ∈ b.leaves := hi.resolve_left hia
            simp only [hia, hib, if_true, if_false]
            exact Tree.path_right (by rw [← ha.leaves]; exact hia) (hb.paths i hib)
        have hold : List.Forall₂ (Agrees codes') rb rtb := by
          have hmem : ∀ n ∈ rb, ∀ i ∈ n.leaves, codes'.getD i [] = codes.getD i [] := by
            intro n hn i hi
            have hir : i ∈ rb.flatMap (·.leaves) := List.mem_flatMap.2 ⟨n, hn, hi⟩
            have hia : i ∉ a.leaves := fun h => hdab i h i (by simp [hir]) rfl
            have hib : i ∉ b.leaves := fun h => hdbr i h i hir rfl
            rw [hget i (hlen i (by simp [hir]))]; simp [hia, hib]
          clear hnew hall hdab hdbr hndr hperm2 hea2 het2
          induction hrest2 with
          | nil => exact .nil
          | cons hh _ ih2 =>
            refine .cons ⟨hh.weight, hh.seq, hh.leaves, hh.full, fun i hi => ?_⟩
              (ih2 (fun i hi => hlen i (by simp at hi ⊢; tauto)) (fun n hn => hmem n (by simp [hn])))
            rw [hmem _ (by simp) i hi]; exact hh.paths i hi
        have hq' := List.rel_append hold (List.Forall₂.cons hnew List.Forall₂.nil)
        have hlv : ((rb ++ [({ weight := a.weight + b.weight, seq := next, leaves := a.leaves ++ b.leaves } : Node)]).flatMap
            (·.leaves)).Perm ((x :: xs).flatMap (·.leaves)) := by
          refine List.Perm.trans ?_ hall.symm
          simp only [List.flatMap_append, List.flatMap_cons, List.flatMap_nil, List.append_nil]
          refine List.perm_append_comm.trans ?_
          rw [List.append_assoc]
        have hlens : rb.length + 2 = (x :: xs).length := by
          have h1 := hperm.length_eq
          have h2 := hperm2.length_eq
          simp only [List.length_cons] at h1 h2 ⊢; omega
        obtain ⟨r1, r2, r3, r4⟩ := ih _ _ (next + 1) codes' hq' (by simp) (by simp at hlens hfuel ⊢; omega)
          (hlv.nodup_iff.2 hnd) (fun i hi => by rw [hcl]; exact hlt i (hlv.mem_iff.1 hi))
        exact ⟨r1.trans hcl, r2, r3.trans hlv, fun i hi => r4 i (hlv.mem_iff.2 hi)⟩

/-! ### The codes of `build` -/

theorem seedQueue_leaves (freqs : List Nat) : (seedQueue freqs).flatMap (·.leaves) = List.range freqs.length := by
  have h : ∀ (l : List Nat) (k : Nat),
      ((l.zipIdx k).map fun fi => ({ weight := fi.1, seq := fi.2, leaves := [fi.2] } : Node)).flatMap (·.leaves) =
        List.range' k l.length := by
    intro l
    induction l with
    | nil => simp
    | cons a l ih => intro k; simp [List.zipIdx_cons, ih (k + 1), List.range'_succ]
  simpa [seedQueue, List.range_eq_range'] using h freqs 0

@[simp] theorem seedQueue_length (freqs : List Nat) : (seedQueue freqs).length = freqs.length := by simp [seedQueue]

/-- `build` gives every entry the path of its leaf in the Huffman tree (R126), for two entries or more. -/
theorem build_paths (freqs : List Nat) (h : 2 ≤ freqs.length) :
    (build freqs).length = freqs.length ∧ (buildTree freqs).full = true ∧
      (buildTree freqs).entries.Perm (List.range freqs.length) ∧
      ∀ i < freqs.length, (buildTree freqs).path i = some ((build freqs).getD i []) := by
  have hz : ∀ codes : List Bits, (∀ i, codes.getD i [] = []) → ∀ l : List (Nat × Nat),
      List.Forall₂ (Agrees codes) (l.map fun fi => ({ weight := fi.1, seq := fi.2, leaves := [fi.2] } : Node))
        (l.map fun fi => ({ weight := fi.1, seq := fi.2, tree := .leaf fi.2 fi.1 } : TreeNode)) := by
    intro codes hc l
    induction l with
    | nil => exact .nil
    | cons a l ih =>
      refine .cons ⟨rfl, rfl, rfl, rfl, fun i hi => ?_⟩ ih
      obtain rfl : i = a.2 := by simpa using hi
      simp only [Tree.path, if_true, hc]
  have h0 : ∀ i, ((freqs.map fun _ => ([] : Bits))).getD i [] = [] := by
    intro i
    simp only [List.getD, List.getElem?_map]
    cases freqs[i]? <;> rfl
  obtain ⟨h1, h2, h3, h4⟩ := mergeAll_paths freqs.length (seedQueue freqs) _ freqs.length
    (freqs.map fun _ => []) (hz _ h0 freqs.zipIdx) (by intro hn; have hl := congrArg List.length hn; rw [seedQueue_length, List.length_nil] at hl; omega)
    (by simp) (by rw [seedQueue_leaves]; exact List.nodup_range)
    (by rw [seedQueue_leaves]; simp)
  rw [seedQueue_leaves] at h3 h4
  have hb : build freqs = mergeAll freqs.length (seedQueue freqs) freqs.length (freqs.map fun _ => []) := by
    simp only [build]; rw [if_neg (by omega)]
  rw [hb]
  exact ⟨by simpa using h1, h2, h3, fun i hi => h4 i (List.mem_range.2 hi)⟩

theorem build_single (f : Nat) : build [f] = [[false]] := rfl

/-- `build` gives one code per entry (R128). -/
@[simp] theorem build_length (freqs : List Nat) : (build freqs).length = freqs.length := by
  match freqs with
  | [] => rfl
  | [f] => rfl
  | a :: b :: l => exact (build_paths (a :: b :: l) (by simp)).1

theorem build_path_getElem {freqs : List Nat} (h : 2 ≤ freqs.length) {i : Nat} (hi : i < (build freqs).length) :
    (buildTree freqs).path i = some (build freqs)[i] := by
  have := (build_paths freqs h).2.2.2 i (by simpa using hi)
  rwa [List.getD_eq_getElem _ _ hi] at this

/-- The codes are pairwise prefix-free (R129). -/
theorem build_prefixFree (freqs : List Nat) : codesPrefixFree (build freqs) := by
  match freqs with
  | [] => exact .nil
  | [f] => exact List.pairwise_singleton _ _
  | a :: b :: l =>
    have h : 2 ≤ (a :: b :: l).length := by simp
    refine List.pairwise_iff_getElem.2 fun i j hi hj hij => ?_
    exact ⟨Tree.path_not_isPrefix _ hij.ne (build_path_getElem h hi) (build_path_getElem h hj),
      Tree.path_not_isPrefix _ hij.ne' (build_path_getElem h hj) (build_path_getElem h hi)⟩

/-- Every code has at least one bit (R125, R127). -/
theorem build_code_pos (freqs : List Nat) : ∀ c ∈ build freqs, 1 ≤ c.length := by
  match freqs with
  | [] => simp [build, mergeAll]
  | [f] => simp [build_single]
  | a :: b :: l =>
    have h : 2 ≤ (a :: b :: l).length := by simp
    intro c hc
    obtain ⟨i, hi, rfl⟩ := List.mem_iff_getElem.1 hc
    obtain ⟨-, -, hp, -⟩ := build_paths _ h
    exact Tree.path_pos _ (by rw [hp.length_eq]; simp) (build_path_getElem h hi)

/-- Every code has at most max(1, N - 1) bits (R127). -/
theorem build_code_length (freqs : List Nat) : ∀ c ∈ build freqs, c.length ≤ max 1 (freqs.length - 1) := by
  match freqs with
  | [] => simp [build, mergeAll]
  | [f] => simp [build_single]
  | a :: b :: l =>
    have h : 2 ≤ (a :: b :: l).length := by simp
    intro c hc
    obtain ⟨i, hi, rfl⟩ := List.mem_iff_getElem.1 hc
    obtain ⟨-, hf, hp, -⟩ := build_paths _ h
    have := Tree.path_length _ hf (build_path_getElem h hi)
    rw [hp.length_eq, List.length_range] at this
    omega

/-- With two entries or more every bit string begins with a code or begins a code (R160). -/
theorem build_complete (freqs : List Nat) (h : 2 ≤ freqs.length) : codesComplete (build freqs) := by
  intro s
  obtain ⟨hl, hf, hp, hpath⟩ := build_paths _ h
  obtain ⟨i, p, hip, hs⟩ := Tree.path_complete _ hf (hp.nodup_iff.2 List.nodup_range) s
  have hi : i < freqs.length := List.mem_range.1 (hp.mem_iff.1 (Tree.mem_entries_of_path hip))
  rw [hpath i hi, Option.some.injEq] at hip
  refine ⟨p, ?_, hs⟩
  have hib : i < (build freqs).length := by omega
  rw [← hip, List.getD_eq_getElem _ _ hib]
  exact List.getElem_mem hib

/-- Prefix-free codes are distinct, so the check of R129 passes. -/
theorem checkDistinct_ok {codes : List Bits} (h : codes.Nodup) : checkDistinct codes = .ok () := by
  have key : ∀ (cs : List Bits) (i : Nat) (seen : List Bits), (seen ++ cs).Nodup →
      checkDistinctFrom i seen cs = .ok () := by
    intro cs
    induction cs with
    | nil => intros; rfl
    | cons c cs ih =>
      intro i seen hn
      have hc : c ∉ seen := by
        intro hm
        rw [List.nodup_append] at hn
        exact hn.2.2 c hm c (by simp) rfl
      simp only [checkDistinctFrom, hc, if_false]
      exact ih (i + 1) (seen ++ [c]) (by simpa using hn)
  exact key codes 0 [] (by simpa using h)

/-- DUPLICATE_CODE is never raised (R129). -/
theorem checkDistinct_build (freqs : List Nat) : checkDistinct (build freqs) = .ok () :=
  checkDistinct_ok (build_prefixFree freqs).nodup

/-- The only cause the check for equal codes can raise is DUPLICATE_CODE (R129). -/
theorem checkDistinctFrom_error_cause {e : Raised} {codes : List Bits} {i : Nat} {seen : List Bits}
    (h : checkDistinctFrom i seen codes = .error e) : e.cause = .duplicateCode := by
  induction codes generalizing i seen with
  | nil => cases h
  | cons c cs ih =>
    simp only [checkDistinctFrom] at h
    split at h
    · cases h; rfl
    · exact ih h

end Sys2Proof.Machine
end

