-- ==== Sys2Proof/Laws/Bus.lean ====
section
/-!
SUPPORT. Which word an address names, and everything a write of the bus can do (20_memory.md R61, R63, R65; 70_reset_and_hazards.md
R192).
-/

namespace Sys2Proof.Machine

/-! ### Which word an address names -/

theorem regAt_offset (r : Reg) : regAt r.offset = some r := by
  cases r with
  | tblCode k => revert k; decide
  | _ => rfl

theorem offset_of_regAt {o : Nat} {r : Reg} (h : regAt o = some r) : r.offset = o := by
  simpa [regAt] using List.find?_some h

theorem regAt_eq_some_iff {o : Nat} {r : Reg} : regAt o = some r ↔ r.offset = o :=
  ⟨offset_of_regAt, fun h => h ▸ regAt_offset r⟩

theorem offset_mem (r : Reg) : r.offset ∈ registerOffsets := by
  cases r with
  | tblCode k => revert k; decide
  | _ => decide

theorem regAt_eq_none {o : Nat} (h : o ∉ registerOffsets) : regAt o = none := by
  cases hr : regAt o with
  | none => rfl
  | some r => exact absurd (offset_of_regAt hr ▸ offset_mem r) h

theorem wordAddress_lt (a : Addr) : wordAddress a < 0x400000 := by
  have := a.isLt; simp only [wordAddress]; omega

theorem mappedWord_ne_reg (d i : Nat) (t : Target) (r : Reg) (h : t ≠ .reg r) : mappedWord d i t ≠ .reg r := by
  simp only [mappedWord]; split
  · exact h
  · simp

/-- An address names a register exactly when its word address is the register's offset (R20, R63). -/
theorem targetAt_reg_iff (p : Config.Params) (a : Addr) (r : Reg) :
    targetAt p a = .reg r ↔ wordAddress a = r.offset := by
  have hoff : r.offset < 0x100000 := by
    have := offset_mem r
    revert this; generalize r.offset = o
    intro h; simp [registerOffsets] at h; omega
  simp only [targetAt, regTarget]
  split
  · cases hr : regAt (wordAddress a) with
    | none =>
      simp only [reduceCtorEq, false_iff]
      intro h; rw [h, regAt_offset] at hr; cases hr
    | some r' =>
      simp only [Target.reg.injEq]
      constructor
      · rintro rfl; exact (offset_of_regAt hr).symm
      · intro h; rw [h, regAt_offset] at hr; exact (Option.some.inj hr).symm
  · rename_i h
    constructor
    · intro ht; exfalso
      split at ht
      · exact mappedWord_ne_reg _ _ _ _ (by simp) ht
      · split at ht
        · exact mappedWord_ne_reg _ _ _ _ (by simp) ht
        · exact mappedWord_ne_reg _ _ _ _ (by simp) ht
    · intro h'; omega

theorem targetAt_of_offset (p : Config.Params) {a : Addr} {r : Reg} (h : wordAddress a = r.offset) :
    targetAt p a = .reg r := (targetAt_reg_iff p a r).2 h

theorem wordAddress_ofNat {n : Nat} (h : n < 0x400000) : wordAddress (BitVec.ofNat 22 n) = n - n % 4 := by
  simp only [wordAddress, BitVec.toNat_ofNat]
  rw [Nat.mod_eq_of_lt (by omega)]

/-- Bits 1:0 of an address are ignored (R63). -/
theorem targetAt_wordAddress (p : Config.Params) (a : Addr) :
    targetAt p (BitVec.ofNat 22 (wordAddress a)) = targetAt p a := by
  have h : wordAddress (BitVec.ofNat 22 (wordAddress a)) = wordAddress a := by
    rw [wordAddress_ofNat (wordAddress_lt a)]; simp only [wordAddress]; omega
  simp only [targetAt, h]

/-- What a write can do while BUSY (R192). -/
theorem busWrite_busy {s : State} (hb : s.busy = true) (a : Addr) (v : Word) :
    s.busWrite a v =
      (if wordAddress a = 0x020 then s.writeCtrl v
       else if wordAddress a = 0x024 then s.writeStatus v
       else if wordAddress a = 0x028 then { s with ovr := true }
       else s) := by
  have key : ∀ t : Target, targetAt s.cfg a = t →
      (match t with
        | .reg r => s.writeReg v r
        | .sym i => s.whenIdle fun s => { s with symMem := s.symMem.write i (v.setWidth 21) }
        | .pack i => s.whenIdle fun s => { s with packMem := s.packMem.write i (v.setWidth 8) }
        | .out _ => s
        | .unmapped => s) =
      (if wordAddress a = 0x020 then s.writeCtrl v
       else if wordAddress a = 0x024 then s.writeStatus v
       else if wordAddress a = 0x028 then { s with ovr := true }
       else s) := by
    intro t ht
    have hne : (∀ r, t ≠ .reg r) → wordAddress a ≠ 0x020 ∧ wordAddress a ≠ 0x024 ∧ wordAddress a ≠ 0x028 := by
      intro h
      exact ⟨fun e => h .ctrl (ht ▸ targetAt_of_offset _ e), fun e => h .status (ht ▸ targetAt_of_offset _ e),
        fun e => h .cmd (ht ▸ targetAt_of_offset _ e)⟩
    cases t with
    | reg r =>
      rw [(targetAt_reg_iff _ _ _).1 ht]
      cases r with
      | tblCode k =>
        have ho : (Reg.tblCode k).offset = 0x060 + 4 * k.val := rfl
        rw [if_neg (by omega), if_neg (by omega), if_neg (by omega)]
        rfl
      | _ => simp [State.writeReg, Reg.offset, State.writeCmd, State.whenIdle, hb]
    | sym i => obtain ⟨h1, h2, h3⟩ := hne (by simp); simp [h1, h2, h3, State.whenIdle, hb]
    | pack i => obtain ⟨h1, h2, h3⟩ := hne (by simp); simp [h1, h2, h3, State.whenIdle, hb]
    | out i => obtain ⟨h1, h2, h3⟩ := hne (by simp); simp [h1, h2, h3]
    | unmapped => obtain ⟨h1, h2, h3⟩ := hne (by simp); simp [h1, h2, h3]
  exact key _ rfl

theorem writeStatus_eq (s : State) (v : Word) :
    s.writeStatus v = { s with done := s.done && !v.getLsbD 1, ovr := s.ovr && !v.getLsbD 3 } := by
  simp only [State.writeStatus, State.acknowledge]
  cases v.getLsbD 1 <;> cases v.getLsbD 3 <;> simp

/-- What a write can do while idle: nothing, one register field, one memory word, or an acceptance (R65, R106). -/
theorem busWrite_idle {s : State} (hb : s.busy = false) (a : Addr) (v : Word) :
    (s.busWrite a v = s) ∨ (wordAddress a = 0x020 ∧ s.busWrite a v = s.writeCtrl v) ∨
    (wordAddress a = 0x024 ∧ s.busWrite a v = s.writeStatus v) ∨
    (wordAddress a = 0x028 ∧ s.busWrite a v = s.accept v) ∨
    (wordAddress a = 0x034 ∧ s.busWrite a v = { s with inLen := v }) ∨
    (wordAddress a = 0x038 ∧ s.busWrite a v = { s with packLen := v }) ∨
    (wordAddress a = 0x050 ∧ s.busWrite a v = { s with tblIdx := v }) ∨
    (∃ i, i < s.cfg.inMax ∧ s.busWrite a v = { s with symMem := s.symMem.write i (v.setWidth 21) }) ∨
    (∃ i, i < s.cfg.packMax ∧ s.busWrite a v = { s with packMem := s.packMem.write i (v.setWidth 8) }) := by
  have hsym : ∀ i, targetAt s.cfg a = .sym i → i < s.cfg.inMax := by
    intro i h
    simp only [targetAt, regTarget, mappedWord] at h
    split at h
    · split at h <;> cases h
    · split at h
      · split at h
        · cases h; assumption
        · cases h
      · split at h <;> split at h <;> cases h
  have hpack : ∀ i, targetAt s.cfg a = .pack i → i < s.cfg.packMax := by
    intro i h
    simp only [targetAt, regTarget, mappedWord] at h
    split at h
    · split at h <;> cases h
    · split at h
      · split at h <;> cases h
      · split at h
        · split at h
          · cases h; assumption
          · cases h
        · split at h <;> cases h
  simp only [State.busWrite]
  cases ht : targetAt s.cfg a with
  | reg r =>
    have hw := (targetAt_reg_iff _ _ _).1 ht
    rw [hw]
    cases r <;> simp [State.writeReg, State.writeCmd, State.whenIdle, hb, Reg.offset]
  | sym i => simp only [State.whenIdle, hb]; exact .inr (.inr (.inr (.inr (.inr (.inr (.inr (.inl ⟨i, hsym i ht, rfl⟩)))))))
  | pack i => simp only [State.whenIdle, hb]; exact .inr (.inr (.inr (.inr (.inr (.inr (.inr (.inr ⟨i, hpack i ht, rfl⟩)))))))
  | out i => simp
  | unmapped => simp

theorem busWrite_cmd {s : State} {a : Addr} (h : wordAddress a = 0x028) (v : Word) : s.busWrite a v = s.writeCmd v := by
  simp only [State.busWrite, targetAt_of_offset s.cfg (r := .cmd) h, State.writeReg]

/-- What a write can do to ENG (R106, R111). -/
theorem busWrite_eng {s : State} (a : Addr) (v : Word) :
    (s.busWrite a v).eng = s.eng ∨
    (s.busy = false ∧ wordAddress a = 0x028 ∧ (s.busWrite a v).eng = .run (decodeCmd v)) := by
  cases hb : s.busy with
  | true =>
    left
    rw [busWrite_busy hb]; simp only [writeStatus_eq]
    split
    · rfl
    · split
      · rfl
      · split <;> rfl
  | false =>
    rcases busWrite_idle hb a v with h | ⟨_, h⟩ | ⟨_, h⟩ | ⟨ha, h⟩ | ⟨_, h⟩ | ⟨_, h⟩ | ⟨_, h⟩ | ⟨_, _, h⟩ | ⟨_, _, h⟩ <;> rw [h]
    · exact .inl rfl
    · exact .inl rfl
    · exact .inl (by rw [writeStatus_eq])
    · exact .inr ⟨rfl, ha, rfl⟩
    all_goals exact .inl rfl

/-- A read of a register gives its value, while idle or for a register readable while BUSY (R64, R192). -/
theorem busRead_reg {s : State} {a : Addr} {r : Reg} (h : wordAddress a = r.offset)
    (hr : s.busy = false ∨ r.readableWhileBusy = true) : s.busRead a = s.regValue r := by
  simp only [State.busRead, targetAt_of_offset s.cfg h, Target.readableWhileBusy]
  rcases hr with hr | hr <;> rw [hr] <;> simp [State.wordValue]

/-- STATUS reads its flags at any time (R25, R192). -/
theorem busRead_status (s : State) : s.busRead (HostProgram.regAddr .status) = s.statusWord :=
  busRead_reg (r := .status) (by decide) (.inr rfl)

/-- BUSY is bit 0 of STATUS (R25, R26), the bit WAIT looks at (R92). -/
theorem statusWord_and_one (s : State) : s.statusWord &&& 1#32 = 0#32 ↔ s.busy = false := by
  simp only [State.statusWord]
  cases s.busy <;> cases s.done <;> cases s.err <;> cases s.ovr <;> cases s.tvalid <;> decide

theorem busWrite_reg {s : State} {a : Addr} {r : Reg} (h : wordAddress a = r.offset) (v : Word) :
    s.busWrite a v = s.writeReg v r := by
  simp only [State.busWrite, targetAt_of_offset s.cfg h]

/-- An unmapped word reads 0 and ignores writes (R66). -/
theorem bus_unmapped {s : State} {a : Addr} (h : targetAt s.cfg a = .unmapped) (v : Word) :
    s.busRead a = 0#32 ∧ s.busWrite a v = s := by
  constructor
  · simp only [State.busRead, h, State.wordValue]; simp
  · simp only [State.busWrite, h]

/-- What no bus write changes (R114, R192). -/
theorem busWrite_frame (s : State) (a : Addr) (v : Word) :
    (s.busWrite a v).tv = s.tv ∧ (s.busWrite a v).table = s.table ∧ (s.busWrite a v).cfg = s.cfg ∧
    (s.busWrite a v).outMem = s.outMem ∧ (s.busWrite a v).encBits = s.encBits ∧
    (s.busWrite a v).encPad = s.encPad ∧ (s.busWrite a v).outLen = s.outLen ∧ (s.busWrite a v).world = s.world ∧
    (s.busWrite a v).replies = s.replies ∧ (s.busWrite a v).draws = s.draws := by
  cases hb : s.busy with
  | true =>
    rw [busWrite_busy hb]; simp only [writeStatus_eq, State.writeCtrl]
    split
    · simp
    · split
      · simp
      · split <;> simp
  | false =>
    rcases busWrite_idle hb a v with h | ⟨_, h⟩ | ⟨_, h⟩ | ⟨_, h⟩ | ⟨_, h⟩ | ⟨_, h⟩ | ⟨_, h⟩ | ⟨_, _, h⟩ | ⟨_, _, h⟩ <;>
      rw [h] <;> (try rw [writeStatus_eq]) <;>
      exact ⟨rfl, rfl, rfl, rfl, rfl, rfl, rfl, rfl, rfl, rfl⟩

end Sys2Proof.Machine
end

