-- ==== Sys2Proof/Laws/Encode.lean ====
section
/-!
SUPPORT. What ENCODE computes of a text: its table, its raw code stream, its artifact (41_encode.md R117-R137).
-/

namespace Sys2Proof.Machine

/-! ### A text against its own table -/

/-- A sum over a text, symbol by symbol, is the sum over its distinct symbols weighted by their counts (R130). -/
theorem sum_over_text (text : List Sym) (f : Sym → Nat) :
    (text.map f).sum = (text.eraseDups.map fun x => text.count x * f x).sum := by
  have key : ∀ (ds t : List Sym), ds.Nodup → (∀ x ∈ t, x ∈ ds) →
      (t.map f).sum = (ds.map fun x => t.count x * f x).sum := by
    intro ds t hn
    induction t with
    | nil => intro _; simp
    | cons y t ih =>
      intro hm
      have h1 := ih fun x hx => hm x (by simp [hx])
      have h2 : ∀ ds : List Sym, ds.Nodup → y ∈ ds → (ds.map fun x => if y = x then f x else 0).sum = f y := by
        intro ds hn hy
        induction ds with
        | nil => simp at hy
        | cons d ds ih =>
          obtain ⟨hd, hn⟩ := List.nodup_cons.1 hn
          by_cases h : y = d
          · subst h
            have h0 : (ds.map fun x => if y = x then f x else 0) = ds.map fun _ => 0 :=
              List.map_congr_left fun x hx => if_neg fun (e : y = x) => hd (e ▸ hx)
            simp [h0]
          · have hy' : y ∈ ds := by simpa [h] using hy
            simp [h, ih hn hy']
      have hy : (ds.map fun x => (y :: t).count x * f x).sum =
          (ds.map fun x => t.count x * f x).sum + (ds.map fun x => if y = x then f x else 0).sum := by
        rw [← List.sum_map_add]
        congr 1
        refine List.map_congr_left fun x _ => ?_
        rw [List.count_cons]
        by_cases h : y = x <;> simp [h, Nat.add_mul]
      rw [List.map_cons, List.sum_cons, hy, h1, h2 ds hn (hm y (by simp))]
      omega
  exact key _ _ (nodup_eraseDups _) fun x hx => by simpa using hx

@[simp] theorem textCodes_length (text : List Sym) : (textCodes text).length = text.eraseDups.length := by
  simp [textCodes]

@[simp] theorem textTable_length (text : List Sym) : (textTable text).length = text.eraseDups.length := by
  simp [textTable]

theorem textTable_syms (text : List Sym) : (textTable text).map (·.sym) = text.eraseDups := by
  simp only [textTable, List.map_zipWith]
  rw [← List.map_uncurry_zip_eq_zipWith]
  simp only [Function.uncurry_def]
  exact List.map_fst_zip (by simp)

theorem textTable_codes (text : List Sym) : (textTable text).map (·.code) = textCodes text := by
  simp only [textTable, List.map_zipWith]
  rw [← List.map_uncurry_zip_eq_zipWith]
  simp only [Function.uncurry_def]
  exact List.map_snd_zip (by simp)

theorem textTable_freq {text : List Sym} {e : Entry} (h : e ∈ textTable text) :
    e.sym ∈ text ∧ e.freq = BitVec.ofNat 32 (text.count e.sym) := by
  simp only [textTable] at h
  rw [← List.map_uncurry_zip_eq_zipWith] at h
  obtain ⟨⟨x, c⟩, hz, rfl⟩ := List.mem_map.1 h
  exact ⟨by simpa using (List.of_mem_zip hz).1, rfl⟩

/-- In a table of distinct symbols the code looked up for an entry's symbol is that entry's code. -/
theorem codeOf_mem {table : List Entry} (hn : (table.map (·.sym)).Nodup) {e : Entry} (he : e ∈ table) :
    codeOf table e.sym = e.code := by
  induction table with
  | nil => simp at he
  | cons d ds ih =>
    simp only [List.map_cons, List.nodup_cons] at hn
    simp only [codeOf, List.find?_cons]
    by_cases h : d.sym = e.sym
    · rcases List.mem_cons.1 he with rfl | he
      · simp
      · exact absurd (h ▸ List.mem_map_of_mem he) hn.1
    · have he' : e ∈ ds := by
        rcases List.mem_cons.1 he with rfl | he
        · exact absurd rfl h
        · exact he
      have hb : (d.sym == e.sym) = false := by simpa using h
      simp only [hb]
      exact ih hn.2 he'

theorem textTable_symsNodup (text : List Sym) : ((textTable text).map (·.sym)).Nodup := by
  rw [textTable_syms]; exact nodup_eraseDups _

theorem countsOf_freqs (text : List Sym) : (countsOf text).map (·.freq) = text.eraseDups.map fun x => text.count x := by
  simp [countsOf, Function.comp_def]

theorem entriesOf_countsOf (text : List Sym) : entriesOf (countsOf text) (textCodes text) = textTable text := by
  simp only [entriesOf, countsOf, textTable, List.zipWith_map_left]

theorem textRaw_length (text : List Sym) :
    (textRaw text).length = (text.map fun x => (codeOf (textTable text) x).length).sum := by
  simp [textRaw, rawStream, List.length_flatMap]

/-- `L` from the table is the length of the raw code stream (R130). -/
theorem rawLength_countsOf (text : List Sym) : rawLength (countsOf text) (textCodes text) = (textRaw text).length := by
  rw [textRaw_length, sum_over_text text fun x => (codeOf (textTable text) x).length]
  have hz : List.zipWith (fun (c : Count) (code : Bits) => c.freq * code.length) (countsOf text) (textCodes text) =
      (textTable text).map fun e => text.count e.sym * e.code.length := by
    simp only [textTable, countsOf, List.zipWith_map_left, List.map_zipWith]
  have hm : (text.eraseDups.map fun x => text.count x * (codeOf (textTable text) x).length) =
      (textTable text).map fun e => text.count e.sym * e.code.length := by
    rw [← textTable_syms, List.map_map]
    refine List.map_congr_left fun e he => ?_
    simp only [Function.comp_apply, codeOf_mem (textTable_symsNodup text) he]
  simp only [rawLength, hz, hm]

/-- Every symbol of a text has an entry in its table, whose code is the one looked up (R120, R128). -/
theorem textTable_entry {text : List Sym} {x : Sym} (hx : x ∈ text) :
    ∃ e ∈ textTable text, e.sym = x ∧ codeOf (textTable text) x = e.code := by
  have : x ∈ (textTable text).map (·.sym) := by rw [textTable_syms]; simpa using hx
  obtain ⟨e, he, rfl⟩ := List.mem_map.1 this
  exact ⟨e, he, rfl, codeOf_mem (textTable_symsNodup text) he⟩

/-- The phases after the analysis of a text (R123-R136): the only error left is the artifact's length (R134). -/
theorem encodeCounts_countsOf (p : Config.Params) (text : List Sym) :
    encodeCounts p text (countsOf text) =
      if p.packMax < artifactLength (textRaw text).length then
        .error { cause := .outputCapacity, info := BitVec.ofNat 32 (artifactLength (textRaw text).length) }
      else
        .ok { table := textTable text, rawBits := (textRaw text).length, pad := padding (textRaw text).length,
              bytes := packBits (artifactBits (padding (textRaw text).length) (textRaw text)) } := by
  have hc : build ((countsOf text).map (·.freq)) = textCodes text := by rw [countsOf_freqs]; rfl
  simp only [encodeCounts, hc]
  rw [show checkDistinct (textCodes text) = .ok () from checkDistinct_build _]
  simp only [rawLength_countsOf, entriesOf_countsOf, textRaw]
  rfl

/-- Everything ENCODE can compute, in the order of its checks (R117, R135). -/
theorem encodeResult_cases (s : State) :
    (s.cfg.inMax < s.inLen.toNat ∧ encodeResult s = .error { cause := .lengthCapacity, info := s.inLen }) ∨
    (s.inLen.toNat ≤ s.cfg.inMax ∧ s.inLen.toNat = 0 ∧
      encodeResult s = .error { cause := .emptyInput, info := 0#32 }) ∨
    (s.inLen.toNat ≤ s.cfg.inMax ∧ s.inLen.toNat ≠ 0 ∧
      ((∃ pre x post, s.inputText = pre ++ x :: post ∧ x ∉ pre ∧ pre.eraseDups.length = s.cfg.nsymMax ∧
          encodeResult s = .error { cause := .symbolCapacity, info := BitVec.ofNat 32 pre.length }) ∨
       (s.inputText.eraseDups.length ≤ s.cfg.nsymMax ∧
          encodeResult s = encodeCounts s.cfg s.inputText (countsOf s.inputText)))) := by
  by_cases h1 : s.cfg.inMax < s.inLen.toNat
  · exact .inl ⟨h1, by simp [encodeResult, checkInput, h1]⟩
  · by_cases h2 : s.inLen.toNat = 0
    · exact .inr (.inl ⟨by omega, h2, by simp [encodeResult, checkInput, h2]⟩)
    · refine .inr (.inr ⟨by omega, h2, ?_⟩)
      have hi : checkInput s.cfg s.inLen = .ok () := by simp only [checkInput, h1, h2, if_false]
      rcases analyze_cases s.cfg.nsymMax s.inputText with ⟨h, ha⟩ | ⟨pre, x, post, he, hx, hf, ha⟩
      · exact .inr ⟨h, by simp [encodeResult, hi, ha]⟩
      · exact .inl ⟨pre, x, post, he, hx, hf, by simp [encodeResult, hi, ha]⟩

theorem padding_range (L : Nat) : 1 ≤ padding L ∧ padding L ≤ 8 := by simp only [padding]; omega

theorem padding_sum (L : Nat) : (L + padding L) % 8 = 0 := by simp only [padding]; omega

theorem artifactBits_length (p : Nat) (raw : Bits) : (artifactBits p raw).length = 8 + raw.length + p := by
  simp [artifactBits]; omega

/-- The artifact is a whole number of bytes, `B` of them (R132, R133). -/
theorem packBits_artifact_length (raw : Bits) :
    (packBits (artifactBits (padding raw.length) raw)).length = artifactLength raw.length := by
  have := padding_sum raw.length
  rw [packBits_length, artifactBits_length, artifactLength]; omega

theorem eraseDups_length_le (text : List Sym) : text.eraseDups.length ≤ text.length :=
  ((nodup_eraseDups text).subperm (fun x hx => by simpa using hx : text.eraseDups ⊆ text)).length_le

/-- The counts of a text's table are positive and exact (R121). -/
theorem textTable_freq_toNat {text : List Sym} (hlt : text.length < 2 ^ 32) {e : Entry} (he : e ∈ textTable text) :
    1 ≤ e.freq.toNat ∧ e.freq.toNat = text.count e.sym := by
  obtain ⟨h1, h2⟩ := textTable_freq he
  have h3 : text.count e.sym ≤ text.length := List.count_le_length
  have h4 : 0 < text.count e.sym := List.count_pos_iff.2 h1
  have : e.freq.toNat = text.count e.sym := by rw [h2, BitVec.toNat_ofNat]; omega
  omega

/-- The counts of a text's table add up to its length (R121). -/
theorem textTable_freqSum {text : List Sym} (hlt : text.length < 2 ^ 32) :
    ((textTable text).map (·.freq.toNat)).sum = text.length := by
  have h1 : (textTable text).map (·.freq.toNat) = ((textTable text).map (·.sym)).map (fun x => text.count x * 1) := by
    rw [List.map_map]
    exact List.map_congr_left fun e he => by rw [(textTable_freq_toNat hlt he).2, Function.comp_apply, Nat.mul_one]
  rw [h1, textTable_syms, ← sum_over_text text fun _ => 1]
  simp

/-- The raw code stream is at most `max(1, N - 1)` bits for each symbol (R127, R130). -/
theorem textRaw_length_le (text : List Sym) :
    (textRaw text).length ≤ text.length * max 1 (text.eraseDups.length - 1) := by
  rw [textRaw_length]
  have : ∀ l : List Sym, (∀ x ∈ l, x ∈ text) →
      (l.map fun x => (codeOf (textTable text) x).length).sum ≤ l.length * max 1 (text.eraseDups.length - 1) := by
    intro l
    induction l with
    | nil => simp
    | cons x l ih =>
      intro hm
      have h1 := ih fun y hy => hm y (by simp [hy])
      obtain ⟨e, he, -, hc⟩ := textTable_entry (hm x (by simp))
      have hcl : e.code.length ≤ max 1 (text.eraseDups.length - 1) := by
        have := build_code_length (text.eraseDups.map fun x => text.count x) e.code (by
          have : e.code ∈ (textTable text).map (·.code) := List.mem_map_of_mem he
          rw [textTable_codes] at this; exact this)
        simpa using this
      simp only [List.map_cons, List.sum_cons, List.length_cons, hc]
      rw [Nat.add_mul, Nat.one_mul]; omega
  exact this text fun _ h => h

end Sys2Proof.Machine
end

