-- ==== Sys2Proof/Laws/Memory.lean ====
section
/-!
SUPPORT. The data memories: a read after a write, and every operation keeps the canonical form (20_memory.md R62, R64, R65).
-/

namespace Sys2Proof.Machine

theorem lookupCell_insertCell {w : Nat} (i j : Nat) (v : BitVec w) (cs : List (Nat × BitVec w)) :
    lookupCell (insertCell i v cs) j = if j = i then some v else lookupCell cs j := by
  induction cs with
  | nil => simp [insertCell, lookupCell]
  | cons c cs ih =>
    obtain ⟨k, u⟩ := c
    simp only [insertCell]
    split
    · simp [lookupCell]
    · split
      · subst_vars; simp only [lookupCell]; split <;> simp_all
      · simp only [lookupCell, ih]; split <;> split <;> simp_all

/-- A read after a write: the value written, or what was there before (R64, R65). -/
theorem Memory.read_write {w : Nat} (free : Nat → Nat → BitVec w) (m : Memory w) (i j : Nat) (v : BitVec w) :
    (m.write i v).read free j = if j = i then v else m.read free j := by
  simp only [Memory.read, Memory.write, lookupCell_insertCell]
  split <;> simp

theorem insertCell_mem {w : Nat} {i : Nat} {v : BitVec w} {cs : List (Nat × BitVec w)} {c : Nat × BitVec w}
    (h : c ∈ insertCell i v cs) : c = (i, v) ∨ c ∈ cs := by
  induction cs with
  | nil => simpa [insertCell] using h
  | cons d cs ih =>
    obtain ⟨k, u⟩ := d
    simp only [insertCell] at h
    split at h
    · simpa using h
    · split at h
      · simp only [List.mem_cons] at h ⊢; tauto
      · simp only [List.mem_cons] at h ⊢
        rcases h with h | h
        · tauto
        · rcases ih h with h | h <;> tauto

theorem insertCell_sorted {w : Nat} (i : Nat) (v : BitVec w) (cs : List (Nat × BitVec w))
    (h : cs.Pairwise (fun a b => a.1 < b.1)) : (insertCell i v cs).Pairwise (fun a b => a.1 < b.1) := by
  induction cs with
  | nil => simp [insertCell]
  | cons d cs ih =>
    obtain ⟨k, u⟩ := d
    obtain ⟨hk, ht⟩ := List.pairwise_cons.1 h
    simp only [insertCell]
    split
    · rename_i hik
      refine List.pairwise_cons.2 ⟨?_, h⟩
      intro c hc
      rcases List.mem_cons.1 hc with rfl | hc
      · exact hik
      · exact Nat.lt_trans hik (hk c hc)
    · split
      · subst_vars; exact List.pairwise_cons.2 ⟨hk, ht⟩
      · refine List.pairwise_cons.2 ⟨fun c hc => ?_, ih ht⟩
        rcases insertCell_mem hc with rfl | hc
        · simp; omega
        · exact hk c hc

/-- A write below the depth keeps the canonical form. -/
theorem Memory.write_wf {w : Nat} {depth : Nat} {m : Memory w} (h : m.wf depth) {i : Nat} (hi : i < depth)
    (v : BitVec w) : (m.write i v).wf depth := by
  refine ⟨insertCell_sorted i v _ h.1, fun c hc => ?_⟩
  rcases insertCell_mem hc with rfl | hc
  · exact hi
  · exact h.2 c hc

theorem Memory.writeFrom_wf {w : Nat} {depth : Nat} (vs : List (BitVec w)) {m : Memory w} (h : m.wf depth) {i : Nat}
    (hi : i + vs.length ≤ depth) : (m.writeFrom i vs).wf depth := by
  induction vs generalizing m i with
  | nil => exact h
  | cons v vs ih =>
    simp only [List.length_cons] at hi
    exact ih (Memory.write_wf h (by omega) v) (by omega)

theorem Memory.drawn_wf {w : Nat} (depth d : Nat) : (Memory.drawn d : Memory w).wf depth := by
  simp [Memory.drawn, Memory.wf]

@[simp] theorem Memory.write_draw {w : Nat} (m : Memory w) (i : Nat) (v : BitVec w) : (m.write i v).draw = m.draw := rfl

@[simp] theorem Memory.writeFrom_draw {w : Nat} (vs : List (BitVec w)) (m : Memory w) (i : Nat) :
    (m.writeFrom i vs).draw = m.draw := by
  induction vs generalizing m i with
  | nil => rfl
  | cons v vs ih => simp [Memory.writeFrom, ih]

/-- A read after a block write: the listed value inside the block, what was there before outside it. -/
theorem Memory.read_writeFrom {w : Nat} (free : Nat → Nat → BitVec w) (vs : List (BitVec w)) (m : Memory w)
    (i j : Nat) :
    (m.writeFrom i vs).read free j = if i ≤ j then (vs[j - i]?).getD (m.read free j) else m.read free j := by
  induction vs generalizing m i with
  | nil => simp [Memory.writeFrom]
  | cons v vs ih =>
    rw [Memory.writeFrom, ih, Memory.read_write]
    by_cases h : i = j
    · subst h; simp
    · by_cases hlt : i ≤ j
      · have : j - i = (j - (i + 1)) + 1 := by omega
        simp [hlt, show i + 1 ≤ j by omega, this, Ne.symm h]
      · simp [hlt, show ¬ i + 1 ≤ j by omega, Ne.symm h]

/-- An unwritten word of a fresh draw reads the free value of the draw (R82). -/
@[simp] theorem Memory.read_drawn {w : Nat} (free : Nat → Nat → BitVec w) (d i : Nat) :
    (Memory.drawn d).read free i = free d i := rfl

end Sys2Proof.Machine
end

