-- ==== Sys2Proof/Laws/State.lean ====
section
/-!
SUPPORT. What each state update leaves in each field, one lemma per field and update, so that no later proof unfolds a
record update.
-/

namespace Sys2Proof.Machine

/-! ### begin -/

@[simp] theorem State.begin_cfg (op : Command) (s : State) : (s.begin op).cfg = s.cfg := rfl
@[simp] theorem State.begin_eng (op : Command) (s : State) : (s.begin op).eng = .run op := rfl
@[simp] theorem State.begin_ie (op : Command) (s : State) : (s.begin op).ie = s.ie := rfl
@[simp] theorem State.begin_done (op : Command) (s : State) : (s.begin op).done = false := rfl
@[simp] theorem State.begin_ovr (op : Command) (s : State) : (s.begin op).ovr = s.ovr := rfl
@[simp] theorem State.begin_errCode (op : Command) (s : State) : (s.begin op).errCode = 0#4 := rfl
@[simp] theorem State.begin_errInfo (op : Command) (s : State) : (s.begin op).errInfo = 0#32 := rfl
@[simp] theorem State.begin_inLen (op : Command) (s : State) : (s.begin op).inLen = s.inLen := rfl
@[simp] theorem State.begin_packLen (op : Command) (s : State) : (s.begin op).packLen = s.packLen := rfl
@[simp] theorem State.begin_outLen (op : Command) (s : State) : (s.begin op).outLen = s.outLen := rfl
@[simp] theorem State.begin_encBits (op : Command) (s : State) : (s.begin op).encBits = s.encBits := rfl
@[simp] theorem State.begin_encPad (op : Command) (s : State) : (s.begin op).encPad = s.encPad := rfl
@[simp] theorem State.begin_tblIdx (op : Command) (s : State) : (s.begin op).tblIdx = s.tblIdx := rfl
@[simp] theorem State.begin_tv (op : Command) (s : State) : (s.begin op).tv = s.tv := rfl
@[simp] theorem State.begin_table (op : Command) (s : State) : (s.begin op).table = s.table := rfl
@[simp] theorem State.begin_symMem (op : Command) (s : State) : (s.begin op).symMem = s.symMem := rfl
@[simp] theorem State.begin_packMem (op : Command) (s : State) : (s.begin op).packMem = s.packMem := rfl
@[simp] theorem State.begin_outMem (op : Command) (s : State) : (s.begin op).outMem = s.outMem := rfl
@[simp] theorem State.begin_world (op : Command) (s : State) : (s.begin op).world = s.world := rfl
@[simp] theorem State.begin_replies (op : Command) (s : State) : (s.begin op).replies = s.replies := rfl
@[simp] theorem State.begin_wait (op : Command) (s : State) : (s.begin op).wait = s.wait := rfl
@[simp] theorem State.begin_latencies (op : Command) (s : State) : (s.begin op).latencies = s.latencies := rfl
@[simp] theorem State.begin_draws (op : Command) (s : State) : (s.begin op).draws = s.draws := rfl

/-! ### takeLatency -/

@[simp] theorem State.takeLatency_cfg (s : State) : (s.takeLatency).cfg = s.cfg := rfl
@[simp] theorem State.takeLatency_eng (s : State) : (s.takeLatency).eng = s.eng := rfl
@[simp] theorem State.takeLatency_ie (s : State) : (s.takeLatency).ie = s.ie := rfl
@[simp] theorem State.takeLatency_done (s : State) : (s.takeLatency).done = s.done := rfl
@[simp] theorem State.takeLatency_ovr (s : State) : (s.takeLatency).ovr = s.ovr := rfl
@[simp] theorem State.takeLatency_errCode (s : State) : (s.takeLatency).errCode = s.errCode := rfl
@[simp] theorem State.takeLatency_errInfo (s : State) : (s.takeLatency).errInfo = s.errInfo := rfl
@[simp] theorem State.takeLatency_inLen (s : State) : (s.takeLatency).inLen = s.inLen := rfl
@[simp] theorem State.takeLatency_packLen (s : State) : (s.takeLatency).packLen = s.packLen := rfl
@[simp] theorem State.takeLatency_outLen (s : State) : (s.takeLatency).outLen = s.outLen := rfl
@[simp] theorem State.takeLatency_encBits (s : State) : (s.takeLatency).encBits = s.encBits := rfl
@[simp] theorem State.takeLatency_encPad (s : State) : (s.takeLatency).encPad = s.encPad := rfl
@[simp] theorem State.takeLatency_tblIdx (s : State) : (s.takeLatency).tblIdx = s.tblIdx := rfl
@[simp] theorem State.takeLatency_tv (s : State) : (s.takeLatency).tv = s.tv := rfl
@[simp] theorem State.takeLatency_table (s : State) : (s.takeLatency).table = s.table := rfl
@[simp] theorem State.takeLatency_symMem (s : State) : (s.takeLatency).symMem = s.symMem := rfl
@[simp] theorem State.takeLatency_packMem (s : State) : (s.takeLatency).packMem = s.packMem := rfl
@[simp] theorem State.takeLatency_outMem (s : State) : (s.takeLatency).outMem = s.outMem := rfl
@[simp] theorem State.takeLatency_world (s : State) : (s.takeLatency).world = s.world := rfl
@[simp] theorem State.takeLatency_replies (s : State) : (s.takeLatency).replies = s.replies := rfl
@[simp] theorem State.takeLatency_wait (s : State) : (s.takeLatency).wait = s.latencies.headD 0 := rfl
@[simp] theorem State.takeLatency_latencies (s : State) : (s.takeLatency).latencies = s.latencies.tail := rfl
@[simp] theorem State.takeLatency_draws (s : State) : (s.takeLatency).draws = s.draws := rfl

/-! ### accept -/

@[simp] theorem State.accept_cfg (v : Word) (s : State) : (s.accept v).cfg = s.cfg := rfl
@[simp] theorem State.accept_eng (v : Word) (s : State) : (s.accept v).eng = .run (decodeCmd v) := rfl
@[simp] theorem State.accept_ie (v : Word) (s : State) : (s.accept v).ie = s.ie := rfl
@[simp] theorem State.accept_done (v : Word) (s : State) : (s.accept v).done = false := rfl
@[simp] theorem State.accept_ovr (v : Word) (s : State) : (s.accept v).ovr = s.ovr := rfl
@[simp] theorem State.accept_errCode (v : Word) (s : State) : (s.accept v).errCode = 0#4 := rfl
@[simp] theorem State.accept_errInfo (v : Word) (s : State) : (s.accept v).errInfo = 0#32 := rfl
@[simp] theorem State.accept_inLen (v : Word) (s : State) : (s.accept v).inLen = s.inLen := rfl
@[simp] theorem State.accept_packLen (v : Word) (s : State) : (s.accept v).packLen = s.packLen := rfl
@[simp] theorem State.accept_outLen (v : Word) (s : State) : (s.accept v).outLen = s.outLen := rfl
@[simp] theorem State.accept_encBits (v : Word) (s : State) : (s.accept v).encBits = s.encBits := rfl
@[simp] theorem State.accept_encPad (v : Word) (s : State) : (s.accept v).encPad = s.encPad := rfl
@[simp] theorem State.accept_tblIdx (v : Word) (s : State) : (s.accept v).tblIdx = s.tblIdx := rfl
@[simp] theorem State.accept_tv (v : Word) (s : State) : (s.accept v).tv = s.tv := rfl
@[simp] theorem State.accept_table (v : Word) (s : State) : (s.accept v).table = s.table := rfl
@[simp] theorem State.accept_symMem (v : Word) (s : State) : (s.accept v).symMem = s.symMem := rfl
@[simp] theorem State.accept_packMem (v : Word) (s : State) : (s.accept v).packMem = s.packMem := rfl
@[simp] theorem State.accept_outMem (v : Word) (s : State) : (s.accept v).outMem = s.outMem := rfl
@[simp] theorem State.accept_world (v : Word) (s : State) : (s.accept v).world = s.world := rfl
@[simp] theorem State.accept_replies (v : Word) (s : State) : (s.accept v).replies = s.replies := rfl
@[simp] theorem State.accept_wait (v : Word) (s : State) : (s.accept v).wait = s.latencies.headD 0 := rfl
@[simp] theorem State.accept_latencies (v : Word) (s : State) : (s.accept v).latencies = s.latencies.tail := rfl
@[simp] theorem State.accept_draws (v : Word) (s : State) : (s.accept v).draws = s.draws := rfl

/-! ### completeOk -/

@[simp] theorem State.completeOk_cfg (s : State) : (s.completeOk).cfg = s.cfg := rfl
@[simp] theorem State.completeOk_eng (s : State) : (s.completeOk).eng = .idle := rfl
@[simp] theorem State.completeOk_ie (s : State) : (s.completeOk).ie = s.ie := rfl
@[simp] theorem State.completeOk_done (s : State) : (s.completeOk).done = true := rfl
@[simp] theorem State.completeOk_ovr (s : State) : (s.completeOk).ovr = s.ovr := rfl
@[simp] theorem State.completeOk_errCode (s : State) : (s.completeOk).errCode = 0#4 := rfl
@[simp] theorem State.completeOk_errInfo (s : State) : (s.completeOk).errInfo = 0#32 := rfl
@[simp] theorem State.completeOk_inLen (s : State) : (s.completeOk).inLen = s.inLen := rfl
@[simp] theorem State.completeOk_packLen (s : State) : (s.completeOk).packLen = s.packLen := rfl
@[simp] theorem State.completeOk_outLen (s : State) : (s.completeOk).outLen = s.outLen := rfl
@[simp] theorem State.completeOk_encBits (s : State) : (s.completeOk).encBits = s.encBits := rfl
@[simp] theorem State.completeOk_encPad (s : State) : (s.completeOk).encPad = s.encPad := rfl
@[simp] theorem State.completeOk_tblIdx (s : State) : (s.completeOk).tblIdx = s.tblIdx := rfl
@[simp] theorem State.completeOk_tv (s : State) : (s.completeOk).tv = s.tv := rfl
@[simp] theorem State.completeOk_table (s : State) : (s.completeOk).table = s.table := rfl
@[simp] theorem State.completeOk_symMem (s : State) : (s.completeOk).symMem = s.symMem := rfl
@[simp] theorem State.completeOk_packMem (s : State) : (s.completeOk).packMem = s.packMem := rfl
@[simp] theorem State.completeOk_outMem (s : State) : (s.completeOk).outMem = s.outMem := rfl
@[simp] theorem State.completeOk_world (s : State) : (s.completeOk).world = s.world := rfl
@[simp] theorem State.completeOk_replies (s : State) : (s.completeOk).replies = s.replies := rfl
@[simp] theorem State.completeOk_wait (s : State) : (s.completeOk).wait = s.wait := rfl
@[simp] theorem State.completeOk_latencies (s : State) : (s.completeOk).latencies = s.latencies := rfl
@[simp] theorem State.completeOk_draws (s : State) : (s.completeOk).draws = s.draws := rfl

/-! ### completeRaised -/

@[simp] theorem State.completeRaised_cfg (e : Raised) (s : State) : (s.completeRaised e).cfg = s.cfg := rfl
@[simp] theorem State.completeRaised_eng (e : Raised) (s : State) : (s.completeRaised e).eng = .idle := rfl
@[simp] theorem State.completeRaised_ie (e : Raised) (s : State) : (s.completeRaised e).ie = s.ie := rfl
@[simp] theorem State.completeRaised_done (e : Raised) (s : State) : (s.completeRaised e).done = true := rfl
@[simp] theorem State.completeRaised_ovr (e : Raised) (s : State) : (s.completeRaised e).ovr = s.ovr := rfl
@[simp] theorem State.completeRaised_errCode (e : Raised) (s : State) : (s.completeRaised e).errCode = e.cause.code := rfl
@[simp] theorem State.completeRaised_errInfo (e : Raised) (s : State) : (s.completeRaised e).errInfo = e.info := rfl
@[simp] theorem State.completeRaised_inLen (e : Raised) (s : State) : (s.completeRaised e).inLen = s.inLen := rfl
@[simp] theorem State.completeRaised_packLen (e : Raised) (s : State) : (s.completeRaised e).packLen = s.packLen := rfl
@[simp] theorem State.completeRaised_outLen (e : Raised) (s : State) : (s.completeRaised e).outLen = s.outLen := rfl
@[simp] theorem State.completeRaised_encBits (e : Raised) (s : State) : (s.completeRaised e).encBits = s.encBits := rfl
@[simp] theorem State.completeRaised_encPad (e : Raised) (s : State) : (s.completeRaised e).encPad = s.encPad := rfl
@[simp] theorem State.completeRaised_tblIdx (e : Raised) (s : State) : (s.completeRaised e).tblIdx = s.tblIdx := rfl
@[simp] theorem State.completeRaised_tv (e : Raised) (s : State) : (s.completeRaised e).tv = s.tv := rfl
@[simp] theorem State.completeRaised_table (e : Raised) (s : State) : (s.completeRaised e).table = s.table := rfl
@[simp] theorem State.completeRaised_symMem (e : Raised) (s : State) : (s.completeRaised e).symMem = s.symMem := rfl
@[simp] theorem State.completeRaised_packMem (e : Raised) (s : State) : (s.completeRaised e).packMem = s.packMem := rfl
@[simp] theorem State.completeRaised_outMem (e : Raised) (s : State) : (s.completeRaised e).outMem = s.outMem := rfl
@[simp] theorem State.completeRaised_world (e : Raised) (s : State) : (s.completeRaised e).world = s.world := rfl
@[simp] theorem State.completeRaised_replies (e : Raised) (s : State) : (s.completeRaised e).replies = s.replies := rfl
@[simp] theorem State.completeRaised_wait (e : Raised) (s : State) : (s.completeRaised e).wait = s.wait := rfl
@[simp] theorem State.completeRaised_latencies (e : Raised) (s : State) : (s.completeRaised e).latencies = s.latencies := rfl
@[simp] theorem State.completeRaised_draws (e : Raised) (s : State) : (s.completeRaised e).draws = s.draws := rfl

/-! ### acknowledge -/

@[simp] theorem State.acknowledge_cfg (s : State) : (s.acknowledge).cfg = s.cfg := rfl
@[simp] theorem State.acknowledge_eng (s : State) : (s.acknowledge).eng = s.eng := rfl
@[simp] theorem State.acknowledge_ie (s : State) : (s.acknowledge).ie = s.ie := rfl
@[simp] theorem State.acknowledge_done (s : State) : (s.acknowledge).done = false := rfl
@[simp] theorem State.acknowledge_ovr (s : State) : (s.acknowledge).ovr = s.ovr := rfl
@[simp] theorem State.acknowledge_errCode (s : State) : (s.acknowledge).errCode = s.errCode := rfl
@[simp] theorem State.acknowledge_errInfo (s : State) : (s.acknowledge).errInfo = s.errInfo := rfl
@[simp] theorem State.acknowledge_inLen (s : State) : (s.acknowledge).inLen = s.inLen := rfl
@[simp] theorem State.acknowledge_packLen (s : State) : (s.acknowledge).packLen = s.packLen := rfl
@[simp] theorem State.acknowledge_outLen (s : State) : (s.acknowledge).outLen = s.outLen := rfl
@[simp] theorem State.acknowledge_encBits (s : State) : (s.acknowledge).encBits = s.encBits := rfl
@[simp] theorem State.acknowledge_encPad (s : State) : (s.acknowledge).encPad = s.encPad := rfl
@[simp] theorem State.acknowledge_tblIdx (s : State) : (s.acknowledge).tblIdx = s.tblIdx := rfl
@[simp] theorem State.acknowledge_tv (s : State) : (s.acknowledge).tv = s.tv := rfl
@[simp] theorem State.acknowledge_table (s : State) : (s.acknowledge).table = s.table := rfl
@[simp] theorem State.acknowledge_symMem (s : State) : (s.acknowledge).symMem = s.symMem := rfl
@[simp] theorem State.acknowledge_packMem (s : State) : (s.acknowledge).packMem = s.packMem := rfl
@[simp] theorem State.acknowledge_outMem (s : State) : (s.acknowledge).outMem = s.outMem := rfl
@[simp] theorem State.acknowledge_world (s : State) : (s.acknowledge).world = s.world := rfl
@[simp] theorem State.acknowledge_replies (s : State) : (s.acknowledge).replies = s.replies := rfl
@[simp] theorem State.acknowledge_wait (s : State) : (s.acknowledge).wait = s.wait := rfl
@[simp] theorem State.acknowledge_latencies (s : State) : (s.acknowledge).latencies = s.latencies := rfl
@[simp] theorem State.acknowledge_draws (s : State) : (s.acknowledge).draws = s.draws := rfl

/-! ### drawOutMem -/

@[simp] theorem State.drawOutMem_cfg (s : State) : (s.drawOutMem).cfg = s.cfg := rfl
@[simp] theorem State.drawOutMem_eng (s : State) : (s.drawOutMem).eng = s.eng := rfl
@[simp] theorem State.drawOutMem_ie (s : State) : (s.drawOutMem).ie = s.ie := rfl
@[simp] theorem State.drawOutMem_done (s : State) : (s.drawOutMem).done = s.done := rfl
@[simp] theorem State.drawOutMem_ovr (s : State) : (s.drawOutMem).ovr = s.ovr := rfl
@[simp] theorem State.drawOutMem_errCode (s : State) : (s.drawOutMem).errCode = s.errCode := rfl
@[simp] theorem State.drawOutMem_errInfo (s : State) : (s.drawOutMem).errInfo = s.errInfo := rfl
@[simp] theorem State.drawOutMem_inLen (s : State) : (s.drawOutMem).inLen = s.inLen := rfl
@[simp] theorem State.drawOutMem_packLen (s : State) : (s.drawOutMem).packLen = s.packLen := rfl
@[simp] theorem State.drawOutMem_outLen (s : State) : (s.drawOutMem).outLen = s.outLen := rfl
@[simp] theorem State.drawOutMem_encBits (s : State) : (s.drawOutMem).encBits = s.encBits := rfl
@[simp] theorem State.drawOutMem_encPad (s : State) : (s.drawOutMem).encPad = s.encPad := rfl
@[simp] theorem State.drawOutMem_tblIdx (s : State) : (s.drawOutMem).tblIdx = s.tblIdx := rfl
@[simp] theorem State.drawOutMem_tv (s : State) : (s.drawOutMem).tv = s.tv := rfl
@[simp] theorem State.drawOutMem_table (s : State) : (s.drawOutMem).table = s.table := rfl
@[simp] theorem State.drawOutMem_symMem (s : State) : (s.drawOutMem).symMem = s.symMem := rfl
@[simp] theorem State.drawOutMem_packMem (s : State) : (s.drawOutMem).packMem = s.packMem := rfl
@[simp] theorem State.drawOutMem_outMem (s : State) : (s.drawOutMem).outMem = Memory.drawn s.draws := rfl
@[simp] theorem State.drawOutMem_world (s : State) : (s.drawOutMem).world = s.world := rfl
@[simp] theorem State.drawOutMem_replies (s : State) : (s.drawOutMem).replies = s.replies := rfl
@[simp] theorem State.drawOutMem_wait (s : State) : (s.drawOutMem).wait = s.wait := rfl
@[simp] theorem State.drawOutMem_latencies (s : State) : (s.drawOutMem).latencies = s.latencies := rfl
@[simp] theorem State.drawOutMem_draws (s : State) : (s.drawOutMem).draws = s.draws + 1 := rfl

/-! ### resetBlock -/

@[simp] theorem State.resetBlock_cfg (s : State) : (s.resetBlock).cfg = s.cfg := rfl
@[simp] theorem State.resetBlock_eng (s : State) : (s.resetBlock).eng = .idle := rfl
@[simp] theorem State.resetBlock_ie (s : State) : (s.resetBlock).ie = false := rfl
@[simp] theorem State.resetBlock_done (s : State) : (s.resetBlock).done = false := rfl
@[simp] theorem State.resetBlock_ovr (s : State) : (s.resetBlock).ovr = false := rfl
@[simp] theorem State.resetBlock_errCode (s : State) : (s.resetBlock).errCode = 0 := rfl
@[simp] theorem State.resetBlock_errInfo (s : State) : (s.resetBlock).errInfo = 0 := rfl
@[simp] theorem State.resetBlock_inLen (s : State) : (s.resetBlock).inLen = 0 := rfl
@[simp] theorem State.resetBlock_packLen (s : State) : (s.resetBlock).packLen = 0 := rfl
@[simp] theorem State.resetBlock_outLen (s : State) : (s.resetBlock).outLen = 0 := rfl
@[simp] theorem State.resetBlock_encBits (s : State) : (s.resetBlock).encBits = 0 := rfl
@[simp] theorem State.resetBlock_encPad (s : State) : (s.resetBlock).encPad = 0 := rfl
@[simp] theorem State.resetBlock_tblIdx (s : State) : (s.resetBlock).tblIdx = 0 := rfl
@[simp] theorem State.resetBlock_tv (s : State) : (s.resetBlock).tv = false := rfl
@[simp] theorem State.resetBlock_table (s : State) : (s.resetBlock).table = [] := rfl
@[simp] theorem State.resetBlock_symMem (s : State) : (s.resetBlock).symMem = Memory.drawn s.draws := rfl
@[simp] theorem State.resetBlock_packMem (s : State) : (s.resetBlock).packMem = Memory.drawn s.draws := rfl
@[simp] theorem State.resetBlock_outMem (s : State) : (s.resetBlock).outMem = Memory.drawn s.draws := rfl
@[simp] theorem State.resetBlock_world (s : State) : (s.resetBlock).world = s.world := rfl
@[simp] theorem State.resetBlock_replies (s : State) : (s.resetBlock).replies = s.replies := rfl
@[simp] theorem State.resetBlock_wait (s : State) : (s.resetBlock).wait = 0 := rfl
@[simp] theorem State.resetBlock_latencies (s : State) : (s.resetBlock).latencies = s.latencies := rfl
@[simp] theorem State.resetBlock_draws (s : State) : (s.resetBlock).draws = s.draws + 1 := rfl

/-! ### writeCtrl -/

@[simp] theorem State.writeCtrl_cfg (v : Word) (s : State) : (s.writeCtrl v).cfg = s.cfg := rfl
@[simp] theorem State.writeCtrl_eng (v : Word) (s : State) : (s.writeCtrl v).eng = s.eng := rfl
@[simp] theorem State.writeCtrl_ie (v : Word) (s : State) : (s.writeCtrl v).ie = v.getLsbD 0 := rfl
@[simp] theorem State.writeCtrl_done (v : Word) (s : State) : (s.writeCtrl v).done = s.done := rfl
@[simp] theorem State.writeCtrl_ovr (v : Word) (s : State) : (s.writeCtrl v).ovr = s.ovr := rfl
@[simp] theorem State.writeCtrl_errCode (v : Word) (s : State) : (s.writeCtrl v).errCode = s.errCode := rfl
@[simp] theorem State.writeCtrl_errInfo (v : Word) (s : State) : (s.writeCtrl v).errInfo = s.errInfo := rfl
@[simp] theorem State.writeCtrl_inLen (v : Word) (s : State) : (s.writeCtrl v).inLen = s.inLen := rfl
@[simp] theorem State.writeCtrl_packLen (v : Word) (s : State) : (s.writeCtrl v).packLen = s.packLen := rfl
@[simp] theorem State.writeCtrl_outLen (v : Word) (s : State) : (s.writeCtrl v).outLen = s.outLen := rfl
@[simp] theorem State.writeCtrl_encBits (v : Word) (s : State) : (s.writeCtrl v).encBits = s.encBits := rfl
@[simp] theorem State.writeCtrl_encPad (v : Word) (s : State) : (s.writeCtrl v).encPad = s.encPad := rfl
@[simp] theorem State.writeCtrl_tblIdx (v : Word) (s : State) : (s.writeCtrl v).tblIdx = s.tblIdx := rfl
@[simp] theorem State.writeCtrl_tv (v : Word) (s : State) : (s.writeCtrl v).tv = s.tv := rfl
@[simp] theorem State.writeCtrl_table (v : Word) (s : State) : (s.writeCtrl v).table = s.table := rfl
@[simp] theorem State.writeCtrl_symMem (v : Word) (s : State) : (s.writeCtrl v).symMem = s.symMem := rfl
@[simp] theorem State.writeCtrl_packMem (v : Word) (s : State) : (s.writeCtrl v).packMem = s.packMem := rfl
@[simp] theorem State.writeCtrl_outMem (v : Word) (s : State) : (s.writeCtrl v).outMem = s.outMem := rfl
@[simp] theorem State.writeCtrl_world (v : Word) (s : State) : (s.writeCtrl v).world = s.world := rfl
@[simp] theorem State.writeCtrl_replies (v : Word) (s : State) : (s.writeCtrl v).replies = s.replies := rfl
@[simp] theorem State.writeCtrl_wait (v : Word) (s : State) : (s.writeCtrl v).wait = s.wait := rfl
@[simp] theorem State.writeCtrl_latencies (v : Word) (s : State) : (s.writeCtrl v).latencies = s.latencies := rfl
@[simp] theorem State.writeCtrl_draws (v : Word) (s : State) : (s.writeCtrl v).draws = s.draws := rfl

/-! ### commitClear -/

@[simp] theorem State.commitClear_cfg (s : State) : (s.commitClear).cfg = s.cfg := rfl
@[simp] theorem State.commitClear_eng (s : State) : (s.commitClear).eng = s.eng := rfl
@[simp] theorem State.commitClear_ie (s : State) : (s.commitClear).ie = s.ie := rfl
@[simp] theorem State.commitClear_done (s : State) : (s.commitClear).done = s.done := rfl
@[simp] theorem State.commitClear_ovr (s : State) : (s.commitClear).ovr = s.ovr := rfl
@[simp] theorem State.commitClear_errCode (s : State) : (s.commitClear).errCode = s.errCode := rfl
@[simp] theorem State.commitClear_errInfo (s : State) : (s.commitClear).errInfo = s.errInfo := rfl
@[simp] theorem State.commitClear_inLen (s : State) : (s.commitClear).inLen = s.inLen := rfl
@[simp] theorem State.commitClear_packLen (s : State) : (s.commitClear).packLen = 0#32 := rfl
@[simp] theorem State.commitClear_outLen (s : State) : (s.commitClear).outLen = 0#32 := rfl
@[simp] theorem State.commitClear_encBits (s : State) : (s.commitClear).encBits = 0#32 := rfl
@[simp] theorem State.commitClear_encPad (s : State) : (s.commitClear).encPad = 0#4 := rfl
@[simp] theorem State.commitClear_tblIdx (s : State) : (s.commitClear).tblIdx = s.tblIdx := rfl
@[simp] theorem State.commitClear_tv (s : State) : (s.commitClear).tv = false := rfl
@[simp] theorem State.commitClear_table (s : State) : (s.commitClear).table = [] := rfl
@[simp] theorem State.commitClear_symMem (s : State) : (s.commitClear).symMem = s.symMem := rfl
@[simp] theorem State.commitClear_packMem (s : State) : (s.commitClear).packMem = s.packMem := rfl
@[simp] theorem State.commitClear_outMem (s : State) : (s.commitClear).outMem = s.outMem := rfl
@[simp] theorem State.commitClear_world (s : State) : (s.commitClear).world = s.world := rfl
@[simp] theorem State.commitClear_replies (s : State) : (s.commitClear).replies = s.replies := rfl
@[simp] theorem State.commitClear_wait (s : State) : (s.commitClear).wait = s.wait := rfl
@[simp] theorem State.commitClear_latencies (s : State) : (s.commitClear).latencies = s.latencies := rfl
@[simp] theorem State.commitClear_draws (s : State) : (s.commitClear).draws = s.draws := rfl

/-! ### commitEncoded -/

@[simp] theorem State.commitEncoded_cfg (r : Encoded) (s : State) : (s.commitEncoded r).cfg = s.cfg := rfl
@[simp] theorem State.commitEncoded_eng (r : Encoded) (s : State) : (s.commitEncoded r).eng = s.eng := rfl
@[simp] theorem State.commitEncoded_ie (r : Encoded) (s : State) : (s.commitEncoded r).ie = s.ie := rfl
@[simp] theorem State.commitEncoded_done (r : Encoded) (s : State) : (s.commitEncoded r).done = s.done := rfl
@[simp] theorem State.commitEncoded_ovr (r : Encoded) (s : State) : (s.commitEncoded r).ovr = s.ovr := rfl
@[simp] theorem State.commitEncoded_errCode (r : Encoded) (s : State) : (s.commitEncoded r).errCode = s.errCode := rfl
@[simp] theorem State.commitEncoded_errInfo (r : Encoded) (s : State) : (s.commitEncoded r).errInfo = s.errInfo := rfl
@[simp] theorem State.commitEncoded_inLen (r : Encoded) (s : State) : (s.commitEncoded r).inLen = s.inLen := rfl
@[simp] theorem State.commitEncoded_packLen (r : Encoded) (s : State) : (s.commitEncoded r).packLen = BitVec.ofNat 32 (artifactLength r.rawBits) := rfl
@[simp] theorem State.commitEncoded_outLen (r : Encoded) (s : State) : (s.commitEncoded r).outLen = s.outLen := rfl
@[simp] theorem State.commitEncoded_encBits (r : Encoded) (s : State) : (s.commitEncoded r).encBits = BitVec.ofNat 32 r.rawBits := rfl
@[simp] theorem State.commitEncoded_encPad (r : Encoded) (s : State) : (s.commitEncoded r).encPad = BitVec.ofNat 4 r.pad := rfl
@[simp] theorem State.commitEncoded_tblIdx (r : Encoded) (s : State) : (s.commitEncoded r).tblIdx = s.tblIdx := rfl
@[simp] theorem State.commitEncoded_tv (r : Encoded) (s : State) : (s.commitEncoded r).tv = true := rfl
@[simp] theorem State.commitEncoded_table (r : Encoded) (s : State) : (s.commitEncoded r).table = r.table := rfl
@[simp] theorem State.commitEncoded_symMem (r : Encoded) (s : State) : (s.commitEncoded r).symMem = s.symMem := rfl
@[simp] theorem State.commitEncoded_packMem (r : Encoded) (s : State) : (s.commitEncoded r).packMem = s.packMem.writeFrom 0 r.bytes := rfl
@[simp] theorem State.commitEncoded_outMem (r : Encoded) (s : State) : (s.commitEncoded r).outMem = s.outMem := rfl
@[simp] theorem State.commitEncoded_world (r : Encoded) (s : State) : (s.commitEncoded r).world = s.world := rfl
@[simp] theorem State.commitEncoded_replies (r : Encoded) (s : State) : (s.commitEncoded r).replies = s.replies := rfl
@[simp] theorem State.commitEncoded_wait (r : Encoded) (s : State) : (s.commitEncoded r).wait = s.wait := rfl
@[simp] theorem State.commitEncoded_latencies (r : Encoded) (s : State) : (s.commitEncoded r).latencies = s.latencies := rfl
@[simp] theorem State.commitEncoded_draws (r : Encoded) (s : State) : (s.commitEncoded r).draws = s.draws := rfl

/-! ### commitEncodeError -/

@[simp] theorem State.commitEncodeError_cfg (s : State) : (s.commitEncodeError).cfg = s.cfg := rfl
@[simp] theorem State.commitEncodeError_eng (s : State) : (s.commitEncodeError).eng = s.eng := rfl
@[simp] theorem State.commitEncodeError_ie (s : State) : (s.commitEncodeError).ie = s.ie := rfl
@[simp] theorem State.commitEncodeError_done (s : State) : (s.commitEncodeError).done = s.done := rfl
@[simp] theorem State.commitEncodeError_ovr (s : State) : (s.commitEncodeError).ovr = s.ovr := rfl
@[simp] theorem State.commitEncodeError_errCode (s : State) : (s.commitEncodeError).errCode = s.errCode := rfl
@[simp] theorem State.commitEncodeError_errInfo (s : State) : (s.commitEncodeError).errInfo = s.errInfo := rfl
@[simp] theorem State.commitEncodeError_inLen (s : State) : (s.commitEncodeError).inLen = s.inLen := rfl
@[simp] theorem State.commitEncodeError_packLen (s : State) : (s.commitEncodeError).packLen = 0#32 := rfl
@[simp] theorem State.commitEncodeError_outLen (s : State) : (s.commitEncodeError).outLen = s.outLen := rfl
@[simp] theorem State.commitEncodeError_encBits (s : State) : (s.commitEncodeError).encBits = 0#32 := rfl
@[simp] theorem State.commitEncodeError_encPad (s : State) : (s.commitEncodeError).encPad = 0#4 := rfl
@[simp] theorem State.commitEncodeError_tblIdx (s : State) : (s.commitEncodeError).tblIdx = s.tblIdx := rfl
@[simp] theorem State.commitEncodeError_tv (s : State) : (s.commitEncodeError).tv = false := rfl
@[simp] theorem State.commitEncodeError_table (s : State) : (s.commitEncodeError).table = [] := rfl
@[simp] theorem State.commitEncodeError_symMem (s : State) : (s.commitEncodeError).symMem = s.symMem := rfl
@[simp] theorem State.commitEncodeError_packMem (s : State) : (s.commitEncodeError).packMem = s.packMem := rfl
@[simp] theorem State.commitEncodeError_outMem (s : State) : (s.commitEncodeError).outMem = s.outMem := rfl
@[simp] theorem State.commitEncodeError_world (s : State) : (s.commitEncodeError).world = s.world := rfl
@[simp] theorem State.commitEncodeError_replies (s : State) : (s.commitEncodeError).replies = s.replies := rfl
@[simp] theorem State.commitEncodeError_wait (s : State) : (s.commitEncodeError).wait = s.wait := rfl
@[simp] theorem State.commitEncodeError_latencies (s : State) : (s.commitEncodeError).latencies = s.latencies := rfl
@[simp] theorem State.commitEncodeError_draws (s : State) : (s.commitEncodeError).draws = s.draws := rfl

/-! ### commitDecoded -/

@[simp] theorem State.commitDecoded_cfg (out : List Sym) (s : State) : (s.commitDecoded out).cfg = s.cfg := rfl
@[simp] theorem State.commitDecoded_eng (out : List Sym) (s : State) : (s.commitDecoded out).eng = s.eng := rfl
@[simp] theorem State.commitDecoded_ie (out : List Sym) (s : State) : (s.commitDecoded out).ie = s.ie := rfl
@[simp] theorem State.commitDecoded_done (out : List Sym) (s : State) : (s.commitDecoded out).done = s.done := rfl
@[simp] theorem State.commitDecoded_ovr (out : List Sym) (s : State) : (s.commitDecoded out).ovr = s.ovr := rfl
@[simp] theorem State.commitDecoded_errCode (out : List Sym) (s : State) : (s.commitDecoded out).errCode = s.errCode := rfl
@[simp] theorem State.commitDecoded_errInfo (out : List Sym) (s : State) : (s.commitDecoded out).errInfo = s.errInfo := rfl
@[simp] theorem State.commitDecoded_inLen (out : List Sym) (s : State) : (s.commitDecoded out).inLen = s.inLen := rfl
@[simp] theorem State.commitDecoded_packLen (out : List Sym) (s : State) : (s.commitDecoded out).packLen = s.packLen := rfl
@[simp] theorem State.commitDecoded_outLen (out : List Sym) (s : State) : (s.commitDecoded out).outLen = BitVec.ofNat 32 out.length := rfl
@[simp] theorem State.commitDecoded_encBits (out : List Sym) (s : State) : (s.commitDecoded out).encBits = s.encBits := rfl
@[simp] theorem State.commitDecoded_encPad (out : List Sym) (s : State) : (s.commitDecoded out).encPad = s.encPad := rfl
@[simp] theorem State.commitDecoded_tblIdx (out : List Sym) (s : State) : (s.commitDecoded out).tblIdx = s.tblIdx := rfl
@[simp] theorem State.commitDecoded_tv (out : List Sym) (s : State) : (s.commitDecoded out).tv = s.tv := rfl
@[simp] theorem State.commitDecoded_table (out : List Sym) (s : State) : (s.commitDecoded out).table = s.table := rfl
@[simp] theorem State.commitDecoded_symMem (out : List Sym) (s : State) : (s.commitDecoded out).symMem = s.symMem := rfl
@[simp] theorem State.commitDecoded_packMem (out : List Sym) (s : State) : (s.commitDecoded out).packMem = s.packMem := rfl
@[simp] theorem State.commitDecoded_outMem (out : List Sym) (s : State) : (s.commitDecoded out).outMem = s.outMem.writeFrom 0 out := rfl
@[simp] theorem State.commitDecoded_world (out : List Sym) (s : State) : (s.commitDecoded out).world = s.world := rfl
@[simp] theorem State.commitDecoded_replies (out : List Sym) (s : State) : (s.commitDecoded out).replies = s.replies := rfl
@[simp] theorem State.commitDecoded_wait (out : List Sym) (s : State) : (s.commitDecoded out).wait = s.wait := rfl
@[simp] theorem State.commitDecoded_latencies (out : List Sym) (s : State) : (s.commitDecoded out).latencies = s.latencies := rfl
@[simp] theorem State.commitDecoded_draws (out : List Sym) (s : State) : (s.commitDecoded out).draws = s.draws := rfl

/-! ### commitDecodeError -/

@[simp] theorem State.commitDecodeError_cfg (s : State) : (s.commitDecodeError).cfg = s.cfg := rfl
@[simp] theorem State.commitDecodeError_eng (s : State) : (s.commitDecodeError).eng = s.eng := rfl
@[simp] theorem State.commitDecodeError_ie (s : State) : (s.commitDecodeError).ie = s.ie := rfl
@[simp] theorem State.commitDecodeError_done (s : State) : (s.commitDecodeError).done = s.done := rfl
@[simp] theorem State.commitDecodeError_ovr (s : State) : (s.commitDecodeError).ovr = s.ovr := rfl
@[simp] theorem State.commitDecodeError_errCode (s : State) : (s.commitDecodeError).errCode = s.errCode := rfl
@[simp] theorem State.commitDecodeError_errInfo (s : State) : (s.commitDecodeError).errInfo = s.errInfo := rfl
@[simp] theorem State.commitDecodeError_inLen (s : State) : (s.commitDecodeError).inLen = s.inLen := rfl
@[simp] theorem State.commitDecodeError_packLen (s : State) : (s.commitDecodeError).packLen = s.packLen := rfl
@[simp] theorem State.commitDecodeError_outLen (s : State) : (s.commitDecodeError).outLen = 0#32 := rfl
@[simp] theorem State.commitDecodeError_encBits (s : State) : (s.commitDecodeError).encBits = s.encBits := rfl
@[simp] theorem State.commitDecodeError_encPad (s : State) : (s.commitDecodeError).encPad = s.encPad := rfl
@[simp] theorem State.commitDecodeError_tblIdx (s : State) : (s.commitDecodeError).tblIdx = s.tblIdx := rfl
@[simp] theorem State.commitDecodeError_tv (s : State) : (s.commitDecodeError).tv = s.tv := rfl
@[simp] theorem State.commitDecodeError_table (s : State) : (s.commitDecodeError).table = s.table := rfl
@[simp] theorem State.commitDecodeError_symMem (s : State) : (s.commitDecodeError).symMem = s.symMem := rfl
@[simp] theorem State.commitDecodeError_packMem (s : State) : (s.commitDecodeError).packMem = s.packMem := rfl
@[simp] theorem State.commitDecodeError_outMem (s : State) : (s.commitDecodeError).outMem = s.outMem := rfl
@[simp] theorem State.commitDecodeError_world (s : State) : (s.commitDecodeError).world = s.world := rfl
@[simp] theorem State.commitDecodeError_replies (s : State) : (s.commitDecodeError).replies = s.replies := rfl
@[simp] theorem State.commitDecodeError_wait (s : State) : (s.commitDecodeError).wait = s.wait := rfl
@[simp] theorem State.commitDecodeError_latencies (s : State) : (s.commitDecodeError).latencies = s.latencies := rfl
@[simp] theorem State.commitDecodeError_draws (s : State) : (s.commitDecodeError).draws = s.draws := rfl

/-! ### commitWalkError -/

@[simp] theorem State.commitWalkError_cfg (s : State) : (s.commitWalkError).cfg = s.cfg := rfl
@[simp] theorem State.commitWalkError_eng (s : State) : (s.commitWalkError).eng = s.eng := rfl
@[simp] theorem State.commitWalkError_ie (s : State) : (s.commitWalkError).ie = s.ie := rfl
@[simp] theorem State.commitWalkError_done (s : State) : (s.commitWalkError).done = s.done := rfl
@[simp] theorem State.commitWalkError_ovr (s : State) : (s.commitWalkError).ovr = s.ovr := rfl
@[simp] theorem State.commitWalkError_errCode (s : State) : (s.commitWalkError).errCode = s.errCode := rfl
@[simp] theorem State.commitWalkError_errInfo (s : State) : (s.commitWalkError).errInfo = s.errInfo := rfl
@[simp] theorem State.commitWalkError_inLen (s : State) : (s.commitWalkError).inLen = s.inLen := rfl
@[simp] theorem State.commitWalkError_packLen (s : State) : (s.commitWalkError).packLen = s.packLen := rfl
@[simp] theorem State.commitWalkError_outLen (s : State) : (s.commitWalkError).outLen = 0#32 := rfl
@[simp] theorem State.commitWalkError_encBits (s : State) : (s.commitWalkError).encBits = s.encBits := rfl
@[simp] theorem State.commitWalkError_encPad (s : State) : (s.commitWalkError).encPad = s.encPad := rfl
@[simp] theorem State.commitWalkError_tblIdx (s : State) : (s.commitWalkError).tblIdx = s.tblIdx := rfl
@[simp] theorem State.commitWalkError_tv (s : State) : (s.commitWalkError).tv = s.tv := rfl
@[simp] theorem State.commitWalkError_table (s : State) : (s.commitWalkError).table = s.table := rfl
@[simp] theorem State.commitWalkError_symMem (s : State) : (s.commitWalkError).symMem = s.symMem := rfl
@[simp] theorem State.commitWalkError_packMem (s : State) : (s.commitWalkError).packMem = s.packMem := rfl
@[simp] theorem State.commitWalkError_outMem (s : State) : (s.commitWalkError).outMem = Memory.drawn s.draws := rfl
@[simp] theorem State.commitWalkError_world (s : State) : (s.commitWalkError).world = s.world := rfl
@[simp] theorem State.commitWalkError_replies (s : State) : (s.commitWalkError).replies = s.replies := rfl
@[simp] theorem State.commitWalkError_wait (s : State) : (s.commitWalkError).wait = s.wait := rfl
@[simp] theorem State.commitWalkError_latencies (s : State) : (s.commitWalkError).latencies = s.latencies := rfl
@[simp] theorem State.commitWalkError_draws (s : State) : (s.commitWalkError).draws = s.draws + 1 := rfl

/-! ### hostRead -/

@[simp] theorem State.hostRead_cfg (a : Addr) (s : State) : (s.hostRead a).cfg = s.cfg := rfl
@[simp] theorem State.hostRead_eng (a : Addr) (s : State) : (s.hostRead a).eng = s.eng := rfl
@[simp] theorem State.hostRead_ie (a : Addr) (s : State) : (s.hostRead a).ie = s.ie := rfl
@[simp] theorem State.hostRead_done (a : Addr) (s : State) : (s.hostRead a).done = s.done := rfl
@[simp] theorem State.hostRead_ovr (a : Addr) (s : State) : (s.hostRead a).ovr = s.ovr := rfl
@[simp] theorem State.hostRead_errCode (a : Addr) (s : State) : (s.hostRead a).errCode = s.errCode := rfl
@[simp] theorem State.hostRead_errInfo (a : Addr) (s : State) : (s.hostRead a).errInfo = s.errInfo := rfl
@[simp] theorem State.hostRead_inLen (a : Addr) (s : State) : (s.hostRead a).inLen = s.inLen := rfl
@[simp] theorem State.hostRead_packLen (a : Addr) (s : State) : (s.hostRead a).packLen = s.packLen := rfl
@[simp] theorem State.hostRead_outLen (a : Addr) (s : State) : (s.hostRead a).outLen = s.outLen := rfl
@[simp] theorem State.hostRead_encBits (a : Addr) (s : State) : (s.hostRead a).encBits = s.encBits := rfl
@[simp] theorem State.hostRead_encPad (a : Addr) (s : State) : (s.hostRead a).encPad = s.encPad := rfl
@[simp] theorem State.hostRead_tblIdx (a : Addr) (s : State) : (s.hostRead a).tblIdx = s.tblIdx := rfl
@[simp] theorem State.hostRead_tv (a : Addr) (s : State) : (s.hostRead a).tv = s.tv := rfl
@[simp] theorem State.hostRead_table (a : Addr) (s : State) : (s.hostRead a).table = s.table := rfl
@[simp] theorem State.hostRead_symMem (a : Addr) (s : State) : (s.hostRead a).symMem = s.symMem := rfl
@[simp] theorem State.hostRead_packMem (a : Addr) (s : State) : (s.hostRead a).packMem = s.packMem := rfl
@[simp] theorem State.hostRead_outMem (a : Addr) (s : State) : (s.hostRead a).outMem = s.outMem := rfl
@[simp] theorem State.hostRead_world (a : Addr) (s : State) : (s.hostRead a).world = s.world := rfl
@[simp] theorem State.hostRead_replies (a : Addr) (s : State) : (s.hostRead a).replies = s.busRead a :: s.replies := rfl
@[simp] theorem State.hostRead_wait (a : Addr) (s : State) : (s.hostRead a).wait = s.wait := rfl
@[simp] theorem State.hostRead_latencies (a : Addr) (s : State) : (s.hostRead a).latencies = s.latencies := rfl
@[simp] theorem State.hostRead_draws (a : Addr) (s : State) : (s.hostRead a).draws = s.draws := rfl

end Sys2Proof.Machine
end

