-- ==== Sys2Proof/Laws/Walk.lean ====
section
/-!
SUPPORT. What the decoder's walk does on codes, on concatenations of codes and on anything else (42_decode.md R147-R151, R155,
R160).
-/

namespace Sys2Proof.Machine

/-! ### The walk -/

theorem matchCode_mem {entries : List Entry} (hn : (entries.map (·.code)).Nodup) {e : Entry} (he : e ∈ entries) :
    matchCode entries e.code = some e := by
  cases h : matchCode entries e.code with
  | none =>
    simp only [matchCode, List.find?_eq_none] at h
    exact absurd (h e he) (by simp)
  | some d =>
    have hd := List.mem_of_find?_eq_some h
    have hc : d.code = e.code := by simpa using List.find?_some h
    rw [List.inj_on_of_nodup_map hn hd he hc]

theorem beginsCode_iff {entries : List Entry} {buf : Bits} :
    beginsCode entries buf = true ↔ ∃ e ∈ entries, buf <+: e.code ∧ buf.length < e.code.length := by
  simp [beginsCode, List.any_eq_true]

/-- In prefix-free codes, two entries of which one's code is a prefix of the other's have the same code. -/
theorem codesPrefixFree.eq_of_prefix {entries : List Entry} (hf : codesPrefixFree (entries.map (·.code)))
    {d e : Entry} (hd : d ∈ entries) (he : e ∈ entries) (h : d.code <+: e.code) : d.code = e.code := by
  obtain ⟨i, hi, rfl⟩ := List.mem_iff_getElem.1 hd
  obtain ⟨j, hj, rfl⟩ := List.mem_iff_getElem.1 he
  have hp := List.pairwise_iff_getElem.1 (List.pairwise_map.1 hf)
  rcases Nat.lt_trichotomy i j with hlt | rfl | hlt
  · exact absurd h (hp i j hi hj hlt).1
  · rfl
  · exact absurd h (hp j i hj hi hlt).2

theorem matchCode_none {entries : List Entry} {buf : Bits} :
    matchCode entries buf = none ↔ ∀ e ∈ entries, e.code ≠ buf := by
  simp [matchCode, List.find?_eq_none]

/-- The walk over the rest `v` of a code of which the buffer holds the beginning `u`: the entry's symbol is output at
its last bit, or does not fit (R147-R150). -/
theorem walk_rest_of_code {entries : List Entry} (hf : codesPrefixFree (entries.map (·.code))) {e : Entry}
    (he : e ∈ entries) (outMax : Nat) (rest : Bits) (out : List Sym) (v u : Bits) (hv : v ≠ []) (huv : u ++ v = e.code) :
    walk entries outMax (v ++ rest) u out =
      if out.length = outMax then .error { cause := .outputCapacity, info := BitVec.ofNat 32 outMax }
      else walk entries outMax rest [] (out ++ [e.sym]) := by
  induction v generalizing u with
  | nil => exact absurd rfl hv
  | cons b v ih =>
    have hu : (u ++ [b]) ++ v = e.code := by simpa using huv
    simp only [List.cons_append, walk]
    by_cases hv' : v = []
    · subst hv'
      rw [List.append_nil] at hu
      rw [hu, matchCode_mem hf.nodup he]
      rfl
    · have hpre : u ++ [b] <+: e.code := ⟨v, hu⟩
      have hlt : (u ++ [b]).length < e.code.length := by
        have hl := congrArg List.length hu
        have := List.length_pos_of_ne_nil hv'
        simp only [List.length_append] at hl ⊢
        omega
      have hnone : matchCode entries (u ++ [b]) = none := by
        refine matchCode_none.2 fun d hd heq => ?_
        have := hf.eq_of_prefix hd he (heq ▸ hpre)
        rw [← this, heq] at hlt
        exact absurd hlt (by simp)
      have hbeg : beginsCode entries (u ++ [b]) = true := beginsCode_iff.2 ⟨e, he, hpre, hlt⟩
      simp only [hnone, hbeg, if_true]
      exact ih (u ++ [b]) hv' hu

/-- The walk over a whole code. -/
theorem walk_code {entries : List Entry} (hf : codesPrefixFree (entries.map (·.code))) {e : Entry}
    (he : e ∈ entries) (hpos : 1 ≤ e.code.length) (outMax : Nat) (rest : Bits) (out : List Sym) :
    walk entries outMax (e.code ++ rest) [] out =
      if out.length = outMax then .error { cause := .outputCapacity, info := BitVec.ofNat 32 outMax }
      else walk entries outMax rest [] (out ++ [e.sym]) :=
  walk_rest_of_code hf he outMax rest out e.code [] (by intro h; simp [h] at hpos) rfl

/-- The walk over a concatenation of codes: all their symbols are output, when they fit (R155). -/
theorem walk_codes {entries : List Entry} (hf : codesPrefixFree (entries.map (·.code)))
    (hpos : ∀ e ∈ entries, 1 ≤ e.code.length) (outMax : Nat) (rest : Bits) (es : List Entry)
    (hes : ∀ e ∈ es, e ∈ entries) (out : List Sym) (hfit : out.length + es.length ≤ outMax) :
    walk entries outMax (es.flatMap (·.code) ++ rest) [] out =
      walk entries outMax rest [] (out ++ es.map (·.sym)) := by
  induction es generalizing out with
  | nil => simp
  | cons e es ih =>
    simp only [List.length_cons] at hfit
    have hm := hes e (by simp)
    simp only [List.flatMap_cons, List.append_assoc]
    rw [walk_code hf hm (hpos e hm), if_neg (by omega), ih (fun d hd => hes d (by simp [hd]))]
    · simp
    · simp; omega

/-- More codes than fit: OUTPUT_CAPACITY (R150). -/
theorem walk_codes_overflow {entries : List Entry} (hf : codesPrefixFree (entries.map (·.code)))
    (hpos : ∀ e ∈ entries, 1 ≤ e.code.length) (outMax : Nat) (rest : Bits) (es : List Entry)
    (hes : ∀ e ∈ es, e ∈ entries) (out : List Sym) (hout : out.length ≤ outMax)
    (hmany : outMax < out.length + es.length) :
    walk entries outMax (es.flatMap (·.code) ++ rest) [] out =
      .error { cause := .outputCapacity, info := BitVec.ofNat 32 outMax } := by
  induction es generalizing out with
  | nil => simp at hmany; omega
  | cons e es ih =>
    simp only [List.length_cons] at hmany
    have hm := hes e (by simp)
    simp only [List.flatMap_cons, List.append_assoc]
    rw [walk_code hf hm (hpos e hm)]
    split
    · rfl
    · exact ih (fun d hd => hes d (by simp [hd])) _ (by simp; omega) (by simp; omega)

/-- What a successful walk has consumed: from a buffer and an output, the codes of the new symbols, after the buffer
(R155). -/
theorem walk_ok {entries : List Entry} {outMax : Nat} {body buf : Bits} {out syms : List Sym}
    (h : walk entries outMax body buf out = .ok syms) :
    ∃ es : List Entry, (∀ e ∈ es, e ∈ entries) ∧ syms = out ++ es.map (·.sym) ∧ buf ++ body = es.flatMap (·.code) := by
  induction body generalizing buf out with
  | nil =>
    simp only [walk] at h
    split at h
    · cases h; exact ⟨[], by simp, by simp, by simpa⟩
    · cases h
  | cons b bs ih =>
    simp only [walk] at h
    split at h
    · rename_i e he
      split at h
      · cases h
      · obtain ⟨es, h1, h2, h3⟩ := ih h
        have hc : e.code = buf ++ [b] := by simpa [matchCode] using List.find?_some he
        refine ⟨e :: es, ?_, by simp [h2], ?_⟩
        · intro d hd
          rcases List.mem_cons.1 hd with rfl | hd
          · exact List.mem_of_find?_eq_some he
          · exact h1 d hd
        · simp only [List.nil_append] at h3
          simp [hc, ← h3]
    · split at h
      · obtain ⟨es, h1, h2, h3⟩ := ih h
        exact ⟨es, h1, h2, by simpa using h3⟩
      · cases h

theorem walk_ok_length {entries : List Entry} {outMax : Nat} {body buf : Bits} {out syms : List Sym}
    (hout : out.length ≤ outMax) (h : walk entries outMax body buf out = .ok syms) : syms.length ≤ outMax := by
  induction body generalizing buf out with
  | nil =>
    simp only [walk] at h
    split at h
    · cases h; exact hout
    · cases h
  | cons b bs ih =>
    simp only [walk] at h
    split at h
    · split at h
      · cases h
      · exact ih (by simp; omega) h
    · split at h
      · exact ih hout h
      · cases h

/-- The errors a walk can end with (R149-R151). -/
theorem walk_error {entries : List Entry} {outMax : Nat} {body buf : Bits} {out : List Sym} {r : Raised}
    (h : walk entries outMax body buf out = .error r) :
    r = { cause := .outputCapacity, info := BitVec.ofNat 32 outMax } ∨ r = corrupt 4#32 ∨ r = corrupt 5#32 := by
  induction body generalizing buf out with
  | nil =>
    simp only [walk] at h
    split at h
    · cases h
    · cases h; simp
  | cons b bs ih =>
    simp only [walk] at h
    split at h
    · split at h
      · cases h; simp
      · exact ih h
    · split at h
      · exact ih h
      · cases h; simp

/-- With complete codes the walk never raises CORRUPT_STREAM(4): the buffer always begins a code (R160). -/
theorem walk_complete {entries : List Entry} (hf : codesPrefixFree (entries.map (·.code)))
    (hc : codesComplete (entries.map (·.code))) (hpos : ∀ e ∈ entries, 1 ≤ e.code.length)
    {outMax : Nat} {body buf : Bits} {out : List Sym}
    (hbuf : buf = [] ∨ beginsCode entries buf = true) :
    walk entries outMax body buf out ≠ .error (corrupt 4#32) := by
  induction body generalizing buf out with
  | nil => simp only [walk]; split <;> simp [corrupt]
  | cons b bs ih =>
    simp only [walk]
    split
    · split
      · simp [corrupt]
      · exact ih (.inl rfl)
    · rename_i hm
      have hb : beginsCode entries (buf ++ [b]) = true := by
        obtain ⟨c, hcm, hcs⟩ := hc (buf ++ [b])
        obtain ⟨e, he, rfl⟩ := List.mem_map.1 hcm
        have hne := matchCode_none.1 hm e he
        rcases hcs with hcs | hcs
        · -- a code that is a proper prefix of the buffer and a bit would be a prefix of the buffer
          exfalso
          have hle : e.code <+: buf := by
            obtain ⟨t, ht⟩ := hcs
            rcases List.eq_nil_or_concat t with rfl | ⟨t', x, rfl⟩
            · exact absurd (by simpa using ht) hne
            · refine ⟨t', ?_⟩
              rw [List.concat_eq_append, ← List.append_assoc] at ht
              exact (List.append_inj' ht rfl).1
          rcases hbuf with rfl | hbuf
          · have := hpos e he
            rw [List.prefix_nil.1 hle] at this
            simp at this
          · obtain ⟨d, hd, hpre, hlt⟩ := beginsCode_iff.1 hbuf
            have := hf.eq_of_prefix he hd (hle.trans hpre)
            have h1 := hle.length_le
            rw [this] at h1
            omega
        · refine beginsCode_iff.2 ⟨e, he, hcs, ?_⟩
          rcases Nat.lt_or_ge (buf ++ [b]).length e.code.length with hlt | hge
          · exact hlt
          · exact absurd (hcs.eq_of_length_le hge).symm hne
      simp only [hb, if_true]
      exact ih (.inr hb)

/-- The walk over a string that begins a code, and then a bit with which it neither is nor begins one:
CORRUPT_STREAM(4) (R149). The buffer holds the part `v` of the string. -/
theorem walk_begins_none {entries : List Entry} (outMax : Nat) (u : Bits) (b : Bool) (tail v w : Bits)
    (huv : v ++ w = u) (hu : u = [] ∨ ∃ e ∈ entries, u <+: e.code) (h1 : ∀ e ∈ entries, ¬ e.code <+: u ++ [b])
    (h2 : ∀ e ∈ entries, ¬ u ++ [b] <+: e.code) (out : List Sym) :
    walk entries outMax (w ++ b :: tail) v out = .error (corrupt 4#32) := by
  induction w generalizing v with
  | nil =>
    simp at huv; subst huv
    have hm : matchCode entries (v ++ [b]) = none := matchCode_none.2 fun e he h => h1 e he (h ▸ List.prefix_rfl)
    have hb : beginsCode entries (v ++ [b]) = false := by
      cases hb : beginsCode entries (v ++ [b]) with
      | false => rfl
      | true => obtain ⟨e, he, h, -⟩ := beginsCode_iff.1 hb; exact absurd h (h2 e he)
    simp [walk, hm, hb]
  | cons x w ih =>
    have hm : matchCode entries (v ++ [x]) = none := matchCode_none.2 fun e he h => h1 e he (by
      rw [h]; exact ⟨w ++ [b], by simp [← huv]⟩)
    have hb : beginsCode entries (v ++ [x]) = true := by
      rcases hu with rfl | ⟨e, he, hp⟩
      · simp at huv
      · have hp' : v ++ [x] <+: e.code := List.IsPrefix.trans ⟨w, by simp [← huv]⟩ hp
        refine beginsCode_iff.2 ⟨e, he, hp', ?_⟩
        rcases Nat.lt_or_ge (v ++ [x]).length e.code.length with h | h
        · exact h
        · exact absurd (hp'.eq_of_length_le h).symm (matchCode_none.1 hm e he)
    simp only [List.cons_append, walk, hm, hb, if_true]
    exact ih (v ++ [x]) (by simpa using huv)

/-- The walk over a string that begins a code but is none: CORRUPT_STREAM(5) (R151). The buffer holds the part `v` of the
string. -/
theorem walk_leftover {entries : List Entry} (outMax : Nat) (u v w : Bits) (huv : v ++ w = u) (hne : u ≠ [])
    (hf : codesPrefixFree (entries.map (·.code))) {e : Entry} (he : e ∈ entries) (hp : u <+: e.code)
    (hlt : u ≠ e.code) (out : List Sym) : walk entries outMax w v out = .error (corrupt 5#32) := by
  have hl : u.length < e.code.length := by
    rcases Nat.lt_or_ge u.length e.code.length with h | h
    · exact h
    · exact absurd (hp.eq_of_length_le h) hlt
  induction w generalizing v with
  | nil => simp at huv; subst huv; simp [walk, hne]
  | cons x w ih =>
    have hp' : v ++ [x] <+: e.code := List.IsPrefix.trans ⟨w, by simp [← huv]⟩ hp
    have hl2 := congrArg List.length huv
    simp at hl2
    have hl' : (v ++ [x]).length < e.code.length := by simp; omega
    have hm : matchCode entries (v ++ [x]) = none := matchCode_none.2 fun d hd h => by
      have := hf.eq_of_prefix hd he (h ▸ hp')
      rw [← this, h] at hl'; simp at hl'
    have hb : beginsCode entries (v ++ [x]) = true := beginsCode_iff.2 ⟨e, he, hp', hl'⟩
    simp only [walk, hm, hb, if_true]
    exact ih (v ++ [x]) (by simpa using huv)

end Sys2Proof.Machine
end

