-- ==== Sys2Proof/Laws/Commands.lean ====
section
/-!
SUPPORT. Everything a command's completion can do (40_control.md R107, R114; 41_encode.md R137, R138; 42_decode.md R142-R153).
-/

namespace Sys2Proof.Machine

/-! ### The commands' outcomes -/

/-- ENCODE always completes: with the commit of R137 or with the error commit of R138. -/
theorem execEncode_cases (s : State) :
    (∃ r, encodeResult s = .ok r ∧ execEncode s = .next (s.commitEncoded r).completeOk) ∨
    (∃ e, encodeResult s = .error e ∧ execEncode s = .next (s.commitEncodeError.completeRaised e)) := by
  cases h : encodeResult s with
  | ok r => exact .inl ⟨r, rfl, by simp [execEncode, h]⟩
  | error e => exact .inr ⟨e, rfl, by simp [execEncode, h]⟩

/-- The facts of a successful ENCODE: the text fits, and what is committed is its table and its artifact (R117). -/
theorem encodeResult_ok {s : State} {r : Encoded} (h : encodeResult s = .ok r) :
    1 ≤ s.inLen.toNat ∧ s.inLen.toNat ≤ s.cfg.inMax ∧ s.inputText.eraseDups.length ≤ s.cfg.nsymMax ∧
    artifactLength (textRaw s.inputText).length ≤ s.cfg.packMax ∧
    r = { table := textTable s.inputText, rawBits := (textRaw s.inputText).length,
          pad := padding (textRaw s.inputText).length,
          bytes := packBits (artifactBits (padding (textRaw s.inputText).length) (textRaw s.inputText)) } := by
  rcases encodeResult_cases s with ⟨-, h'⟩ | ⟨-, -, h'⟩ | ⟨h1, h2, ⟨_, _, _, -, -, -, h'⟩ | ⟨h3, h'⟩⟩
  · rw [h] at h'; cases h'
  · rw [h] at h'; cases h'
  · rw [h] at h'; cases h'
  · rw [h, encodeCounts_countsOf] at h'
    split at h'
    · cases h'
    · cases h'; exact ⟨by omega, h1, h3, by omega, rfl⟩

/-- The causes ENCODE can raise (R117): never 0, DUPLICATE_CODE, CORRUPT_STREAM or ILLEGAL_COMMAND. -/
theorem encodeResult_error {s : State} {e : Raised} (h : encodeResult s = .error e) :
    e.cause = .lengthCapacity ∨ e.cause = .emptyInput ∨ e.cause = .symbolCapacity ∨ e.cause = .outputCapacity := by
  rcases encodeResult_cases s with ⟨-, h'⟩ | ⟨-, -, h'⟩ | ⟨-, -, ⟨_, _, _, -, -, -, h'⟩ | ⟨-, h'⟩⟩
  · rw [h] at h'; cases h'; simp
  · rw [h] at h'; cases h'; simp
  · rw [h] at h'; cases h'; simp
  · rw [h, encodeCounts_countsOf] at h'
    split at h'
    · cases h'; simp
    · cases h'

theorem Cause.code_ne_zero (c : Cause) : c.code ≠ 0#4 := by cases c <;> decide

/-- The input text has IN_LEN symbols. -/
@[simp] theorem inputText_length (s : State) : s.inputText.length = s.inLen.toNat := by simp [State.inputText]

@[simp] theorem artifact_length (s : State) : s.artifact.length = s.packLen.toNat := by simp [State.artifact]

theorem inputText_getElem (s : State) (j : Nat) (h : j < s.inputText.length) : s.inputText[j] = s.readSym j := by
  simp [State.inputText]

/-- The header is the first byte's value (R144). -/
theorem header_bits {s : State} (h : 1 ≤ s.packLen.toNat) :
    bitsVal ((unpackBytes s.artifact).take 8) = s.header := by
  obtain ⟨n, hn⟩ : ∃ n, s.packLen.toNat = n + 1 := ⟨s.packLen.toNat - 1, by omega⟩
  have : s.artifact = s.readPack 0 :: (List.range n).map fun i => s.readPack (i + 1) := by
    simp only [State.artifact, hn, List.range_succ_eq_map, List.map_cons, List.map_map, Function.comp_def]
  rw [this, unpackBytes, List.take_append_of_le_length (by simp), List.take_of_length_le (by simp), bitsVal_bin8]
  rfl

/-- The BitUnpacker in its cases, in the order of its checks (R142-R146, R154). -/
theorem unpackBody_cases (s : State) :
    (s.cfg.packMax < s.packLen.toNat ∧ unpackBody s = .error { cause := .lengthCapacity, info := s.packLen }) ∨
    (s.packLen.toNat ≤ s.cfg.packMax ∧ s.packLen.toNat = 0 ∧ unpackBody s = .error (corrupt 1#32)) ∨
    (1 ≤ s.packLen.toNat ∧ s.packLen.toNat ≤ s.cfg.packMax ∧ 8 < s.header ∧
      unpackBody s = .error (corrupt 2#32)) ∨
    (1 ≤ s.packLen.toNat ∧ s.packLen.toNat ≤ s.cfg.packMax ∧ s.header ≤ 8 ∧
      8 * s.packLen.toNat - 8 < s.header ∧ unpackBody s = .error (corrupt 3#32)) ∨
    (s.bodyReadable ∧ unpackBody s = .ok s.body) := by
  by_cases h1 : s.cfg.packMax < s.packLen.toNat
  · exact .inl ⟨h1, by simp [unpackBody, h1]⟩
  by_cases h2 : s.packLen.toNat = 0
  · exact .inr (.inl ⟨by omega, h2, by simp [unpackBody, h2]⟩)
  have hp : 1 ≤ s.packLen.toNat := by omega
  have hb : unpackBody s = stripPadding (unpackBytes s.artifact) := by simp only [unpackBody, h1, h2, if_false]
  have hl : ((unpackBytes s.artifact).drop 8).length = 8 * s.packLen.toNat - 8 := by simp
  by_cases h3 : 8 < s.header
  · exact .inr (.inr (.inl ⟨hp, by omega, h3, by simp only [hb, stripPadding, header_bits hp, h3, if_true]⟩))
  by_cases h4 : 8 * s.packLen.toNat - 8 < s.header
  · exact .inr (.inr (.inr (.inl ⟨hp, by omega, by omega, h4, by
      simp only [hb, stripPadding, header_bits hp, h3, if_false, hl, h4, if_true]⟩)))
  · exact .inr (.inr (.inr (.inr ⟨⟨hp, by omega, by omega, by omega⟩, by
      simp only [hb, stripPadding, header_bits hp, h3, if_false, hl, h4, State.body]⟩)))

theorem unpackBody_ok {s : State} (h : s.bodyReadable) : unpackBody s = .ok s.body := by
  obtain ⟨h1, h2, h3, h4⟩ := h
  rcases unpackBody_cases s with ⟨h, -⟩ | ⟨-, h, -⟩ | ⟨-, -, h, -⟩ | ⟨-, -, -, h, -⟩ | ⟨-, h⟩
  · omega
  · omega
  · omega
  · omega
  · exact h

/-- DECODE of a readable body: the walk decides (R141, R152, R153). -/
theorem execDecode_readable {s : State} (h : s.bodyReadable) :
    execDecode s =
      match walk s.validEntries s.cfg.outMax s.body [] [] with
      | .error e => .next (s.commitWalkError.completeRaised e)
      | .ok out => .next (s.commitDecoded out).completeOk := by
  cases hw : walk s.validEntries s.cfg.outMax s.body [] [] <;> simp only [execDecode, unpackBody_ok h, hw]

/-- DECODE always completes, in one of three ways (R152, R153). -/
theorem execDecode_cases (s : State) :
    (∃ e, unpackBody s = .error e ∧ execDecode s = .next (s.commitDecodeError.completeRaised e)) ∨
    (s.bodyReadable ∧ ∃ e, walk s.validEntries s.cfg.outMax s.body [] [] = .error e ∧
      execDecode s = .next (s.commitWalkError.completeRaised e)) ∨
    (s.bodyReadable ∧ ∃ out, walk s.validEntries s.cfg.outMax s.body [] [] = .ok out ∧
      execDecode s = .next (s.commitDecoded out).completeOk) := by
  rcases unpackBody_cases s with ⟨-, h⟩ | ⟨-, -, h⟩ | ⟨-, -, -, h⟩ | ⟨-, -, -, -, h⟩ | ⟨hr, -⟩
  · exact .inl ⟨_, h, by simp only [execDecode, h]⟩
  · exact .inl ⟨_, h, by simp only [execDecode, h]⟩
  · exact .inl ⟨_, h, by simp only [execDecode, h]⟩
  · exact .inl ⟨_, h, by simp only [execDecode, h]⟩
  · right
    rw [execDecode_readable hr]
    cases hw : walk s.validEntries s.cfg.outMax s.body [] [] with
    | error e => exact .inl ⟨hr, e, rfl, rfl⟩
    | ok out => exact .inr ⟨hr, out, rfl, rfl⟩

/-- Every command completes: the engine idle, DONE set, what no command writes unchanged (R107, R114). -/
theorem runCommand_frame {op : Command} {s t : State} (h : runCommand op s = .next t) :
    t.eng = .idle ∧ t.done = true ∧ t.cfg = s.cfg ∧ t.ie = s.ie ∧ t.ovr = s.ovr ∧ t.inLen = s.inLen ∧
    t.tblIdx = s.tblIdx ∧ t.symMem = s.symMem ∧ t.world = s.world ∧ t.replies = s.replies ∧
    t.latencies = s.latencies ∧ t.wait = s.wait := by
  cases op with
  | illegal v => cases h; simp
  | instr i =>
    cases i with
    | clear => cases h; simp
    | encode =>
      rcases execEncode_cases s with ⟨r, -, h'⟩ | ⟨e, -, h'⟩ <;>
        · rw [runCommand, exec, h'] at h; cases h; simp
    | decode =>
      rcases execDecode_cases s with ⟨e, -, h'⟩ | ⟨-, e, -, h'⟩ | ⟨-, out, -, h'⟩ <;>
        · rw [runCommand, exec, h'] at h; cases h; simp

/-- Every command has a completion (R107: no command hangs). -/
theorem runCommand_completes (op : Command) (s : State) : ∃ t, runCommand op s = .next t := by
  cases op with
  | illegal v => exact ⟨_, rfl⟩
  | instr i =>
    cases i with
    | clear => exact ⟨_, rfl⟩
    | encode => rcases execEncode_cases s with ⟨_, -, h'⟩ | ⟨_, -, h'⟩ <;> exact ⟨_, h'⟩
    | decode => rcases execDecode_cases s with ⟨_, -, h'⟩ | ⟨-, _, -, h'⟩ | ⟨-, _, -, h'⟩ <;> exact ⟨_, h'⟩

theorem Params.legal_iff (p : Config.Params) :
    p.legal = true ↔ (1 ≤ p.nsymMax ∧ p.nsymMax ≤ 256) ∧ (1 ≤ p.inMax ∧ p.inMax ≤ 262144) ∧
      (2 ≤ p.packMax ∧ p.packMax ≤ 262144) ∧ (1 ≤ p.outMax ∧ p.outMax ≤ 262144) := by
  simp [Config.Params.legal, Config.Params.nsymOk, Config.Params.inOk, Config.Params.packOk, Config.Params.outOk,
    and_assoc]

/-- A successful ENCODE: the text fits and the commit is that of its table and its artifact (R137). -/
theorem execEncode_ok {s t : State} (h : exec .encode s = .next t) (h0 : t.errCode = 0#4) :
    1 ≤ s.inLen.toNat ∧ s.inLen.toNat ≤ s.cfg.inMax ∧ s.inputText.eraseDups.length ≤ s.cfg.nsymMax ∧
    artifactLength (textRaw s.inputText).length ≤ s.cfg.packMax ∧
    ∃ r, r = { table := textTable s.inputText, rawBits := (textRaw s.inputText).length,
               pad := padding (textRaw s.inputText).length,
               bytes := packBits (artifactBits (padding (textRaw s.inputText).length) (textRaw s.inputText)) } ∧
      t = (s.commitEncoded r).completeOk := by
  rcases execEncode_cases s with ⟨r, hr, h'⟩ | ⟨e, -, h'⟩ <;> rw [exec, h'] at h <;> cases h
  · obtain ⟨a, b, c, d, e⟩ := encodeResult_ok hr
    exact ⟨a, b, c, d, r, e, rfl⟩
  · exact absurd h0 (Cause.code_ne_zero _)

theorem Cause.code_le (c : Cause) : c.code.toNat ≤ 7 := by cases c <;> decide

/-- What a successful ENCODE leaves for DECODE to read (R130-R133, R137). -/
theorem execEncode_artifact {s t : State} (hl : s.cfg.legal = true) (h : exec .encode s = .next t)
    (h0 : t.errCode = 0#4) :
    t.encPad.toNat = padding (textRaw s.inputText).length ∧ t.encBits.toNat = (textRaw s.inputText).length ∧
    t.packLen.toNat = artifactLength (textRaw s.inputText).length ∧
    t.artifact = packBits (artifactBits (padding (textRaw s.inputText).length) (textRaw s.inputText)) ∧
    unpackBytes t.artifact = artifactBits (padding (textRaw s.inputText).length) (textRaw s.inputText) ∧
    t.header = padding (textRaw s.inputText).length := by
  have hl' := (Params.legal_iff _).1 hl
  obtain ⟨h1, h2, h3, h4, r, rfl, rfl⟩ := execEncode_ok h h0
  have hrb := textRaw_length_le s.inputText
  simp only [inputText_length] at hrb
  have hb2 : (textRaw s.inputText).length ≤ 262144 * 255 := hrb.trans (Nat.mul_le_mul (by omega) (by omega))
  generalize hraw : textRaw s.inputText = raw at *
  obtain ⟨hp1, hp2⟩ := padding_range raw.length
  have hps := padding_sum raw.length
  have hpl := packBits_artifact_length raw
  have hbits : (artifactBits (padding raw.length) raw).length % 8 = 0 := by rw [artifactBits_length]; omega
  have e1 : ((BitVec.ofNat 4 (padding raw.length)).toNat) = padding raw.length := by simp; omega
  have e2 : ((BitVec.ofNat 32 raw.length).toNat) = raw.length := by simp; omega
  have hal : artifactLength raw.length = 1 + (raw.length + padding raw.length) / 8 := rfl
  have e3 : ((BitVec.ofNat 32 (artifactLength raw.length)).toNat) = artifactLength raw.length := by simp; omega
  set t := (s.commitEncoded { table := textTable s.inputText, rawBits := raw.length, pad := padding raw.length, bytes := packBits (artifactBits (padding raw.length) raw) }).completeOk with ht
  have r3 : t.packLen.toNat = artifactLength raw.length := e3
  have hread : ∀ k, t.readPack k = ((packBits (artifactBits (padding raw.length) raw))[k]?).getD (s.readPack k) := by
    intro k
    show (s.packMem.writeFrom 0 _).read _ k = _
    rw [Memory.read_writeFrom]; simp; rfl
  have hart : t.artifact = packBits (artifactBits (padding raw.length) raw) := by
    apply List.ext_getElem
    · simp [r3, hpl]
    · intro i h1 h2
      simp [State.artifact, hread, h2]
  have hunp : unpackBytes t.artifact = artifactBits (padding raw.length) raw := by
    rw [hart, unpackBytes_packBits _ hbits]
  refine ⟨e1, e2, e3, hart, hunp, ?_⟩
  rw [← header_bits (by rw [r3]; omega), hunp, artifactBits, List.append_assoc, List.take_append_of_le_length (by simp), List.take_of_length_le (by simp), bitsVal_bin8]
  simp; omega

/-- The artifact of a successful ENCODE is readable and its body is the raw code stream (R130, R144-R146). -/
theorem execEncode_body {s t : State} (hl : s.cfg.legal = true) (h : exec .encode s = .next t) (h0 : t.errCode = 0#4) :
    t.bodyReadable ∧ t.body = textRaw s.inputText := by
  obtain ⟨a1, a2, a3, a4, a5, a6⟩ := execEncode_artifact hl h h0
  obtain ⟨h1, h2, h3, h4, r, -, hr⟩ := execEncode_ok h h0
  have hcfg : t.cfg = s.cfg := by rw [hr]; rfl
  obtain ⟨hp1, hp2⟩ := padding_range (textRaw s.inputText).length
  have hps := padding_sum (textRaw s.inputText).length
  have hal : artifactLength (textRaw s.inputText).length = 1 + ((textRaw s.inputText).length + padding (textRaw s.inputText).length) / 8 := rfl
  refine ⟨⟨by omega, by rw [hcfg]; omega, by omega, by omega⟩, ?_⟩
  simp only [State.body, a5, a3, a6, artifactBits]
  rw [List.append_assoc, List.drop_append_of_le_length (by simp), List.drop_of_length_le (by simp), List.nil_append]
  rw [List.take_append_of_le_length (by omega), List.take_of_length_le (by omega)]

/-- The artifact is a function of PACK_LEN and the bytes below it (R143). -/
theorem artifact_congr {t u : State} (hp : u.packLen = t.packLen)
    (hr : ∀ k < t.packLen.toNat, u.readPack k = t.readPack k) :
    u.artifact = t.artifact ∧ (1 ≤ t.packLen.toNat → u.header = t.header) ∧
    (1 ≤ t.packLen.toNat → u.body = t.body) := by
  have ha : u.artifact = t.artifact := by
    simp only [State.artifact, hp]
    exact List.map_congr_left fun j hj => hr j (List.mem_range.1 hj)
  refine ⟨ha, fun h => congrArg BitVec.toNat (hr 0 h), fun h => ?_⟩
  have hh : u.header = t.header := congrArg BitVec.toNat (hr 0 h)
  simp only [State.body, ha, hh, hp]

end Sys2Proof.Machine
end

