-- ==== Sys2Proof/Laws/Depth.lean ====
section
/-!
SUPPORT. The order of extraction and the lengths of the codes of `build` (41_encode.md R123, R124, R140).
-/

namespace Sys2Proof.Machine

/-- The number of merges that node `s` of a collection takes part in until one node remains, itself and as part of a
merged node: the depth of its tree in the final one. -/
def depthIn : (fuel : Nat) → List Node → (next : Nat) → (s : Nat) → Nat
  | 0, _, _, _ => 0
  | _ + 1, [], _, _ => 0
  | fuel + 1, x :: xs, next, s =>
    match extractLeast x xs with
    | (_, []) => 0
    | (a, y :: ys) =>
      let bq := extractLeast y ys
      let q := bq.2 ++ [{ weight := a.weight + bq.1.weight, seq := next, leaves := a.leaves ++ bq.1.leaves }]
      if s = a.seq ∨ s = bq.1.seq then depthIn fuel q (next + 1) next + 1 else depthIn fuel q (next + 1) s

theorem Node.before_iff (a b : Node) : a.before b = true ↔ a.weight < b.weight ∨ (a.weight = b.weight ∧ a.seq < b.seq) := by
  simp [Node.before]

/-- The element extracted is before every other (R123). -/
theorem extractLeast_least (x : Node) (xs : List Node) (hn : ((x :: xs).map (·.seq)).Nodup) :
    ∀ n ∈ (extractLeast x xs).2, (extractLeast x xs).1.before n = true := by
  induction xs generalizing x with
  | nil => simp [extractLeast]
  | cons y ys ih =>
    simp only [List.map_cons, List.nodup_cons, List.mem_cons, not_or] at hn
    obtain ⟨⟨hxy, hx⟩, hy, hys⟩ := hn
    have hleast : ∀ z : Node, ((z :: ys).map (·.seq)).Nodup → (extractLeast z ys).1 = z ∨ (extractLeast z ys).1.before z = true := by
      intro z hz
      have := (extractLeast_perm z ys).mem_iff.2 (List.mem_cons_self)
      rcases List.mem_cons.1 this with h | h
      · exact .inl h.symm
      · exact .inr (ih z hz z h)
    simp only [extractLeast]
    split
    · rename_i hb
      have hz : ((y :: ys).map (·.seq)).Nodup := by simp [hy, hys]
      intro n hn
      rcases List.mem_cons.1 hn with rfl | hn
      · rcases hleast y hz with h | h
        · show (extractLeast y ys).1.before n = true; rw [h]; exact hb
        · show (extractLeast y ys).1.before n = true
          rw [Node.before_iff] at *; omega
      · exact ih y hz n hn
    · rename_i hb
      have hz : ((x :: ys).map (·.seq)).Nodup := by simp [hx, hys]
      have hxb : x.before y = true := by rw [Node.before_iff] at *; omega
      intro n hn
      rcases List.mem_cons.1 hn with rfl | hn
      · rcases hleast x hz with h | h
        · show (extractLeast x ys).1.before n = true; rw [h]; exact hxb
        · show (extractLeast x ys).1.before n = true
          rw [Node.before_iff] at *; omega
      · exact ih x hz n hn

/-- One merge: the two least elements `a` and `b` give way to a node of both (R124). -/
theorem merge_step {q : List Node} (h2 : 2 ≤ q.length) (hn : (q.map (·.seq)).Nodup) :
    ∃ (a b : Node) (r : List Node), q.Perm (a :: b :: r) ∧ a.before b = true ∧ (∀ n ∈ r, b.before n = true) ∧
      (∀ fuel next codes, mergeAll (fuel + 1) q next codes =
        mergeAll fuel (r ++ [{ weight := a.weight + b.weight, seq := next, leaves := a.leaves ++ b.leaves }]) (next + 1)
          (prependBit true b.leaves (prependBit false a.leaves codes))) ∧
      ∀ fuel next s, depthIn (fuel + 1) q next s =
        if s = a.seq ∨ s = b.seq then
          depthIn fuel (r ++ [{ weight := a.weight + b.weight, seq := next, leaves := a.leaves ++ b.leaves }]) (next + 1) next + 1
        else depthIn fuel (r ++ [{ weight := a.weight + b.weight, seq := next, leaves := a.leaves ++ b.leaves }]) (next + 1) s := by
  match q, h2 with
  | x :: x' :: xs, _ =>
    have hp := extractLeast_perm x (x' :: xs)
    have hl := extractLeast_least x (x' :: xs) hn
    have hlen := extractLeast_length x (x' :: xs)
    cases he : extractLeast x (x' :: xs) with
    | mk a l =>
      rw [he] at hp hl hlen
      cases l with
      | nil => simp at hlen
      | cons y ys =>
        have hn' := (hp.map (·.seq)).nodup_iff.2 hn
        simp only [List.map_cons, List.nodup_cons] at hn'
        have hp2 := extractLeast_perm y ys
        have hl2 := extractLeast_least y ys (by simpa using hn'.2)
        refine ⟨a, (extractLeast y ys).1, (extractLeast y ys).2, hp.symm.trans (hp2.symm.cons a), ?_, hl2, ?_, ?_⟩
        · exact hl _ (hp2.mem_iff.1 List.mem_cons_self)
        · intro fuel next codes; simp only [mergeAll, he]
        · intro fuel next s; simp only [depthIn, he]

/-- The code of a leaf grows by the depth of its node (R124). -/
theorem mergeAll_code_length (fuel : Nat) (q : List Node) (next : Nat) (codes : List Bits)
    (hn : (q.map (·.seq)).Nodup) (hlt : ∀ n ∈ q, n.seq < next) (hnd : (q.flatMap (·.leaves)).Nodup)
    (hi : ∀ i ∈ q.flatMap (·.leaves), i < codes.length) :
    ∀ n ∈ q, ∀ i ∈ n.leaves,
      ((mergeAll fuel q next codes).getD i []).length = (codes.getD i []).length + depthIn fuel q next n.seq := by
  induction fuel generalizing q next codes with
  | zero => intros; rfl
  | succ fuel ih =>
    intro n hnq i hin
    rcases Nat.lt_or_ge q.length 2 with h2 | h2
    · match q, h2 with
      | [], _ => simp at hnq
      | [x], _ => rfl
    · obtain ⟨a, b, r, hp, hab, hr, hm, hd⟩ := merge_step h2 hn
      have hpl : (q.flatMap (·.leaves)).Perm (a.leaves ++ (b.leaves ++ r.flatMap (·.leaves))) := by
        simpa using hp.flatMap_right (·.leaves)
      rw [hm, hd]
      have hnd' := hpl.nodup_iff.1 hnd
      rw [List.nodup_append] at hnd'
      obtain ⟨-, hndbr, hda⟩ := hnd'
      rw [List.nodup_append] at hndbr
      obtain ⟨-, -, hdb⟩ := hndbr
      have hseq := (hp.map (·.seq)).nodup_iff.1 hn
      simp only [List.map_cons, List.nodup_cons, List.mem_cons, not_or] at hseq
      set c : Node := { weight := a.weight + b.weight, seq := next, leaves := a.leaves ++ b.leaves } with hc
      have hlv : ((r ++ [c]).flatMap (·.leaves)).Perm (q.flatMap (·.leaves)) := by
        refine List.Perm.trans ?_ hpl.symm
        simp only [List.flatMap_append, List.flatMap_cons, List.flatMap_nil, List.append_nil, hc]
        refine List.perm_append_comm.trans ?_
        rw [List.append_assoc]
      have hsub : ∀ m ∈ r, m ∈ q := fun m hm => hp.mem_iff.2 (by simp [hm])
      have ih' := ih (r ++ [c]) (next + 1) (prependBit true b.leaves (prependBit false a.leaves codes)) (by
          rw [List.map_append, List.nodup_append]
          refine ⟨hseq.2.2, by simp, ?_⟩
          intro s hs t ht
          simp at ht; subst ht
          obtain ⟨m, hm, rfl⟩ := List.mem_map.1 hs
          exact Nat.ne_of_lt (hlt m (hsub m hm)))
        (by
          intro m hm
          rcases List.mem_append.1 hm with hm | hm
          · have := hlt m (hsub m hm); omega
          · simp at hm; subst hm; simp [hc])
        (hlv.nodup_iff.2 hnd) (fun j hj => by simpa using hi j (hlv.mem_iff.1 hj))
      have hil : i < codes.length := hi i (List.mem_flatMap.2 ⟨n, hnq, hin⟩)
      have hget : (prependBit true b.leaves (prependBit false a.leaves codes)).getD i [] =
            if i ∈ b.leaves then true :: (if i ∈ a.leaves then false :: codes.getD i [] else codes.getD i [])
            else if i ∈ a.leaves then false :: codes.getD i [] else codes.getD i [] := by
        rw [prependBit_getD _ _ _ _ (by simpa using hil), prependBit_getD _ _ _ _ hil]
      have hcm : c ∈ r ++ [c] := by simp
      rcases List.mem_cons.1 (hp.mem_iff.1 hnq) with rfl | hnq'
      · have hib : i ∉ b.leaves := fun h => hda i hin i (by simp [h]) rfl
        rw [if_pos (.inl rfl), ih' c hcm i (by simp [hc, hin]), hget]
        simp [hib, hin, hc]; omega
      rcases List.mem_cons.1 hnq' with rfl | hnr
      · have hia : i ∉ a.leaves := fun h => hda i h i (by simp [hin]) rfl
        rw [if_pos (.inr rfl), ih' c hcm i (by simp [hc, hin]), hget]
        simp [hia, hin, hc]; omega
      · have hir : i ∈ r.flatMap (·.leaves) := List.mem_flatMap.2 ⟨n, hnr, hin⟩
        have hia : i ∉ a.leaves := fun h => hda i h i (by simp [hir]) rfl
        have hib : i ∉ b.leaves := fun h => hdb i h i hir rfl
        have hns : n.seq ∈ r.map (·.seq) := List.mem_map_of_mem hnr
        rw [if_neg (by rintro (h | h) <;> rw [h] at hns <;> tauto), ih' n (by simp [hnr]) i hin, hget]
        simp [hia, hib]

/-- What is extracted earlier is no higher in the tree, and when two others weigh at least as much as `c`, everything is
at most one level below `c`. -/
theorem depthIn_order (fuel : Nat) (q : List Node) (next : Nat) (hf : q.length ≤ fuel)
    (hn : (q.map (·.seq)).Nodup) (hlt : ∀ n ∈ q, n.seq < next) :
    (∀ x ∈ q, ∀ y ∈ q, x.before y = true → depthIn fuel q next y.seq ≤ depthIn fuel q next x.seq) ∧
    (∀ c ∈ q, (∀ y z l, q.Perm (c :: y :: z :: l) → c.weight ≤ y.weight + z.weight) →
      ∀ y ∈ q, depthIn fuel q next y.seq ≤ depthIn fuel q next c.seq + 1) := by
  induction fuel generalizing q next with
  | zero => exact ⟨fun _ _ _ _ _ => Nat.le_refl _, fun _ _ _ _ _ => Nat.zero_le _⟩
  | succ fuel ih =>
    rcases Nat.lt_or_ge q.length 2 with h2 | h2
    · have h0 : ∀ s, depthIn (fuel + 1) q next s = 0 := by
        intro s
        match q, h2 with
        | [], _ => rfl
        | [x], _ => rfl
      simp [h0]
    · obtain ⟨a, b, r, hp, hab, hr, -, hd⟩ := merge_step h2 hn
      have hseq := (hp.map (·.seq)).nodup_iff.1 hn
      simp only [List.map_cons, List.nodup_cons, List.mem_cons, not_or] at hseq
      have hsub : ∀ m ∈ r, m ∈ q := fun m hm => hp.mem_iff.2 (by simp [hm])
      set c : Node := { weight := a.weight + b.weight, seq := next, leaves := a.leaves ++ b.leaves } with hc
      have hns : ∀ m ∈ r, ¬ (m.seq = a.seq ∨ m.seq = b.seq) := by
        intro m hm h
        have : m.seq ∈ r.map (·.seq) := List.mem_map_of_mem hm
        rcases h with h | h <;> rw [h] at this <;> tauto
      have hlr : ∀ m ∈ r, m.seq < next := fun m hm => hlt m (hsub m hm)
      obtain ⟨ihP, ihQ⟩ := ih (r ++ [c]) (next + 1) (by have := hp.length_eq; simp at this ⊢; omega) (by
          rw [List.map_append, List.nodup_append]
          refine ⟨hseq.2.2, by simp, ?_⟩
          intro s hs t ht
          simp at ht; subst ht
          obtain ⟨m, hm, rfl⟩ := List.mem_map.1 hs
          exact Nat.ne_of_lt (hlr m hm))
        (by
          intro m hm
          rcases List.mem_append.1 hm with hm | hm
          · have := hlr m hm; omega
          · simp at hm; subst hm; simp [hc])
      have hcm : c ∈ r ++ [c] := by simp
      have hrm : ∀ m ∈ r, m ∈ r ++ [c] := fun m hm => by simp [hm]
      have hw : ∀ m ∈ r, b.weight ≤ m.weight := fun m hm => by
        have := (Node.before_iff _ _).1 (hr m hm); omega
      have haw : a.weight ≤ b.weight := by have := (Node.before_iff _ _).1 hab; omega
      -- everything is at most one level below the new node
      have hQc : ∀ y ∈ r ++ [c], depthIn fuel (r ++ [c]) (next + 1) y.seq ≤ depthIn fuel (r ++ [c]) (next + 1) next + 1 := by
        refine ihQ c hcm fun y z l hperm => ?_
        have hperm' : r.Perm (y :: z :: l) := by
          have h1 : (c :: r).Perm (c :: y :: z :: l) := (List.perm_append_comm (l₁ := [c]) (l₂ := r)).trans hperm
          exact h1.cons_inv
        have hy := hw y (hperm'.mem_iff.2 (by simp))
        have hz := hw z (hperm'.mem_iff.2 (by simp))
        show a.weight + b.weight ≤ _; omega
      have hda : depthIn (fuel + 1) q next a.seq = depthIn fuel (r ++ [c]) (next + 1) next + 1 := by rw [hd, if_pos (.inl rfl)]
      have hdb : depthIn (fuel + 1) q next b.seq = depthIn fuel (r ++ [c]) (next + 1) next + 1 := by rw [hd, if_pos (.inr rfl)]
      have hdr : ∀ m ∈ r, depthIn (fuel + 1) q next m.seq = depthIn fuel (r ++ [c]) (next + 1) m.seq := fun m hm => by
        rw [hd, if_neg (hns m hm)]
      have hmem : ∀ m ∈ q, m = a ∨ m = b ∨ m ∈ r := fun m hm => by simpa using hp.mem_iff.1 hm
      have hmax : ∀ y ∈ q, depthIn (fuel + 1) q next y.seq ≤ depthIn fuel (r ++ [c]) (next + 1) next + 1 := by
        intro y hy
        rcases hmem y hy with rfl | rfl | hy
        · rw [hda]
        · rw [hdb]
        · rw [hdr y hy]; exact hQc y (hrm y hy)
      constructor
      · intro x hx y hy hxy
        rcases hmem x hx with rfl | rfl | hx
        · rw [hda]; exact hmax y hy
        · rw [hdb]; exact hmax y hy
        · rcases hmem y hy with rfl | rfl | hy
          · have h1 := (Node.before_iff _ _).1 (hr x hx)
            rw [Node.before_iff] at hab hxy; omega
          · have h1 := (Node.before_iff _ _).1 (hr x hx)
            rw [Node.before_iff] at hxy; omega
          · rw [hdr x hx, hdr y hy]; exact ihP x (hrm x hx) y (hrm y hy) hxy
      · intro d hdq hd2 y hy
        have hy' := hmax y hy
        rcases hmem d hdq with rfl | rfl | hdr'
        · rw [hda]; omega
        · rw [hdb]; omega
        · rw [hdr d hdr']
          have hdc : d.before c = true := by
            obtain ⟨l, hl⟩ : ∃ l, r.Perm (d :: l) := ⟨r.erase d, List.perm_cons_erase hdr'⟩
            have hle := hd2 a b l (hp.trans (((hl.cons b).cons a).trans
              (((List.Perm.swap d b l).cons a).trans (List.Perm.swap d a (b :: l)))))
            rw [Node.before_iff]
            have := hlr d hdr'
            show d.weight < a.weight + b.weight ∨ d.weight = a.weight + b.weight ∧ d.seq < next
            omega
          have := ihP d (hrm d hdr') c hcm hdc
          have h3 : depthIn fuel (r ++ [c]) (next + 1) next ≤ depthIn fuel (r ++ [c]) (next + 1) d.seq := this
          omega

/-- An entry with a smaller count, or the same count and a smaller index, has no shorter code (R140). -/
theorem build_order (freqs : List Nat) {i j : Nat} (hi : i < freqs.length) (hj : j < freqs.length)
    (h : freqs[i] < freqs[j] ∨ (freqs[i] = freqs[j] ∧ i < j)) :
    ((build freqs).getD j []).length ≤ ((build freqs).getD i []).length := by
  rcases Nat.lt_or_ge freqs.length 2 with h2 | h2
  · have : i = j := by omega
    subst this; exact Nat.le_refl _
  · have hb : build freqs = mergeAll freqs.length (seedQueue freqs) freqs.length (freqs.map fun _ => []) := by
      simp only [build]; rw [if_neg (by omega)]
    have hseqs : (seedQueue freqs).map (·.seq) = List.range freqs.length := by
      rw [← seedQueue_leaves freqs]
      simp only [seedQueue, List.map_map, List.flatMap_map]
      exact List.map_eq_flatMap ..
    have hn : ((seedQueue freqs).map (·.seq)).Nodup := by rw [hseqs]; exact List.nodup_range
    have hlt : ∀ n ∈ seedQueue freqs, n.seq < freqs.length := fun n hn => by
      have : n.seq ∈ (seedQueue freqs).map (·.seq) := List.mem_map_of_mem hn
      rw [hseqs] at this; exact List.mem_range.1 this
    have hmem : ∀ k (hk : k < freqs.length), ({ weight := freqs[k], seq := k, leaves := [k] } : Node) ∈ seedQueue freqs := by
      intro k hk
      simp only [seedQueue, List.mem_map]
      exact ⟨(freqs[k], k), by simp [List.mem_zipIdx_iff_getElem?], rfl⟩
    have hlen := mergeAll_code_length freqs.length (seedQueue freqs) freqs.length (freqs.map fun _ => []) hn hlt
      (by rw [seedQueue_leaves]; exact List.nodup_range) (by rw [seedQueue_leaves]; simp)
    have h0 : ∀ k, ((freqs.map fun _ => ([] : Bits)).getD k []) = [] := by
      intro k
      simp only [List.getD, List.getElem?_map]
      cases freqs[k]? <;> rfl
    have hli := hlen _ (hmem i hi) i (by simp)
    have hlj := hlen _ (hmem j hj) j (by simp)
    rw [h0, List.length_nil, Nat.zero_add] at hli hlj
    rw [hb, hli, hlj]
    exact (depthIn_order _ _ _ (by simp) hn hlt).1 _ (hmem i hi) _ (hmem j hj) (by rw [Node.before_iff]; exact h)

end Sys2Proof.Machine
end

