-- ==== Sys2Proof/Laws/PerInstr.lean ====
section
/-!
SUPPORT. Statements made per instruction, about the instruction as syntax.
-/

namespace Sys2Proof.Laws.Encodes

/-- The command's word passes the field checks of R86 and R87 and the decoder reads the command from it (R88), as a word
and as the opcode table numbers it. -/
def Statement (i : Instr) : Prop :=
  i.wellFormed = true ∧ commandWordOk (encode i) = true ∧ decodeCmd (encode i) = .instr i ∧
    decodeTableWord 32 (encode i).toNat = some i

theorem clear : Statement .clear := by unfold Statement; decide

theorem encode : Statement .encode := by unfold Statement; decide

theorem decode : Statement .decode := by unfold Statement; decide

end Sys2Proof.Laws.Encodes
end

