-- ==== Sys2Proof/Laws/Step.lean ====
section
/-!
SUPPORT. Everything one step can do (40_control.md R107, R108).
-/

namespace Sys2Proof.Machine

/-! ### Steps -/

theorem State.busy_iff (s : State) : s.busy = true ↔ ∃ op, s.eng = .run op := by
  simp only [State.busy]; cases s.eng <;> simp

theorem State.busy_eq_false_iff (s : State) : s.busy = false ↔ s.eng = .idle := by
  simp only [State.busy]; cases s.eng <;> simp

theorem State.engineDue_iff (s : State) : s.engineDue = true ↔ s.wait = 0 ∨ s.world = [] := by
  simp [State.engineDue]

/-- What one event of the outside world does. -/
theorem worldStep_cases {s t : State} (h : worldStep s = .next t) :
    (s.world = [] ∧ t = s) ∨
    (∃ a v rest, s.world = .write a v :: rest ∧ t = ({ s with world := rest } : State).busWrite a v) ∨
    (∃ w rs, (w = s.world ∨ ∃ e, s.world = e :: w) ∧ t = { s with world := w, replies := rs }) ∨
    (∃ rest, s.world = .rst :: rest ∧ t = ({ s with world := rest } : State).resetBlock) := by
  unfold worldStep at h
  split at h
  · rename_i hw; cases h; exact .inl ⟨hw, rfl⟩
  · rename_i a v rest hw; cases h; exact .inr (.inl ⟨a, v, rest, hw, rfl⟩)
  · rename_i a rest hw; cases h; exact .inr (.inr (.inl ⟨rest, _, .inr ⟨_, hw⟩, rfl⟩))
  · rename_i a m v rest hw
    split at h
    · cases h; exact .inr (.inr (.inl ⟨rest, _, .inr ⟨_, hw⟩, rfl⟩))
    · cases h; exact .inr (.inr (.inl ⟨s.world, _, .inl rfl, rfl⟩))
  · rename_i rest hw
    split at h
    · cases h; exact .inr (.inr (.inl ⟨rest, s.replies, .inr ⟨_, hw⟩, rfl⟩))
    · cases h; exact .inr (.inr (.inl ⟨s.world, s.replies, .inl rfl, rfl⟩))
  · rename_i rest hw; cases h; exact .inr (.inr (.inr ⟨rest, hw, rfl⟩))
  · cases h
  · cases h

/-- What one step is: the completion of the running command when it is due, or one event of the outside world, with one
event less to wait for while a command runs. -/
theorem step_cases {s t : State} (h : step s = .next t) :
    s.cfg.legal = true ∧
    ((∃ op, s.eng = .run op ∧ (s.wait = 0 ∨ s.world = []) ∧ runCommand op s = .next t) ∨
     (s.eng = .idle ∧ worldStep s = .next t) ∨
     (∃ op, s.eng = .run op ∧ s.wait ≠ 0 ∧ s.world ≠ [] ∧ worldStep { s with wait := s.wait - 1 } = .next t)) := by
  unfold step at h
  split at h
  · rename_i hl
    refine ⟨hl, ?_⟩
    unfold agentStep at h
    split at h
    · rename_i he; exact .inr (.inl ⟨he, h⟩)
    · rename_i op he
      split at h
      · rename_i hd; exact .inl ⟨op, he, (State.engineDue_iff s).1 hd, h⟩
      · rename_i hd
        have hd' := mt (State.engineDue_iff s).2 hd
        exact .inr (.inr ⟨op, he, fun e => hd' (.inl e), fun e => hd' (.inr e), h⟩)
  · cases h

/-- The step of a running command whose completion is due (R107). -/
theorem step_due {s : State} {op : Command} (hl : s.cfg.legal = true) (he : s.eng = .run op)
    (hd : s.wait = 0 ∨ s.world = []) : step s = runCommand op s := by
  simp only [step, hl, if_true, agentStep, he, (State.engineDue_iff s).2 hd]

/-- The step of an idle block is the next event's. -/
theorem step_idle {s : State} (hl : s.cfg.legal = true) (he : s.eng = .idle) : step s = worldStep s := by
  simp only [step, hl, if_true, agentStep, he]

/-- The step of a running command whose completion is not due is the next event's. -/
theorem step_wait {s : State} {op : Command} (hl : s.cfg.legal = true) (he : s.eng = .run op)
    (hd : s.wait ≠ 0) (hw : s.world ≠ []) : step s = worldStep { s with wait := s.wait - 1 } := by
  have : s.engineDue = false := by
    cases h : s.engineDue with
    | false => rfl
    | true => rcases (State.engineDue_iff s).1 h with h | h <;> contradiction
  simp only [step, hl, if_true, agentStep, he, this]
  rfl

/-- The step at an event that takes place, in an idle block or while a command runs: the event's, with one event less to
wait for in the latter. -/
theorem step_event {s : State} (hl : s.cfg.legal = true) (hd : s.eng = .idle ∨ s.wait ≠ 0) (hw : s.world ≠ []) :
    step s = worldStep { s with wait := if s.eng = .idle then s.wait else s.wait - 1 } := by
  by_cases he : s.eng = .idle
  · rw [step_idle hl he, if_pos he]
  · obtain ⟨op, ho⟩ := (State.busy_iff s).1 (by simpa using mt (State.busy_eq_false_iff s).1 he)
    rw [step_wait hl ho (hd.resolve_left he) hw, if_neg he]

/-- A run is its first step and then the rest. -/
theorem run_succ {s s' : State} (h : step s = .next s') (k : Nat) :
    Sys2Proof.core.run (k + 1) s = Sys2Proof.core.run k s' := by
  have : Sys2Proof.core.step s = .next s' := h
  simp only [Host.Core.run, this]

theorem run_add (m n : Nat) {s t : State} (h : Sys2Proof.core.run m s = .next t) :
    Sys2Proof.core.run (m + n) s = Sys2Proof.core.run n t := by
  induction m generalizing s with
  | zero => rw [Nat.zero_add]; cases h; rfl
  | succ m ih =>
    rw [show m + 1 + n = (m + n) + 1 by omega]
    cases hs : step s with
    | next s' => rw [run_succ hs] at h ⊢; exact ih h
    | fault f => cases f
    | refused r => simp only [Host.Core.run, show Sys2Proof.core.step s = .refused r from hs] at h; cases h

end Sys2Proof.Machine
end

