-- ==== Sys2Proof/Laws/Walker.lean ====
section
/-!
SUPPORT. The tree walker does what the table match does (42_decode.md R156).
-/

namespace Sys2Proof.Machine

/-- The node a bit string leads to, bit by bit (R156). -/
def Tree.sub : Tree → Bits → Tree
  | t, [] => t
  | t, b :: bs => (t.child b).sub bs

theorem Tree.sub_append (t : Tree) (p q : Bits) : t.sub (p ++ q) = (t.sub p).sub q := by
  induction p generalizing t with
  | nil => rfl
  | cons b p ih => exact ih _

theorem Tree.sub_missing (q : Bits) : Tree.missing.sub q = .missing := by
  induction q with
  | nil => rfl
  | cons b q ih => exact ih

/-- A leaf's path leads to the leaf. -/
theorem Tree.sub_of_path {t : Tree} {i : Nat} {p : Bits} (h : t.path i = some p) : ∃ w, t.sub p = .leaf i w := by
  induction t generalizing p with
  | leaf j w =>
    simp only [Tree.path] at h
    split at h
    · rename_i hij; subst hij; cases h; exact ⟨w, rfl⟩
    · cases h
  | internal w l r ihl ihr =>
    rcases Tree.path_internal h with ⟨q, hq, rfl⟩ | ⟨q, hq, rfl⟩
    · exact ihl hq
    · exact ihr hq
  | missing => cases h

/-- A string that leads to a leaf is the leaf's path. -/
theorem Tree.path_of_sub {t : Tree} (hd : t.entries.Nodup) {i w : Nat} {p : Bits} (h : t.sub p = .leaf i w) :
    t.path i = some p := by
  induction p generalizing t with
  | nil => cases h; simp [Tree.path]
  | cons b p ih =>
    cases t with
    | leaf j v => simp only [Tree.sub, Tree.child, Tree.sub_missing] at h; cases h
    | missing => simp only [Tree.sub, Tree.child, Tree.sub_missing] at h; cases h
    | internal v l r =>
      simp only [Tree.entries, List.nodup_append] at hd
      cases b with
      | false => exact Tree.path_left (ih hd.1 h)
      | true =>
        have := ih hd.2.1 h
        exact Tree.path_right (fun hl => hd.2.2 i hl i (Tree.mem_entries_of_path this) rfl) this

/-- From an internal node of a full subtree some leaf is below. -/
theorem Tree.path_below {w : Nat} {l r : Tree} (hf : (Tree.internal w l r).full = true) :
    ∃ i v q, q ≠ [] ∧ (Tree.internal w l r).sub q = .leaf i v := by
  have key : ∀ t : Tree, t.full = true → ∃ i v q, t.sub q = .leaf i v := by
    intro t ht
    induction t with
    | leaf i v => exact ⟨i, v, [], rfl⟩
    | missing => cases ht
    | internal w l r ihl _ =>
      simp only [Tree.full, Bool.and_eq_true] at ht
      obtain ⟨i, v, q, h⟩ := ihl ht.1
      exact ⟨i, v, false :: q, h⟩
  simp only [Tree.full, Bool.and_eq_true] at hf
  obtain ⟨i, v, q, h⟩ := key l hf.1
  exact ⟨i, v, false :: q, by simp, h⟩

theorem Tree.sub_full {t : Tree} (h : t.full = true) (p : Bits) : t.sub p = .missing ∨ (t.sub p).full = true := by
  induction p generalizing t with
  | nil => exact .inr h
  | cons b p ih =>
    cases t with
    | leaf j v => simp [Tree.sub, Tree.child, Tree.sub_missing]
    | missing => cases h
    | internal v l r =>
      simp only [Tree.full, Bool.and_eq_true] at h
      cases b with
      | false => exact ih h.1
      | true => exact ih h.2

/-- The walker on a tree whose leaves' paths are the entries' codes does what the table match does (R156). -/
theorem treeWalk_eq_walk {entries : List Entry} {root : Tree} (symOf : Nat → Sym) (outMax : Nat)
    (hcodes : ∀ i e, entries[i]? = some e → root.path i = some e.code ∧ symOf i = e.sym)
    (hrange : ∀ i ∈ root.entries, i < entries.length) (hd : root.entries.Nodup)
    (hsub : ∀ p w l r, p ≠ [] → root.sub p = .internal w l r → (Tree.internal w l r).full = true)
    (body buf : Bits) (out : List Sym) (here : Tree) (hh : here = root.sub buf) (atRoot : Bool)
    (hr : atRoot = true ↔ buf = []) :
    treeWalk symOf outMax root body here atRoot out = walk entries outMax body buf out := by
  have hentry : ∀ e ∈ entries, ∃ i w, root.sub e.code = .leaf i w := by
    intro e he
    obtain ⟨i, hi⟩ := List.mem_iff_getElem?.1 he
    obtain ⟨w, hw⟩ := Tree.sub_of_path (hcodes i e hi).1
    exact ⟨i, w, hw⟩
  induction body generalizing buf out here atRoot with
  | nil => simp only [treeWalk, walk, hr]
  | cons b bs ih =>
    have hchild : here.child b = root.sub (buf ++ [b]) := by rw [Tree.sub_append, hh]; rfl
    simp only [treeWalk, walk, hchild]
    cases ht : root.sub (buf ++ [b]) with
    | leaf i w =>
      have hp := Tree.path_of_sub hd ht
      have hi := hrange i (Tree.mem_entries_of_path hp)
      obtain ⟨hc, hs⟩ := hcodes i entries[i] (List.getElem?_eq_getElem hi)
      have hcode : entries[i].code = buf ++ [b] := by rw [hp] at hc; exact (Option.some.inj hc).symm
      have hm : matchCode entries (buf ++ [b]) = some entries[i] := by
        cases hm : matchCode entries (buf ++ [b]) with
        | none => exact absurd hcode (matchCode_none.1 hm _ (List.getElem_mem hi))
        | some e =>
          have hec : e.code = buf ++ [b] := by simpa [matchCode] using List.find?_some hm
          obtain ⟨j, hj⟩ := List.mem_iff_getElem?.1 (List.mem_of_find?_eq_some hm)
          have hj' := (hcodes j e hj).1
          obtain ⟨v, hv⟩ := Tree.sub_of_path hj'
          rw [hec, ht] at hv
          cases hv
          rw [List.getElem?_eq_getElem hi] at hj
          rw [Option.some.inj hj]
      rw [hm]
      dsimp only
      rw [hs]
      split
      · rfl
      · exact ih [] _ _ rfl true (by simp)
    | internal w l r =>
      have hm : matchCode entries (buf ++ [b]) = none := by
        refine matchCode_none.2 fun e he hec => ?_
        obtain ⟨i, v, hv⟩ := hentry e he
        rw [hec, ht] at hv; cases hv
      have hb : beginsCode entries (buf ++ [b]) = true := by
        obtain ⟨i, v, q, hq, hv⟩ := Tree.path_below (hsub _ _ _ _ (by simp) ht)
        have hv' : root.sub ((buf ++ [b]) ++ q) = .leaf i v := by rw [Tree.sub_append, ht, hv]
        have hp := Tree.path_of_sub hd hv'
        have hi := hrange i (Tree.mem_entries_of_path hp)
        obtain ⟨hc, -⟩ := hcodes i entries[i] (List.getElem?_eq_getElem hi)
        rw [hp] at hc
        have hc' : (buf ++ [b]) ++ q = entries[i].code := Option.some.inj hc
        refine beginsCode_iff.2 ⟨entries[i], List.getElem_mem hi, ⟨q, hc'⟩, ?_⟩
        have := List.length_pos_of_ne_nil hq
        rw [← hc']
        simp only [List.length_append]
        omega
      simp only [hm, hb, if_true]
      exact ih (buf ++ [b]) _ _ ht.symm false (by simp)
    | missing =>
      have hno : ∀ e ∈ entries, ¬ (buf ++ [b]) <+: e.code := by
        rintro e he ⟨q, hq⟩
        obtain ⟨i, v, hv⟩ := hentry e he
        rw [← hq, Tree.sub_append, ht, Tree.sub_missing] at hv
        cases hv
      have hm : matchCode entries (buf ++ [b]) = none := by
        refine matchCode_none.2 fun e he hec => hno e he ?_
        rw [hec]
      have hb : beginsCode entries (buf ++ [b]) = false := by
        cases hb : beginsCode entries (buf ++ [b]) with
        | false => rfl
        | true =>
          obtain ⟨e, he, hp, -⟩ := beginsCode_iff.1 hb
          exact absurd hp (hno e he)
      simp only [hm, hb]
      rfl

end Sys2Proof.Machine
end

