-- ==== Sys2Proof/Tests/Slice0.lean ====
section
/-!
SUPPORT. Tests of single steps, each with its source in spec/, and for every statement with hypotheses a witness: a
concrete state and operands that meet them together, one for each clause.
-/

namespace Sys2Proof.Tests

open Sys2Proof Sys2Proof.Machine

/-- A field of the next state, when there is one. -/
def after {α : Type} (o : Host.Outcome State Fault Refusal) (f : State → α) : Option α :=
  match o with
  | .next s => some (f s)
  | _ => none

theorem next_of_after {α : Type} {o : Host.Outcome State Fault Refusal} {f : State → α} {a : α}
    (h : after o f = some a) : ∃ t, o = .next t ∧ f t = a := by
  cases o with
  | next t => exact ⟨t, rfl, Option.some.inj h⟩
  | fault r => cases h
  | refused r => cases h

/-- A memory with the given words from word 0 on. -/
def memoryOf {w : Nat} (vs : List (BitVec w)) : Memory w :=
  { draw := 0, cells := vs.zipIdx.map fun vi => (vi.2, vi.1) }

/-- An idle block with a text in SYM_MEM and its length in IN_LEN. -/
def withText (text : List Sym) : State :=
  { State.reset with symMem := memoryOf text, inLen := BitVec.ofNat 32 text.length }

/-- "aabbbcccc" (SRC-1). -/
def textSrc1 : List Sym := [0x61, 0x61, 0x62, 0x62, 0x62, 0x63, 0x63, 0x63, 0x63]

/-- The table of SRC-1 and ENC-1: a "10", b "11", c "0". -/
def tableSrc1 : List Entry :=
  [{ sym := 0x61, freq := 2, code := [true, false] }, { sym := 0x62, freq := 3, code := [true, true] },
   { sym := 0x63, freq := 4, code := [false] }]

/-- A block with the table of SRC-1 and the given artifact bytes (spec/95_test_vectors.md 2.6.1). -/
def withArtifact (bytes : List Byte) : State :=
  { State.reset with tv := true, table := tableSrc1, packMem := memoryOf bytes,
                     packLen := BitVec.ofNat 32 bytes.length, encBits := 14, encPad := 2 }

/-- The block with a command running and `n` events still let through. -/
def running (op : Command) (n : Nat) (s : State) : State := { s with eng := .run op, wait := n }

/-- The block with events to come. -/
def facing (world : List Event) (s : State) : State := { s with world := world }

/-! ### Well-formedness: what each check refuses -/

theorem test_wellformed_every_command :
    Instr.clear.wellFormed = true ∧ Instr.encode.wellFormed = true ∧ Instr.decode.wellFormed = true := by decide

/-- R86: a nonzero RSV bit, lowest and highest. -/
theorem test_rsv_refused : rsvIsZero 0x00000012#32 = false ∧ rsvIsZero 0x80000001#32 = false := by decide

/-- R87, R88: OP 0x0, 0x4 and 0xF. -/
theorem test_op_refused :
    opIsAssigned 0x00000000#32 = false ∧ opIsAssigned 0x00000004#32 = false ∧ opIsAssigned 0x0000000F#32 = false := by
  decide

theorem test_command_word_refused :
    commandWordOk 0x00000012#32 = false ∧ commandWordOk 0x00000004#32 = false ∧ commandWordOk 0x00000002#32 = true := by
  decide

/-- R7: each capacity one below and one above its range. -/
theorem test_nsym_refused :
    Config.Params.nsymOk ⟨0, 1, 2, 1⟩ = false ∧ Config.Params.nsymOk ⟨257, 1, 2, 1⟩ = false := by decide

theorem test_in_refused :
    Config.Params.inOk ⟨1, 0, 2, 1⟩ = false ∧ Config.Params.inOk ⟨1, 262145, 2, 1⟩ = false := by decide

theorem test_pack_refused :
    Config.Params.packOk ⟨1, 1, 1, 1⟩ = false ∧ Config.Params.packOk ⟨1, 1, 262145, 1⟩ = false := by decide

theorem test_out_refused :
    Config.Params.outOk ⟨1, 1, 2, 0⟩ = false ∧ Config.Params.outOk ⟨1, 1, 2, 262145⟩ = false := by decide

theorem test_params_refused :
    Config.Params.legal ⟨1, 1, 1, 1⟩ = false ∧ Config.Params.legal ⟨1, 1, 2, 1⟩ = true ∧
    Config.Params.legal ⟨256, 262144, 262144, 262144⟩ = true := by decide

theorem test_step_refuses_illegal_parameters :
    step { State.reset with cfg := ⟨0, 1, 2, 1⟩ } = .refused .parameterOutOfRange := by rfl

/-! ### Decoding: words written out from R86 and R87 (OP in bits 3:0, RSV 0) -/

theorem test_decode_word_clear : decodeCmd 0b00000000000000000000000000000001#32 = .instr .clear := by decide

theorem test_decode_word_encode : decodeCmd 0b00000000000000000000000000000010#32 = .instr .encode := by decide

theorem test_decode_word_decode : decodeCmd 0b00000000000000000000000000000011#32 = .instr .decode := by decide

/-- spec/95_test_vectors.md 2.1: OP 2 with RSV nonzero. -/
theorem test_decode_word_illegal : decodeCmd 0b00000000000000000000000000010010#32 = .illegal 0x12#32 := by decide

theorem test_decode_table_word :
    decodeTableWord 32 1 = some .clear ∧ decodeTableWord 32 2 = some .encode ∧ decodeTableWord 32 3 = some .decode ∧
    decodeTableWord 32 18 = none := by decide

/-! ### CLEAR and illegal words (spec/95_test_vectors.md 2.1, 2.2) -/

theorem test_clear_after_src1 :
    after (exec .clear (withArtifact [0x02, 0xAF, 0xC0])) (fun s => (s.ndist, s.packLen, s.encBits, s.encPad, s.readPack 1))
      = some (0, 0#32, 0#32, 0#4, 0xAF#8) := by decide

theorem test_clear_keeps_ovr :
    after (exec .clear { State.reset with ovr := true }) (·.busRead 0x024#22) = some 0x0000000A#32 := by decide

theorem test_illegal_word :
    after (step ((withArtifact [0x02, 0xAF, 0xC0]).withFetchWord 32 0x12))
      (fun s => (s.busRead 0x024#22, s.busRead 0x02C#22, s.busRead 0x030#22)) = some (0x16#32, 4#32, 0x12#32) := by decide

/-! ### ENCODE (spec/95_test_vectors.md 2.3) -/

/-- ENC-1. -/
theorem test_encode_src1 :
    after (step ((withText textSrc1).withFetchWord 32 2))
      (fun s => (s.table, s.encBits, s.encPad, s.artifact)) =
      some (tableSrc1, 14#32, 2#4, [0x02#8, 0xAF#8, 0xC0#8]) := by decide +kernel

/-- ENC-8, "abcde": the tie-breaks, worked in the spec. -/
theorem test_encode_ties :
    after (exec .encode (withText [0x61, 0x62, 0x63, 0x64, 0x65])) (fun s => (s.codes, s.artifact)) =
      some ([[true, true, false], [true, true, true], [false, false], [false, true], [true, false]],
        [0x04#8, 0xDC#8, 0x60#8]) := by decide +kernel

/-! ### DECODE (spec/95_test_vectors.md 2.6.1) -/

/-- DEC-2: the padding bits are ignored. -/
theorem test_decode_src1 :
    after (step ((withArtifact [0x02, 0xAF, 0xC3]).withFetchWord 32 3))
      (fun s => (s.outLen, (List.range 9).map s.readOut, s.busRead 0x024#22)) = some (9#32, textSrc1, 0x12#32) := by
  decide +kernel

/-- DEC-15: a leftover partial code. -/
theorem test_decode_leftover :
    after (exec .decode (withArtifact [0x07, 0x80])) (fun s => (s.outLen, s.errCode, s.errInfo)) =
      some (0#32, 3#4, 5#32) := by decide +kernel

/-! ### The bus (spec/95_test_vectors.md 2.5, 2.7) -/

/-- 2.5, index 1 of ENC-1's table. -/
theorem test_table_read_back :
    (let s := { withArtifact [] with tblIdx := 1#32 }
     (s.busRead 0x054#22, s.busRead 0x058#22, s.busRead 0x05C#22, s.busRead 0x060#22, s.busRead 0x064#22)) =
      (0x62#32, 3#32, 2#32, 0xC0000000#32, 0#32) := by decide

/-- BUS-8, BUS-10. -/
theorem test_sym_word_keeps_21_bits :
    ((State.reset.busWrite 0x100000#22 0xFFFFFFFF#32).busRead 0x100000#22,
     (State.reset.busWrite 0x100003#22 0x61#32).busRead 0x100000#22) = (0x1FFFFF#32, 0x61#32) := by decide

/-- BUS-15 to BUS-17: STATUS is W1C in bits 1 and 3 alone. -/
theorem test_status_w1c :
    (let s := { withArtifact [] with done := true, ovr := true }
     ((s.busWrite 0x024#22 0x2#32).busRead 0x024#22, (s.busWrite 0x024#22 0x8#32).busRead 0x024#22,
      ({ s with ovr := false, errCode := 3#4 }.busWrite 0x024#22 0xFFFFFFFF#32).busRead 0x024#22)) =
      (0x18#32, 0x12#32, 0x14#32) := by decide

/-- BSY-5: a write of IN_LEN while BUSY is ignored, and BSY-3: it reads 0. -/
theorem test_busy_hides_in_len :
    (let s := (running (.instr .encode) 3 (withText textSrc1)).busWrite 0x034#22 1#32
     (s.inLen, s.busRead 0x034#22)) = (9#32, 0#32) := by decide

/-! ### Witnesses of the statements' hypotheses -/

theorem witness_DecodeAndEncodeAgree :
    Instr.clear.wellFormed = true ∧ decodeCmd 0x00000003#32 = .instr .decode ∧
    ∀ i : Instr, (0x00000004#32 : Word) ≠ encode i := ⟨rfl, rfl, fun i => by cases i <;> decide⟩

theorem witness_StepRunsTheCommand :
    (let s := running (.instr .encode) 0 (withText textSrc1)
     s.cfg.legal = true ∧ s.eng = .run (.instr .encode) ∧ s.wait = 0) ∧
    (let s := running (.illegal 4#32) 7 State.reset
     s.cfg.legal = true ∧ s.eng = .run (.illegal 4#32) ∧ s.world = []) ∧
    State.reset.cfg.legal = true ∧ decodeCmd 0x00000001#32 = .instr .clear := by decide

theorem witness_IllegalWordCompletes :
    (0x00000000#32 : Word) ≠ 1#32 ∧ (0x00000000#32 : Word) ≠ 2#32 ∧ (0x00000000#32 : Word) ≠ 3#32 ∧
    (0x00000004#32 : Word) ≠ 1#32 ∧ (0x00000004#32 : Word) ≠ 2#32 ∧ (0x00000004#32 : Word) ≠ 3#32 := by decide

theorem witness_CmdWriteIsAccepted :
    (let s := facing [.write 0x02B#22 2#32] (withText textSrc1)
     s.cfg.legal = true ∧ s.eng = .idle ∧ s.world = .write 0x02B#22 2#32 :: [] ∧ wordAddress 0x02B#22 = 0x028) := by
  decide

theorem witness_CmdWriteWhileBusyIsDropped :
    (let s := running (.instr .encode) 1 (facing [.write 0x028#22 1#32] (withText textSrc1))
     s.cfg.legal = true ∧ s.eng = .run (.instr .encode) ∧ s.wait ≠ 0 ∧ s.world = .write 0x028#22 1#32 :: [] ∧
     wordAddress 0x028#22 = 0x028) := by decide

theorem witness_ReadHasNoSideEffect :
    (let s := facing [.read 0x100000#22] (withText textSrc1)
     s.cfg.legal = true ∧ s.eng = .idle ∧ s.world = .read 0x100000#22 :: []) ∧
    (let s := running (.instr .encode) 1 (facing [.read 0x100000#22] (withText textSrc1))
     s.cfg.legal = true ∧ s.wait ≠ 0 ∧ s.world = .read 0x100000#22 :: []) := by decide

theorem witness_PollRepeatsUntilItMatches :
    (let s := facing [.poll 0x024#22 1#32 0#32] State.reset
     s.cfg.legal = true ∧ s.eng = .idle ∧ s.world = .poll 0x024#22 1#32 0#32 :: [] ∧
     s.busRead 0x024#22 &&& 1#32 = 0#32) ∧
    (let s := facing [.poll 0x024#22 2#32 2#32] State.reset
     s.cfg.legal = true ∧ s.eng = .idle ∧ s.world = .poll 0x024#22 2#32 2#32 :: [] ∧
     s.busRead 0x024#22 &&& 2#32 ≠ 2#32) ∧
    (let s := running (.instr .encode) 1 (facing [.poll 0x024#22 1#32 0#32] (withText textSrc1))
     s.cfg.legal = true ∧ s.wait ≠ 0 ∧ s.world = .poll 0x024#22 1#32 0#32 :: [] ∧
     s.busRead 0x024#22 &&& 1#32 ≠ 0#32) ∧
    (let s := running (.instr .encode) 1 (facing [.poll 0x020#22 1#32 0#32] (withText textSrc1))
     s.cfg.legal = true ∧ s.wait ≠ 0 ∧ s.world = .poll 0x020#22 1#32 0#32 :: [] ∧
     s.busRead 0x020#22 &&& 1#32 = 0#32) := by decide

theorem witness_EngineChangesOnlyByItsThreeEvents :
    (∃ s t : State, step s = .next t ∧ s.eng = .idle ∧ t.eng = .run (.instr .clear)) ∧
    (∃ s t : State, step s = .next t ∧ s.eng = .run (.instr .clear) ∧ t.eng = .idle) :=
  ⟨⟨facing [.write 0x028#22 1#32] State.reset, _, rfl, rfl, rfl⟩,
   ⟨running (.instr .clear) 0 State.reset, _, rfl, rfl, rfl⟩⟩

theorem witness_StepRefusesOnlyWhatTheSpecKeepsOutside :
    (∃ s : State, step s = .refused .parameterOutOfRange) ∧
    (∃ s : State, step s = .refused .subwordTransaction) ∧ (∃ s : State, step s = .refused .secondBusMaster) :=
  ⟨⟨{ State.reset with cfg := ⟨0, 1, 2, 1⟩ }, rfl⟩, ⟨facing [.subword 0x024#22 1] State.reset, rfl⟩,
   ⟨facing [.secondMaster 0x024#22] State.reset, rfl⟩⟩

theorem witness_EncodeCompresses :
    (let s := withText textSrc1
     let raw := s.inputText.flatMap (codeOf (textTable s.inputText))
     1 ≤ s.inLen.toNat ∧ s.inLen.toNat ≤ s.cfg.inMax ∧ s.inputText.eraseDups.length ≤ s.cfg.nsymMax ∧
     1 + (raw.length + (8 - raw.length % 8)) / 8 ≤ s.cfg.packMax) := by decide +kernel

/-- At the capacity itself: IN_MAX = 4 with "abcd" runs, 5 does not (spec/95_test_vectors.md 2.4). -/
theorem witness_EncodeLengthChecks :
    (let s : State := { State.reset with cfg := ⟨256, 4, 16384, 4096⟩, inLen := 5#32 }
     s.cfg.inMax < s.inLen.toNat) ∧ State.reset.inLen = 0#32 := by decide

/-- ENE-4: NSYM_MAX = 2, "abc". -/
theorem witness_EncodeSymbolCapacity :
    (let s : State := { withText [0x61, 0x62, 0x63] with cfg := ⟨2, 4096, 16384, 4096⟩ }
     s.inLen.toNat ≤ s.cfg.inMax ∧ s.inputText = [0x61, 0x62] ++ 0x63 :: [] ∧ (0x63 : Sym) ∉ [(0x61 : Sym), 0x62] ∧
     ([0x61, 0x62] : List Sym).eraseDups.length = s.cfg.nsymMax) := by decide

/-- ENE-6: PACK_MAX = 2, "abababab". -/
theorem witness_EncodeOutputCapacity :
    (let s : State := { withText [0x61, 0x62, 0x61, 0x62, 0x61, 0x62, 0x61, 0x62] with cfg := ⟨256, 4096, 2, 4096⟩ }
     let L := (s.inputText.flatMap (codeOf (textTable s.inputText))).length
     1 ≤ s.inLen.toNat ∧ s.inLen.toNat ≤ s.cfg.inMax ∧ s.inputText.eraseDups.length ≤ s.cfg.nsymMax ∧
     s.cfg.packMax < 1 + (L + (8 - L % 8)) / 8) := by decide +kernel

theorem witness_DuplicateCodeIsNeverRaised : ∃ t, exec .encode (withText textSrc1) = .next t := ⟨_, rfl⟩

theorem encode_src1_succeeds : ∃ t, exec .encode (withText textSrc1) = .next t ∧ t.errCode = 0#4 :=
  next_of_after (by decide +kernel)

theorem witness_EncodeLeavesAValidTable :
    ∃ s t : State, s.cfg.legal = true ∧ exec .encode s = .next t ∧ t.errCode = 0#4 := by
  obtain ⟨t, h1, h2⟩ := encode_src1_succeeds
  exact ⟨_, t, by decide, h1, h2⟩

theorem witness_RarerSymbolsHaveNoShorterCodes :
    ∃ s t : State, s.cfg.legal = true ∧ exec .encode s = .next t ∧ t.errCode = 0#4 ∧
      ∃ e ∈ t.table, ∃ e' ∈ t.table, e.freq.toNat < e'.freq.toNat := by
  obtain ⟨t, h1, h2⟩ := next_of_after (o := exec .encode (withText textSrc1))
    (f := fun t => (t.errCode, t.table)) (a := (0#4, tableSrc1)) (by decide +kernel)
  obtain ⟨h3, h4⟩ := Prod.mk.inj h2
  refine ⟨_, t, by decide, h1, h3, ?_⟩
  rw [h4]
  decide

theorem witness_EncodeWritesTheArtifact :
    (∃ s t : State, s.cfg.legal = true ∧ exec .encode s = .next t ∧ t.errCode = 0#4) ∧
    (∃ s t : State, s.cfg.legal = true ∧ exec .encode s = .next t ∧ t.errCode ≠ 0#4) :=
  ⟨witness_EncodeLeavesAValidTable, ⟨State.reset, _, by decide, rfl, by decide⟩⟩

/-- "ab" again, with another word beyond the text. -/
def otherAb : State := { withText [0x61, 0x62, 0x7A] with inLen := 2#32 }

theorem witness_EncodeDependsOnItsInputsOnly :
    ∃ s₁ s₂ t₁ t₂ : State, s₁ ≠ s₂ ∧ s₁.cfg = s₂.cfg ∧ s₁.inLen = s₂.inLen ∧
      (∀ j < s₁.inLen.toNat, s₁.readSym j = s₂.readSym j) ∧ exec .encode s₁ = .next t₁ ∧
      exec .encode s₂ = .next t₂ ∧ t₁.errCode = 0#4 := by
  obtain ⟨t₁, h1, h2⟩ := next_of_after (o := exec .encode (withText [0x61, 0x62])) (f := (·.errCode)) (a := 0#4)
    (by decide +kernel)
  obtain ⟨t₂, h3⟩ := runCommand_completes (.instr .encode) otherAb
  exact ⟨withText [0x61, 0x62], otherAb, t₁, t₂, by decide, rfl, rfl, by decide, h1, h3, h2⟩

theorem witness_CodesArePathsOfTheTree : 1 ≤ ([4] : List Nat).length ∧ 1 ≤ ([2, 3, 4] : List Nat).length := by decide

theorem witness_TreeWalkerRefinesTheTableMatch :
    tableSrc1.map (·.code) = build [2, 3, 4] ∧ ([] : List Entry).map (·.code) = build [] := by decide +kernel

/-- The symbols of DEC-1 as entries. -/
def entriesSrc1 : List Entry := textSrc1.filterMap fun x => tableSrc1.find? (·.sym == x)

theorem usable_src1 (bytes : List Byte) : (withArtifact bytes).codesUsable := by
  constructor
  · show codesPrefixFree (tableSrc1.map (·.code))
    simp only [codesPrefixFree]; decide
  · show ∀ c ∈ tableSrc1.map (·.code), 1 ≤ c.length
    decide

theorem witness_DecodeOutputsTheSymbols :
    (let s := withArtifact [0x02, 0xAF, 0xC0]
     s.codesUsable ∧ s.bodyReadable ∧ (∀ e ∈ entriesSrc1, e ∈ s.validEntries) ∧
     s.body = entriesSrc1.flatMap (·.code) ∧ entriesSrc1.length ≤ s.cfg.outMax) := by
  refine ⟨usable_src1 _, ?_⟩
  simp only [State.bodyReadable]
  decide +kernel

/-- DEC-19, DEC-10, DEC-11 and DEC-14. -/
theorem witness_DecodeHeaderChecks :
    (let s : State := { State.reset with packLen := 0xFFFFFFFF#32 }
     s.cfg.packMax < s.packLen.toNat) ∧
    State.reset.packLen = 0#32 ∧
    (let s := withArtifact [0x09, 0x00]
     1 ≤ s.packLen.toNat ∧ s.packLen.toNat ≤ s.cfg.packMax ∧ 8 < (s.readPack 0).toNat) ∧
    (let s := withArtifact [0x01]
     s.packLen = 1#32 ∧ 1 ≤ s.cfg.packMax ∧ 1 ≤ (s.readPack 0).toNat ∧ (s.readPack 0).toNat ≤ 8) ∧
    (let s := withArtifact [0x08]
     s.packLen = 1#32 ∧ 1 ≤ s.cfg.packMax ∧ 1 ≤ (s.readPack 0).toNat ∧ (s.readPack 0).toNat ≤ 8) := by decide

/-- DEC-16: OUT_MAX = 4 holds fewer symbols than the artifact has. -/
theorem witness_DecodeWalkErrors_overflow :
    (let s : State := { withArtifact [0x02, 0xAF, 0xC0] with cfg := ⟨256, 4096, 16384, 8⟩ }
     s.codesUsable ∧ s.bodyReadable ∧ (∀ e ∈ entriesSrc1, e ∈ s.validEntries) ∧
     s.body = entriesSrc1.flatMap (·.code) ++ [] ∧ s.cfg.outMax < entriesSrc1.length) := by
  refine ⟨usable_src1 [0x02, 0xAF, 0xC0], ?_⟩
  simp only [State.bodyReadable]
  decide +kernel

/-- DEC-24: the table of ENC-2 (a "0") and a body bit 1. -/
def loneEntry : Entry := { sym := 0x61, freq := 4, code := [false] }

def withLoneTable (bytes : List Byte) : State :=
  { withArtifact bytes with table := [loneEntry], encBits := 4, encPad := 4 }

theorem witness_DecodeWalkErrors_none :
    (let s := withLoneTable [0x04, 0x40]
     s.codesUsable ∧ s.bodyReadable ∧ (∀ e ∈ [loneEntry], e ∈ s.validEntries) ∧
     s.body = [loneEntry].flatMap (·.code) ++ ([] ++ true :: [false, false]) ∧ [loneEntry].length ≤ s.cfg.outMax ∧
     (∀ c ∈ s.codes, ¬ c <+: [] ++ [true]) ∧ (∀ c ∈ s.codes, ¬ [] ++ [true] <+: c)) := by
  simp only [State.bodyReadable, State.codesUsable, codesPrefixFree]
  decide +kernel

/-- DEC-15. -/
theorem witness_DecodeWalkErrors_leftover :
    (let s := withArtifact [0x07, 0x80]
     s.codesUsable ∧ s.bodyReadable ∧ s.body = ([] : List Entry).flatMap (·.code) ++ [true] ∧
     ([] : List Entry).length ≤ s.cfg.outMax ∧ ([true] : Bits) ≠ [] ∧
     ∃ c ∈ s.codes, [true] <+: c ∧ [true] ≠ c) := by
  refine ⟨usable_src1 _, ?_⟩
  simp only [State.bodyReadable]
  decide +kernel

/-- DEC-29 and DEC-27. -/
theorem witness_DecodeWithoutATable :
    (let s := { withArtifact [0x08, 0x00] with tv := false, table := [] }
     s.tv = false ∧ s.bodyReadable ∧ s.body = []) ∧
    (let s := { withArtifact [0x07, 0x00] with tv := false, table := [] }
     s.tv = false ∧ s.bodyReadable ∧ s.body ≠ []) := by
  simp only [State.bodyReadable]
  decide +kernel

theorem decode_src1_succeeds :
    ∃ t, exec .decode (withArtifact [0x02, 0xAF, 0xC0]) = .next t ∧ t.errCode = 0#4 :=
  next_of_after (by decide +kernel)

theorem witness_DecodeConsumesTheWholeBody :
    ∃ s t : State, s.cfg.legal = true ∧ (s.validEntries.map (·.sym)).Nodup ∧ exec .decode s = .next t ∧
      t.errCode = 0#4 := by
  obtain ⟨t, h1, h2⟩ := decode_src1_succeeds
  exact ⟨_, t, by decide, by decide, h1, h2⟩

theorem witness_DecodeUndoesEncode :
    (∃ s t u : State, s.cfg.legal = true ∧ exec .encode s = .next t ∧ t.errCode = 0#4 ∧ u ≠ t ∧ u.cfg = t.cfg ∧
      u.tv = t.tv ∧ u.table = t.table ∧ u.packLen = t.packLen ∧ (∀ k < t.packLen.toNat, u.readPack k = t.readPack k) ∧
      s.inLen.toNat ≤ s.cfg.outMax) ∧
    (∃ s t u : State, s.cfg.legal = true ∧ exec .encode s = .next t ∧ t.errCode = 0#4 ∧ u.cfg = t.cfg ∧
      u.tv = t.tv ∧ u.table = t.table ∧ u.packLen = t.packLen ∧ (∀ k < t.packLen.toNat, u.readPack k = t.readPack k) ∧
      s.cfg.outMax < s.inLen.toNat) := by
  constructor
  · obtain ⟨t, h1, h2⟩ := encode_src1_succeeds
    refine ⟨_, t, { t with inLen := t.inLen + 1#32 }, by decide, h1, h2, fun h => ?_, rfl, rfl, rfl, rfl,
      fun _ _ => rfl, by decide⟩
    have h3 := congrArg State.inLen h
    simp at h3
  · obtain ⟨t, h1, h2⟩ := next_of_after
      (o := exec .encode { withText [0x61, 0x62] with cfg := ⟨256, 4096, 16384, 1⟩ }) (f := (·.errCode)) (a := 0#4)
      (by decide +kernel)
    exact ⟨_, t, t, by decide, h1, h2, rfl, rfl, rfl, rfl, fun _ _ => rfl, by decide⟩

theorem tableInv_src1 (bytes : List Byte) : (withArtifact bytes).TableInv where
  validIff := ⟨fun _ => (by decide : tableSrc1 ≠ []), fun _ => rfl⟩
  size := (by decide : tableSrc1.length ≤ 256)
  symsDistinct := (by decide : (tableSrc1.map (·.sym)).Nodup)
  freqPos := (by decide : ∀ e ∈ tableSrc1, 1 ≤ e.freq.toNat)
  freqSum := (by decide : (tableSrc1.map (·.freq.toNat)).sum ≤ 4096)
  codePos := (by decide : ∀ e ∈ tableSrc1, 1 ≤ e.code.length)
  codeLen := (by decide : ∀ e ∈ tableSrc1, e.code.length ≤ max 1 (tableSrc1.length - 1))
  free := (usable_src1 bytes).1
  complete := fun _ s => by
    show ∃ c ∈ tableSrc1.map (·.code), c <+: s ∨ s <+: c
    match s with
    | [] => exact ⟨[false], by decide, by simp⟩
    | false :: s => exact ⟨[false], by decide, .inl ⟨s, rfl⟩⟩
    | [true] => exact ⟨[true, false], by decide, by simp⟩
    | true :: false :: s => exact ⟨[true, false], by decide, .inl ⟨s, rfl⟩⟩
    | true :: true :: s => exact ⟨[true, true], by decide, .inl ⟨s, rfl⟩⟩
  single := fun h => absurd (show tableSrc1.length = 1 from h) (by decide)
  bits := (by decide : (14#32).toNat = (tableSrc1.map fun e => e.freq.toNat * e.code.length).sum)
  pad := fun _ => (by decide : (2#4).toNat = 8 - (14#32).toNat % 8)
  padZero := fun h => absurd (show true = false from h) (by decide)

theorem witness_TwoEntriesNeverBeginNoCode :
    ∃ s t : State, s.TableInv ∧ 2 ≤ s.table.length ∧ exec .decode s = .next t := by
  obtain ⟨t, h, -⟩ := decode_src1_succeeds
  exact ⟨_, t, tableInv_src1 _, by decide, h⟩

/-- DEC-1 and DEC-2 differ in the padding bits only. -/
theorem witness_PaddingBitsChangeNothing :
    (let s := withArtifact [0x02, 0xAF, 0xC0]
     let m : Memory 8 := memoryOf [0x02, 0xAF, 0xC3]
     m ≠ s.packMem ∧ m.read Config.freePackWord 0 = s.readPack 0 ∧
     (unpackBytes ((List.range s.packLen.toNat).map (m.read Config.freePackWord))).take
        (8 * s.packLen.toNat - s.header) =
      (unpackBytes s.artifact).take (8 * s.packLen.toNat - s.header)) ∧
    ∃ t, exec .decode (withArtifact [0x02, 0xAF, 0xC0]) = .next t ∧ t.errCode = 0#4 :=
  ⟨by decide +kernel, decode_src1_succeeds⟩

/-- The artifact of SRC-1 again, with another IN_LEN and another word beyond the artifact. -/
def otherSrc1 : State :=
  { withArtifact [0x02, 0xAF, 0xC0] with inLen := 7#32, packMem := memoryOf [0x02, 0xAF, 0xC0, 0x11] }

theorem witness_DecodeDependsOnItsInputsOnly :
    ∃ s₁ s₂ t₁ t₂ : State, s₁ ≠ s₂ ∧ s₁.cfg = s₂.cfg ∧ s₁.packLen = s₂.packLen ∧ s₁.tv = s₂.tv ∧
      s₁.table = s₂.table ∧ (∀ k < s₁.packLen.toNat, s₁.readPack k = s₂.readPack k) ∧
      exec .decode s₁ = .next t₁ ∧ exec .decode s₂ = .next t₂ ∧ t₁.errCode = 0#4 := by
  obtain ⟨t₁, h1, h2⟩ := decode_src1_succeeds
  obtain ⟨t₂, h3⟩ := runCommand_completes (.instr .decode) otherSrc1
  exact ⟨withArtifact [0x02, 0xAF, 0xC0], otherSrc1, t₁, t₂, by decide, rfl, rfl, rfl, rfl, by decide, h1, h3, h2⟩

theorem witness_CommandsWriteOnlyTheirOwn (i : Instr) : ∃ t, exec i (withArtifact [0x02, 0xAF, 0xC0]) = .next t :=
  runCommand_completes (.instr i) _

theorem witness_RaisedErrorsAreReported :
    encodeResult State.reset = .error { cause := .emptyInput, info := 0#32 } ∧
    unpackBody State.reset = .error (corrupt 1#32) ∧
    (∃ body, unpackBody (withArtifact [0x07, 0x80]) = .ok body ∧
      walk (withArtifact [0x07, 0x80]).validEntries 4096 body [] [] = .error (corrupt 5#32)) ∧
    ∃ t, execIllegal 4#32 State.reset = .next t := ⟨rfl, rfl, ⟨[true], rfl, rfl⟩, _, rfl⟩

/-- ENCODE's phases: EMPTY_INPUT of the reset state; ENE-4, NSYM_MAX = 2 and "abc"; two equal codes; ENE-6, PACK_MAX = 2
and "abababab". -/
theorem witness_FailuresNameTheirStage_encode :
    checkInput State.reset.cfg State.reset.inLen = .error { cause := .emptyInput, info := 0#32 } ∧
    (let s : State := { withText [0x61, 0x62, 0x63] with cfg := ⟨2, 4096, 16384, 4096⟩ }
     checkInput s.cfg s.inLen = .ok () ∧
     analyze s.cfg.nsymMax s.inputText = .error { cause := .symbolCapacity, info := 2#32 }) ∧
    checkDistinct [[false], [false]] = .error { cause := .duplicateCode, info := 1#32 } ∧
    (let s : State := { withText [0x61, 0x62, 0x61, 0x62, 0x61, 0x62, 0x61, 0x62] with cfg := ⟨256, 4096, 2, 4096⟩ }
     let counts : List Count := [{ sym := 0x61, freq := 4 }, { sym := 0x62, freq := 4 }]
     checkInput s.cfg s.inLen = .ok () ∧ analyze s.cfg.nsymMax s.inputText = .ok counts ∧
     checkDistinct (build (counts.map (·.freq))) = .ok () ∧
     s.cfg.packMax < artifactLength (rawLength counts (build (counts.map (·.freq))))) :=
  ⟨rfl, ⟨rfl, rfl⟩, rfl, rfl, rfl, rfl, by decide +kernel⟩

/-- DECODE's phases: CORRUPT_STREAM(1) of the reset state; DEC-24, DEC-15 and DEC-16 with OUT_MAX = 8. -/
theorem witness_FailuresNameTheirStage_decode :
    unpackBody State.reset = .error (corrupt 1#32) ∧
    (let s := withLoneTable [0x04, 0x40]
     unpackBody s = .ok [false, true, false, false] ∧
     walk s.validEntries s.cfg.outMax [false, true, false, false] [] [] = .error (corrupt 4#32)) ∧
    (let s := withArtifact [0x07, 0x80]
     unpackBody s = .ok [true] ∧ walk s.validEntries s.cfg.outMax [true] [] [] = .error (corrupt 5#32)) ∧
    (let s : State := { withArtifact [0x02, 0xAF, 0xC0] with cfg := ⟨256, 4096, 16384, 8⟩ }
     unpackBody s = .ok s.body ∧
     walk s.validEntries s.cfg.outMax s.body [] [] = .error { cause := .outputCapacity, info := 8#32 }) :=
  ⟨rfl, ⟨rfl, rfl⟩, ⟨rfl, rfl⟩, rfl, rfl⟩

theorem witness_FailuresNameTheirStage :
    (∃ t, exec .encode State.reset = .next t ∧ t.errCode ≠ 0#4) ∧
    (∃ t, exec .decode State.reset = .next t ∧ t.errCode ≠ 0#4) ∧ Cause.emptyInput.code = Cause.emptyInput.code :=
  ⟨⟨_, rfl, by decide⟩, ⟨_, rfl, by decide⟩, rfl⟩

theorem witness_CompletionRaisesIrqWhenEnabled :
    ∃ t, runCommand (.instr .clear) { State.reset with ie := true } = .next t := ⟨_, rfl⟩

theorem witness_OnlyEncodeAndClearWriteTheTable :
    ∃ s t : State, step s = .next t ∧ (t.tv ≠ s.tv ∨ t.table ≠ s.table) :=
  ⟨running (.instr .clear) 0 (withArtifact [0x08]), _, rfl, .inl (by decide)⟩

theorem witness_FlagsChangeOnlyByTheirEvents :
    (∃ s t : State, step s = .next t ∧ s.ovr = false ∧ t.ovr = true) ∧
    (∃ s t : State, step s = .next t ∧ s.ovr = true ∧ t.ovr = false) ∧
    (∃ s t : State, step s = .next t ∧ s.done = false ∧ t.done = true) ∧
    (∃ s t : State, step s = .next t ∧ s.done = true ∧ t.done = false) :=
  ⟨⟨running (.instr .clear) 1 (facing [.write 0x028#22 1#32] State.reset), _, rfl, rfl, rfl⟩,
   ⟨facing [.write 0x024#22 8#32] { State.reset with ovr := true }, _, rfl, rfl, rfl⟩,
   ⟨running (.instr .clear) 0 State.reset, _, rfl, rfl, rfl⟩,
   ⟨facing [.write 0x028#22 1#32] { State.reset with done := true }, _, rfl, rfl, rfl⟩⟩

theorem witness_InputsAreFrozenWhileBusy :
    ∃ s t : State, step s = .next t ∧ s.busy = true ∧ t.busy = true :=
  ⟨running (.instr .encode) 1 (facing [.write 0x034#22 1#32] (withText textSrc1)), _, rfl, rfl, rfl⟩

theorem witness_EveryCommandCompletes :
    (let s := running (.instr .encode) 1 (facing [.poll 0x024#22 1#32 0#32, .rst] (withText textSrc1))
     s.cfg.legal = true ∧ s.eng = .run (.instr .encode) ∧ ∀ e ∈ s.world.take s.wait, e.keepsRunning = true) ∧
    (let s := running (.instr .encode) 2 (facing [.poll 0x024#22 1#32 0#32, .read 0#22] (withText textSrc1))
     s.cfg.legal = true ∧ s.eng = .run (.instr .encode) ∧ ∀ e ∈ s.world.take s.wait, e.keepsRunning = true) := by
  decide

theorem witness_ResetEventResetsTheBlock :
    (let s := facing [.rst] (withText textSrc1)
     s.cfg.legal = true ∧ s.eng = .idle ∧ s.world = .rst :: []) ∧
    (let s := running (.instr .encode) 1 (facing [.rst] (withText textSrc1))
     s.cfg.legal = true ∧ s.wait ≠ 0 ∧ s.world = .rst :: []) := by decide

theorem witness_RegistersReadTheirValues : (withArtifact []).eng = .idle := rfl

theorem witness_IdleRegisterWrites :
    (withArtifact []).eng = .idle ∧ 0x040 ∈ registerOffsets ∧ 0x040 ∉ [0x020, 0x024, 0x028, 0x034, 0x038, 0x050] := by
  decide

theorem witness_AccessWhileBusy : (running (.instr .encode) 1 (withText textSrc1)).busy = true := rfl

/-- Every alternative at a boundary: the offsets 0x018 and 0x0FFFFC, and the first word beyond each memory. -/
theorem witness_UnmappedWordsReadZero :
    (wordAddress 0x01B#22 < 0x100000 ∧ wordAddress 0x01B#22 ∉ registerOffsets) ∧
    (wordAddress 0x0FFFFC#22 < 0x100000 ∧ wordAddress 0x0FFFFC#22 ∉ registerOffsets) ∧
    (let w := wordAddress 0x104000#22
     0x100000 ≤ w ∧ w < 0x200000 ∧ State.reset.cfg.inMax ≤ (w - 0x100000) / 4) ∧
    (let w := wordAddress 0x210000#22
     0x200000 ≤ w ∧ w < 0x300000 ∧ State.reset.cfg.packMax ≤ (w - 0x200000) / 4) ∧
    (let w := wordAddress 0x304000#22
     0x300000 ≤ w ∧ State.reset.cfg.outMax ≤ (w - 0x300000) / 4) := by decide

/-- The last word of each memory and the first beyond it, and the last of the region. -/
theorem witness_SymMemWords :
    State.reset.eng = .idle ∧ 4095 < State.reset.cfg.inMax ∧ State.reset.cfg.inMax ≤ 4096 ∧
    State.reset.cfg.inMax ≤ 262143 ∧ 262143 < 262144 := by decide

theorem witness_PackMemWords :
    State.reset.eng = .idle ∧ 16383 < State.reset.cfg.packMax ∧ State.reset.cfg.packMax ≤ 16384 ∧
    State.reset.cfg.packMax ≤ 262143 ∧ 262143 < 262144 := by decide

theorem witness_OutMemWords :
    State.reset.eng = .idle ∧ 4095 < State.reset.cfg.outMax ∧ State.reset.cfg.outMax ≤ 4096 ∧ 262143 < 262144 := by
  decide

theorem witness_TableReadBack :
    (let s := { withArtifact [] with tblIdx := 2#32 }
     s.eng = .idle ∧ s.tv = true ∧ s.table[s.tblIdx.toNat]? = some { sym := 0x63, freq := 4, code := [false] } ∧
     ([false] : Bits).length ≤ 255) ∧
    (let s := { withArtifact [] with tblIdx := 3#32 }
     s.eng = .idle ∧ s.table.length ≤ s.tblIdx.toNat) ∧
    State.reset.eng = .idle ∧ State.reset.tv = false := by decide

theorem witness_LoadSymLoadsTheText :
    (let s := facing (HostProgram.loadSym [0x61#32, 0xFFE00061#32] ++ [.rst])
       { State.reset with cfg := ⟨256, 2, 16384, 4096⟩ }
     s.cfg.legal = true ∧ s.eng = .idle ∧ [0x61#32, 0xFFE00061#32].length ≤ s.cfg.inMax ∧
     s.world = HostProgram.loadSym [0x61#32, 0xFFE00061#32] ++ [.rst]) := by decide

theorem inv_src1 : (withArtifact [0x02, 0xAF, 0xC0]).Inv where
  control :=
    { legal := by decide, doneNotBusy := fun h => absurd (show false = true from h) (by decide)
      causeRange := by decide, infoZero := fun _ => rfl
      busyNoError := fun h => absurd (show false = true from h) (by decide)
      symWf := by decide, packWf := by decide, outWf := by decide
      symDraw := by decide, packDraw := by decide, outDraw := by decide, outLenRange := by decide }
  shared := tableInv_src1 _

theorem witness_EveryStepKeepsTheInvariant : ∃ s t : State, s.Inv ∧ step s = .next t :=
  ⟨_, _, inv_src1, rfl⟩

theorem witness_GoodRunsNeverStop : ∃ s : State, s.Inv ∧ s.worldInside :=
  ⟨_, inv_src1, fun e he => by cases he⟩

theorem witness_WriteEventsReachTheBus :
    (let s := facing [.write 0x020#22 1#32] (withText textSrc1)
     s.cfg.legal = true ∧ s.eng = .idle ∧ s.world = .write 0x020#22 1#32 :: []) ∧
    (let s := running (.instr .encode) 1 (facing [.write 0x020#22 1#32] (withText textSrc1))
     s.cfg.legal = true ∧ s.wait ≠ 0 ∧ s.world = .write 0x020#22 1#32 :: []) := by decide

/-- `irq` 1 and 0 while idle, and 0 while a command runs. -/
theorem witness_IrqWaitRepeatsUntilIrq :
    (let s := facing [.waitIrq] { State.reset with ie := true, done := true }
     s.cfg.legal = true ∧ s.eng = .idle ∧ s.world = .waitIrq :: [] ∧ s.ie = true ∧ s.done = true) ∧
    (let s := facing [.waitIrq] { State.reset with done := true }
     s.cfg.legal = true ∧ s.eng = .idle ∧ s.world = .waitIrq :: [] ∧ s.ie = false) ∧
    (let s := running (.instr .clear) 1 (facing [.waitIrq] { State.reset with ie := true })
     s.cfg.legal = true ∧ s.wait ≠ 0 ∧ s.world = .waitIrq :: [] ∧ s.done = false) := by decide

/-- The idle form, and a command due at once and one that lets two events pass. -/
theorem witness_WaitEndsWithTheCommand :
    (let s := facing (HostProgram.waitIdle ++ [.rst]) State.reset
     s.cfg.legal = true ∧ s.world = HostProgram.waitIdle ++ [.rst] ∧ s.eng = .idle) ∧
    (let s := running (.instr .encode) 0 (facing (HostProgram.waitIdle ++ []) (withText textSrc1))
     s.cfg.legal = true ∧ s.world = HostProgram.waitIdle ++ [] ∧ s.eng = .run (.instr .encode)) ∧
    (let s := running (.instr .encode) 2 (facing (HostProgram.waitIdle ++ [.rst]) (withText textSrc1))
     s.cfg.legal = true ∧ s.world = HostProgram.waitIdle ++ [.rst] ∧ s.eng = .run (.instr .encode)) := by decide

theorem witness_IrqWaitEndsWithTheCommand :
    (let s := running (.illegal 4#32) 2 (facing [.waitIrq, .rst] { State.reset with ie := true })
     s.cfg.legal = true ∧ s.eng = .run (.illegal 4#32) ∧ s.done = false ∧ s.ie = true ∧
     s.world = .waitIrq :: [.rst]) ∧
    (let s := running (.instr .clear) 0 (facing [.waitIrq] { State.reset with ie := true })
     s.cfg.legal = true ∧ s.eng = .run (.instr .clear) ∧ s.done = false ∧ s.ie = true ∧ s.world = .waitIrq :: []) := by
  decide

end Sys2Proof.Tests
end

/-!
SUPPORT. Every command, event and step keeps the invariant `State.Inv` (scope statements, first part).
-/

namespace Sys2Proof.Machine

/-! ### What the invariant does not look at -/

/-- The invariant does not look at the events to come, the replies given and the events to let pass (logs 2 and 3). -/
theorem State.Inv.withOutside {s : State} (h : s.Inv) (w : List Event) (rs : List Word) (n : Nat) :
    ({ s with world := w, replies := rs, wait := n } : State).Inv :=
  ⟨{ h.control with }, { h.shared with }⟩

/-- The table's invariant is about TV, the table, ENC_BITS, ENC_PAD and the capacities alone. -/
theorem State.TableInv.congr {s t : State} (h : s.TableInv) (htv : t.tv = s.tv) (htable : t.table = s.table)
    (hcfg : t.cfg = s.cfg) (hbits : t.encBits = s.encBits) (hpad : t.encPad = s.encPad) : t.TableInv := by
  cases s; cases t
  dsimp only at htv htable hcfg hbits hpad
  subst htv htable hcfg hbits hpad
  exact { h with }

/-! ### Bus writes -/

theorem State.ControlInv.writeStatus {s : State} (h : s.ControlInv) (v : Word) : (s.writeStatus v).ControlInv := by
  rw [writeStatus_eq]
  exact { h with doneNotBusy := fun hd => h.doneNotBusy (Bool.and_eq_true_iff.1 hd).1 }

/-- An acceptance clears DONE and the error registers (R106). -/
theorem State.ControlInv.accept {s : State} (h : s.ControlInv) (v : Word) : (s.accept v).ControlInv :=
  { h with
    doneNotBusy := fun hd => nomatch hd
    causeRange := Nat.zero_le _
    infoZero := fun _ => rfl
    busyNoError := fun _ => rfl }

theorem State.ControlInv.busWrite {s : State} (h : s.ControlInv) (a : Addr) (v : Word) :
    (s.busWrite a v).ControlInv := by
  cases hb : s.busy with
  | true =>
    rw [busWrite_busy hb]
    split
    · exact { h with }
    split
    · exact h.writeStatus v
    split
    · exact { h with }
    · exact h
  | false =>
    rcases busWrite_idle hb a v with
      hw | ⟨-, hw⟩ | ⟨-, hw⟩ | ⟨-, hw⟩ | ⟨-, hw⟩ | ⟨-, hw⟩ | ⟨-, hw⟩ | ⟨i, hi, hw⟩ | ⟨i, hi, hw⟩ <;> rw [hw]
    · exact h
    · exact { h with }
    · exact h.writeStatus v
    · exact h.accept v
    · exact { h with }
    · exact { h with }
    · exact { h with }
    · exact { h with symWf := Memory.write_wf h.symWf hi _ }
    · exact { h with packWf := Memory.write_wf h.packWf hi _ }

theorem State.Inv.busWrite {s : State} (h : s.Inv) (a : Addr) (v : Word) : (s.busWrite a v).Inv := by
  obtain ⟨htv, htable, hcfg, -, hbits, hpad, -⟩ := busWrite_frame s a v
  exact ⟨h.control.busWrite a v, h.shared.congr htv htable hcfg hbits hpad⟩

/-! ### Reset -/

/-- Without a table, and with the encoder's results 0, the table's invariant holds (R41). -/
theorem State.TableInv.of_noTable {s : State} (htv : s.tv = false) (htable : s.table = []) (hbits : s.encBits = 0#32)
    (hpad : s.encPad = 0#4) : s.TableInv := by
  constructor <;> simp [htv, htable, hbits, hpad, codesPrefixFree]

theorem State.ControlInv.resetBlock {s : State} (h : s.ControlInv) : s.resetBlock.ControlInv where
  legal := h.legal
  doneNotBusy := fun _ => rfl
  causeRange := Nat.zero_le _
  infoZero := fun _ => rfl
  busyNoError := fun _ => rfl
  symWf := Memory.drawn_wf _ _
  packWf := Memory.drawn_wf _ _
  outWf := Memory.drawn_wf _ _
  symDraw := Nat.lt_succ_self _
  packDraw := Nat.lt_succ_self _
  outDraw := Nat.lt_succ_self _
  outLenRange := Nat.zero_le _

theorem State.Inv.resetBlock {s : State} (h : s.Inv) : s.resetBlock.Inv :=
  ⟨h.control.resetBlock, .of_noTable rfl rfl rfl rfl⟩

/-- Every event of the outside world keeps the invariant. -/
theorem State.Inv.worldStep {s t : State} (h : s.Inv) (hs : worldStep s = .next t) : t.Inv := by
  rcases worldStep_cases hs with ⟨-, rfl⟩ | ⟨a, v, rest, -, rfl⟩ | ⟨w, rs, -, rfl⟩ | ⟨rest, -, rfl⟩
  · exact h
  · exact (h.withOutside rest _ _).busWrite a v
  · exact h.withOutside w rs _
  · exact (h.withOutside rest _ _).resetBlock

/-! ### Completions -/

theorem State.ControlInv.completeOk {s : State} (h : s.ControlInv) : s.completeOk.ControlInv :=
  { h with
    doneNotBusy := fun _ => rfl
    causeRange := Nat.zero_le _
    infoZero := fun _ => rfl
    busyNoError := fun _ => rfl }

theorem State.Inv.completeOk {s : State} (h : s.Inv) : s.completeOk.Inv :=
  ⟨h.control.completeOk, { h.shared with }⟩

theorem State.Inv.completeRaised {s : State} (h : s.Inv) (e : Raised) : (s.completeRaised e).Inv :=
  ⟨{ h.control with
      doneNotBusy := fun _ => rfl
      causeRange := e.cause.code_le
      infoZero := fun h0 => absurd h0 e.cause.code_ne_zero
      busyNoError := fun hb => nomatch hb },
   { h.shared with }⟩

theorem State.Inv.commitClear {s : State} (h : s.Inv) : s.commitClear.Inv :=
  ⟨{ h.control with outLenRange := Nat.zero_le _ }, .of_noTable rfl rfl rfl rfl⟩

theorem State.Inv.commitEncodeError {s : State} (h : s.Inv) : s.commitEncodeError.Inv :=
  ⟨{ h.control with }, .of_noTable rfl rfl rfl rfl⟩

theorem State.Inv.commitDecodeError {s : State} (h : s.Inv) : s.commitDecodeError.Inv :=
  ⟨{ h.control with outLenRange := Nat.zero_le _ }, { h.shared with }⟩

/-- OUT_MEM takes a draw of its own, and the next one is unused again (log 5). -/
theorem State.Inv.drawOutMem {s : State} (h : s.Inv) : s.drawOutMem.Inv :=
  ⟨{ h.control with
      outWf := Memory.drawn_wf _ _
      symDraw := Nat.lt_succ_of_lt h.control.symDraw
      packDraw := Nat.lt_succ_of_lt h.control.packDraw
      outDraw := Nat.lt_succ_self _ },
   { h.shared with }⟩

/-- Decoded symbols that fit OUT_MEM are written within its depth (R150, R152). -/
theorem State.Inv.commitDecoded {s : State} (h : s.Inv) {out : List Sym} (hfit : out.length ≤ s.cfg.outMax) :
    (s.commitDecoded out).Inv := by
  have hlen : (BitVec.ofNat 32 out.length).toNat ≤ s.cfg.outMax :=
    (BitVec.toNat_ofNat ..).le.trans ((Nat.mod_le _ _).trans hfit)
  exact ⟨{ h.control with
      outWf := Memory.writeFrom_wf out h.control.outWf (by omega)
      outDraw := (Memory.writeFrom_draw ..).trans_lt h.control.outDraw
      outLenRange := hlen },
    { h.shared with }⟩

/-! ### The table of a text -/

theorem textTable_code_mem {text : List Sym} {e : Entry} (he : e ∈ textTable text) : e.code ∈ textCodes text :=
  textTable_codes text ▸ List.mem_map_of_mem he

/-- `L` is the table's sum of count times code length (R130). -/
theorem textTable_bits {text : List Sym} (hlt : text.length < 2 ^ 32) :
    ((textTable text).map fun e => e.freq.toNat * e.code.length).sum = (textRaw text).length := by
  rw [textRaw_length, sum_over_text, ← textTable_syms, List.map_map]
  refine congrArg List.sum (List.map_congr_left fun e he => ?_)
  rw [Function.comp_apply, codeOf_mem (textTable_symsNodup text) he, (textTable_freq_toNat hlt he).2]

/-- The single entry of a table has code "0" (R125). -/
theorem textCodes_single {text : List Sym} (h : text.eraseDups.length = 1) : textCodes text = [[false]] := by
  obtain ⟨x, hx⟩ := List.length_eq_one_iff.1 h
  simp only [textCodes, hx, List.map_cons, List.map_nil, build_single]

/-- A state whose table and encoder results are those of a text that fits meets the table's invariant (R41). -/
theorem State.TableInv.of_text {s : State} {text : List Sym} (hne : text ≠ []) (hin : text.length ≤ s.cfg.inMax)
    (hsyms : text.eraseDups.length ≤ s.cfg.nsymMax) (hlt : text.length < 2 ^ 32) (htv : s.tv = true)
    (htable : s.table = textTable text) (hbits : s.encBits.toNat = (textRaw text).length)
    (hpad : s.encPad.toNat = padding (textRaw text).length) : s.TableInv := by
  have hdups : text.eraseDups ≠ [] := by
    obtain ⟨x, xs, rfl⟩ := List.exists_cons_of_ne_nil hne
    simp [List.eraseDups_cons]
  have htab : textTable text ≠ [] := by
    rwa [Ne, ← List.length_eq_zero_iff, textTable_length, List.length_eq_zero_iff]
  exact {
    validIff := by simp [htv, htable, htab]
    size := by simpa [htable] using hsyms
    symsDistinct := by rw [htable]; exact textTable_symsNodup text
    freqPos := by rw [htable]; exact fun e he => (textTable_freq_toNat hlt he).1
    freqSum := by rw [htable, textTable_freqSum hlt]; exact hin
    codePos := by rw [htable]; exact fun e he => build_code_pos _ _ (textTable_code_mem he)
    codeLen := by
      rw [htable]
      intro e he
      simpa using build_code_length _ _ (textTable_code_mem he)
    free := by rw [htable, textTable_codes]; exact build_prefixFree _
    complete := by
      rw [htable, textTable_codes, textTable_length]
      exact fun h2 => build_complete _ (by simpa using h2)
    single := by rw [htable, textTable_codes, textTable_length]; exact textCodes_single
    bits := by rw [htable, textTable_bits hlt, hbits]
    pad := fun _ => by rw [hpad, hbits]; rfl
    padZero := by simp [htv] }

/-- ENCODE's error-free completion leaves a good table (R137). -/
theorem execEncode_tableInv {s t : State} (hl : s.cfg.legal = true) (h : exec .encode s = .next t)
    (h0 : t.errCode = 0#4) : t.TableInv := by
  obtain ⟨hpad, hbits, -⟩ := execEncode_artifact hl h h0
  obtain ⟨hne, hin, hsyms, -, r, rfl, rfl⟩ := execEncode_ok h h0
  have hlen := inputText_length s
  refine .of_text (List.ne_nil_of_length_pos (by omega)) (hlen.trans_le hin) hsyms ?_ rfl rfl hbits hpad
  rw [hlen]; exact s.inLen.isLt

theorem State.ControlInv.commitEncoded {s : State} (h : s.ControlInv) {r : Encoded}
    (hfit : r.bytes.length ≤ s.cfg.packMax) : (s.commitEncoded r).ControlInv :=
  { h with
    packWf := Memory.writeFrom_wf _ h.packWf (by omega)
    packDraw := (Memory.writeFrom_draw ..).trans_lt h.packDraw }

theorem State.Inv.execEncode {s t : State} (h : s.Inv) (hs : exec .encode s = .next t) : t.Inv := by
  rcases execEncode_cases s with ⟨r, hr, ht⟩ | ⟨e, -, ht⟩
  · cases hs.symm.trans ht
    have hbytes : r.bytes.length ≤ s.cfg.packMax := by
      obtain ⟨-, -, -, hfit, rfl⟩ := encodeResult_ok hr
      exact (packBits_artifact_length _).trans_le hfit
    exact ⟨(h.control.commitEncoded hbytes).completeOk, execEncode_tableInv h.control.legal hs rfl⟩
  · cases hs.symm.trans ht
    exact h.commitEncodeError.completeRaised e

theorem State.Inv.execDecode {s t : State} (h : s.Inv) (hs : exec .decode s = .next t) : t.Inv := by
  rcases execDecode_cases s with ⟨e, -, ht⟩ | ⟨-, e, -, ht⟩ | ⟨-, out, hw, ht⟩ <;> cases hs.symm.trans ht
  · exact h.commitDecodeError.completeRaised e
  · exact h.commitDecodeError.drawOutMem.completeRaised e
  · exact (h.commitDecoded (walk_ok_length (Nat.zero_le _) hw)).completeOk

/-- Every completion keeps the invariant. -/
theorem State.Inv.runCommand {op : Command} {s t : State} (h : s.Inv) (hs : runCommand op s = .next t) : t.Inv := by
  match op with
  | .illegal v => cases hs; exact h.completeRaised _
  | .instr .clear => cases hs; exact h.commitClear.completeOk
  | .instr .encode => exact h.execEncode hs
  | .instr .decode => exact h.execDecode hs

/-- Settles O55: a step is a completion, an event of an idle block, or an event while a command runs. -/
theorem everyStepKeepsTheInvariant : Obligations.EveryStepKeepsTheInvariant := by
  intro s t h hs
  obtain ⟨-, ⟨op, -, -, hc⟩ | ⟨-, hw⟩ | ⟨op, -, -, -, hw⟩⟩ := step_cases hs
  · exact h.runCommand hc
  · exact h.worldStep hw
  · exact (h.withOutside s.world s.replies (s.wait - 1)).worldStep hw

end Sys2Proof.Machine

/-!
SUPPORT. When a step is refused, how a raised error is reported, and what the reset state reads (scope
statements, second part).
-/

namespace Sys2Proof.Machine

/-! ### Refusals -/

/-- The outside world's step is refused at the two events the spec keeps outside, and at no other (I20, I21). -/
theorem worldStep_refused_iff {s : State} {r : Refusal} :
    worldStep s = .refused r ↔
      (∃ a n rest, s.world = .subword a n :: rest ∧ r = .subwordTransaction) ∨
      (∃ a rest, s.world = .secondMaster a :: rest ∧ r = .secondBusMaster) := by
  cases hw : s.world with
  | nil => simp [worldStep, hw]
  | cons e rest =>
    cases e with
    | poll a mask value => simp only [worldStep, hw]; split <;> simp
    | waitIrq => simp only [worldStep, hw]; split <;> simp
    | _ => simp [worldStep, hw, eq_comm]

/-- A block with illegal parameters is refused (R7, I14). -/
theorem step_illegalParams {s : State} (hl : s.cfg.legal = false) : step s = .refused .parameterOutOfRange := by
  simp [step, hl]

/-- A block with legal parameters is refused at an event that takes place, and at no completion (log 11). -/
theorem step_refused_iff_of_legal {s : State} {r : Refusal} (hl : s.cfg.legal = true) :
    step s = .refused r ↔ (s.eng = .idle ∨ s.wait ≠ 0) ∧ worldStep s = .refused r := by
  cases he : s.eng with
  | idle => simp [step_idle hl he]
  | run op =>
    by_cases hd : s.wait = 0 ∨ s.world = []
    · obtain ⟨t, ht⟩ := runCommand_completes op s
      rw [step_due hl he hd, ht, worldStep_refused_iff]
      rcases hd with hd | hd <;> simp [hd]
    · obtain ⟨hwait, hworld⟩ := not_or.1 hd
      rw [step_wait hl he hwait hworld, worldStep_refused_iff, worldStep_refused_iff]
      simp [hwait]

/-- Settles O11: by the parameters' legality, then by the events at which the outside world's step is refused. -/
theorem stepRefusesOnlyWhatTheSpecKeepsOutside : Obligations.StepRefusesOnlyWhatTheSpecKeepsOutside := by
  intro s r
  cases hl : s.cfg.legal with
  | false => simp [step_illegalParams hl, eq_comm]
  | true => simp [step_refused_iff_of_legal hl, worldStep_refused_iff]

/-! ### Raised errors -/

theorem exec_encode_error {s : State} {e : Raised} (h : encodeResult s = .error e) :
    exec .encode s = .next (s.commitEncodeError.completeRaised e) := by
  simp only [exec, execEncode, h]

theorem exec_decode_unpackError {s : State} {e : Raised} (h : unpackBody s = .error e) :
    exec .decode s = .next (s.commitDecodeError.completeRaised e) := by
  simp only [exec, execDecode, h]

theorem exec_decode_walkError {s : State} {e : Raised} {body : Bits} (hb : unpackBody s = .ok body)
    (hw : walk s.validEntries s.cfg.outMax body [] [] = .error e) :
    exec .decode s = .next (s.commitWalkError.completeRaised e) := by
  simp only [exec, execDecode, hb, hw]

/-- Settles O34: each of the three failing ends commits a length of 0 and completes with the cause's code, never 0. -/
theorem raisedErrorsAreReported : Obligations.RaisedErrorsAreReported := by
  intro s e
  have hcode := e.cause.code_ne_zero
  refine ⟨fun h => ⟨_, exec_encode_error h, rfl, hcode, rfl, rfl⟩, ?_, ?_⟩
  · rintro (h | ⟨body, hb, hw⟩)
    · exact ⟨_, exec_decode_unpackError h, rfl, hcode, rfl, rfl⟩
    · exact ⟨_, exec_decode_walkError hb hw, rfl, hcode, rfl, rfl⟩
  · intro v t h
    cases h
    exact Cause.code_ne_zero .illegalCommand

/-- Settles O42: a closed fact about one state, whose registers are read one by one. -/
theorem resetStateReadsAsSpecified : Obligations.ResetStateReadsAsSpecified := by
  unfold Obligations.ResetStateReadsAsSpecified
  decide

end Sys2Proof.Machine

/-!
SUPPORT. The flags, the table and ENG over a step, reset, and the registers as the host reads and writes them
(10_state.md).
-/

namespace Sys2Proof.Machine

/-! ### Everything a step can do -/

/-- A step to a next state is a due completion, a write event, a reset event, or touches nothing of the block: the events
left, the replies and the count of events to let pass (logs 2, 3 and 12). -/
theorem step_next_cases {s t : State} (h : step s = .next t) :
    (∃ op, s.eng = .run op ∧ (s.wait = 0 ∨ s.world = []) ∧ runCommand op s = .next t) ∨
    (∃ a v rest n, s.world = .write a v :: rest ∧ t = ({ s with world := rest, wait := n } : State).busWrite a v) ∨
    (∃ rest n, s.world = .rst :: rest ∧ t = ({ s with world := rest, wait := n } : State).resetBlock) ∨
    ∃ w rs n, t = { s with world := w, replies := rs, wait := n } := by
  have hmove : (∃ op, s.eng = .run op ∧ (s.wait = 0 ∨ s.world = []) ∧ runCommand op s = .next t) ∨
      ∃ n, worldStep { s with wait := n } = .next t := by
    obtain ⟨-, hdue | ⟨-, hw⟩ | ⟨op, -, -, -, hw⟩⟩ := step_cases h
    · exact .inl hdue
    · exact .inr ⟨s.wait, hw⟩
    · exact .inr ⟨_, hw⟩
  refine hmove.imp_right fun ⟨n, hw⟩ => ?_
  rcases worldStep_cases hw with ⟨-, ht⟩ | ⟨a, v, rest, hev, ht⟩ | ⟨w, rs, -, ht⟩ | ⟨rest, hev, ht⟩
  · exact .inr (.inr ⟨_, _, n, ht⟩)
  · exact .inl ⟨a, v, rest, n, hev, ht⟩
  · exact .inr (.inr ⟨w, rs, n, ht⟩)
  · exact .inr (.inl ⟨rest, n, hev, ht⟩)

/-! ### ENG -/

/-- Settles O10: a completion leaves ENG idle, a write event changes it by an acceptance only, a reset event idles it. -/
theorem engineChangesOnlyByItsThreeEvents : Obligations.EngineChangesOnlyByItsThreeEvents := by
  intro s t h
  rcases step_next_cases h with ⟨op, hrun, hdue, hc⟩ | ⟨a, v, rest, n, hev, rfl⟩ | ⟨rest, n, hev, rfl⟩ | ⟨w, rs, n, rfl⟩
  · obtain ⟨hidle, -⟩ := runCommand_frame hc
    exact ⟨fun _ => .inl hidle, fun _ _ => .inr ⟨hidle, hdue.imp_right .inl⟩⟩
  · rcases busWrite_eng (s := { s with world := rest, wait := n }) a v with heng | ⟨hbusy, ha, heng⟩
    · exact ⟨fun he => .inl (heng.trans he), fun op he => .inl (heng.trans he)⟩
    · have hidle : s.eng = .idle := (State.busy_eq_false_iff _).1 hbusy
      exact ⟨fun _ => .inr ⟨a, v, rest, hev, ha, heng⟩, fun op he => nomatch hidle.symm.trans he⟩
  · exact ⟨fun _ => .inl rfl, fun _ _ => .inr ⟨rfl, .inr (.inr ⟨rest, hev⟩)⟩⟩
  · exact ⟨.inl, fun _ => .inl⟩

/-! ### The table -/

/-- Settles O18: the committed table is the text's, whose invariant holds, with its symbols and counts (R120, R121). -/
theorem encodeLeavesAValidTable : Obligations.EncodeLeavesAValidTable := by
  intro s t hl h h0
  have hinv := execEncode_tableInv hl h h0
  obtain ⟨-, -, -, -, r, rfl, rfl⟩ := execEncode_ok h h0
  have hlt : s.inputText.length < 2 ^ 32 := by rw [inputText_length]; exact s.inLen.isLt
  refine ⟨rfl, List.length_pos_iff.2 (hinv.validIff.1 rfl), hinv.size, hinv.symsDistinct, textTable_syms _, ?_, ?_,
    fun e he => ⟨hinv.codePos e he, hinv.codeLen e he⟩, hinv.free⟩
  · exact fun e he => textTable_freq_toNat hlt he
  · exact (textTable_freqSum hlt).trans (inputText_length s)

/-- DECODE and the illegal pseudo-command leave the table as it is (R41). -/
theorem runCommand_table {op : Command} {s t : State} (h : runCommand op s = .next t) :
    op = .instr .encode ∨ op = .instr .clear ∨ (t.tv = s.tv ∧ t.table = s.table) := by
  match op with
  | .instr .encode => exact .inl rfl
  | .instr .clear => exact .inr (.inl rfl)
  | .illegal v => cases h; exact .inr (.inr ⟨rfl, rfl⟩)
  | .instr .decode =>
    refine .inr (.inr ?_)
    rcases execDecode_cases s with ⟨e, -, ht⟩ | ⟨-, e, -, ht⟩ | ⟨-, out, -, ht⟩ <;> cases h.symm.trans ht <;>
      exact ⟨rfl, rfl⟩

/-- Settles O37: only the completions of ENCODE and CLEAR and the reset event are left as writers of the table. -/
theorem onlyEncodeAndClearWriteTheTable : Obligations.OnlyEncodeAndClearWriteTheTable := by
  intro s t h hchanged
  rw [← not_and_or] at hchanged
  rcases step_next_cases h with ⟨op, hrun, hdue, hc⟩ | ⟨a, v, rest, n, -, rfl⟩ | ⟨rest, n, hev, -⟩ | ⟨w, rs, n, rfl⟩
  · rcases runCommand_table hc with rfl | rfl | hsame
    · exact .inl ⟨.inl hrun, hdue⟩
    · exact .inl ⟨.inr hrun, hdue⟩
    · exact absurd hsame hchanged
  · obtain ⟨htv, htable, -⟩ := busWrite_frame { s with world := rest, wait := n } a v
    exact absurd ⟨htv, htable⟩ hchanged
  · exact .inr ⟨rest, hev⟩
  · exact absurd ⟨rfl, rfl⟩ hchanged

/-! ### The flags OVR and DONE, and irq -/

/-- A write of any word but STATUS and CMD leaves both flags (R27, R29). -/
theorem busWrite_flags_of_ne {s : State} {a : Addr} (hstatus : wordAddress a ≠ 0x024) (hcmd : wordAddress a ≠ 0x028)
    (v : Word) : (s.busWrite a v).ovr = s.ovr ∧ (s.busWrite a v).done = s.done := by
  cases hb : s.busy with
  | true =>
    rw [busWrite_busy hb, if_neg hstatus, if_neg hcmd]
    split <;> exact ⟨rfl, rfl⟩
  | false =>
    rcases busWrite_idle hb a v with
      hw | ⟨-, hw⟩ | ⟨ha, -⟩ | ⟨ha, -⟩ | ⟨-, hw⟩ | ⟨-, hw⟩ | ⟨-, hw⟩ | ⟨i, -, hw⟩ | ⟨i, -, hw⟩
    case inr.inr.inl => exact absurd ha hstatus
    case inr.inr.inr.inl => exact absurd ha hcmd
    all_goals rw [hw]; exact ⟨rfl, rfl⟩

theorem busWrite_status {s : State} {a : Addr} (h : wordAddress a = 0x024) (v : Word) :
    s.busWrite a v = { s with done := s.done && !v.getLsbD 1, ovr := s.ovr && !v.getLsbD 3 } :=
  (busWrite_reg (r := .status) h v).trans (writeStatus_eq s v)

/-- What a write does to OVR: CMD sets it while BUSY, STATUS clears it with bit 3 (R25, R29, R111). -/
theorem busWrite_ovr (s : State) (a : Addr) (v : Word) :
    (s.busWrite a v).ovr = s.ovr ∨
    (wordAddress a = 0x028 ∧ s.busy = true ∧ (s.busWrite a v).ovr = true) ∨
    (wordAddress a = 0x024 ∧ (s.busWrite a v).ovr = (s.ovr && !v.getLsbD 3)) := by
  by_cases hstatus : wordAddress a = 0x024
  · exact .inr (.inr ⟨hstatus, by rw [busWrite_status hstatus]⟩)
  by_cases hcmd : wordAddress a = 0x028
  · rw [busWrite_cmd hcmd, State.writeCmd]
    cases s.busy with
    | true => exact .inr (.inl ⟨hcmd, rfl, rfl⟩)
    | false => exact .inl rfl
  · exact .inl (busWrite_flags_of_ne hstatus hcmd v).1

/-- What a write does to DONE: CMD clears it while idle, STATUS clears it with bit 1 (R25, R27, R106). -/
theorem busWrite_done (s : State) (a : Addr) (v : Word) :
    (s.busWrite a v).done = s.done ∨
    (wordAddress a = 0x028 ∧ s.busy = false ∧ (s.busWrite a v).done = false) ∨
    (wordAddress a = 0x024 ∧ (s.busWrite a v).done = (s.done && !v.getLsbD 1)) := by
  by_cases hstatus : wordAddress a = 0x024
  · exact .inr (.inr ⟨hstatus, by rw [busWrite_status hstatus]⟩)
  by_cases hcmd : wordAddress a = 0x028
  · rw [busWrite_cmd hcmd, State.writeCmd]
    cases s.busy with
    | true => exact .inl rfl
    | false => exact .inr (.inl ⟨hcmd, rfl, rfl⟩)
  · exact .inl (busWrite_flags_of_ne hstatus hcmd v).2

/-- What a step does to OVR (R29, R49). -/
theorem step_ovr {s t : State} (h : step s = .next t) :
    t.ovr = s.ovr ∨ (∃ rest, s.world = .rst :: rest) ∧ t.ovr = false ∨
    ∃ a v rest, s.world = .write a v :: rest ∧
      ((wordAddress a = 0x028 ∧ s.busy = true ∧ t.ovr = true) ∨
       (wordAddress a = 0x024 ∧ t.ovr = (s.ovr && !v.getLsbD 3))) := by
  rcases step_next_cases h with ⟨op, -, -, hc⟩ | ⟨a, v, rest, n, hev, rfl⟩ | ⟨rest, n, hev, rfl⟩ | ⟨w, rs, n, rfl⟩
  · obtain ⟨-, -, -, -, hovr, -⟩ := runCommand_frame hc
    exact .inl hovr
  · exact (busWrite_ovr { s with world := rest, wait := n } a v).imp_right fun hw => .inr ⟨a, v, rest, hev, hw⟩
  · exact .inr (.inl ⟨⟨rest, hev⟩, rfl⟩)
  · exact .inl rfl

/-- What a step does to DONE (R27, R49; when a completion is due is log 2's). -/
theorem step_done {s t : State} (h : step s = .next t) :
    t.done = s.done ∨ (s.busy = true ∧ (s.wait = 0 ∨ s.world = [])) ∧ t.done = true ∨
    (∃ rest, s.world = .rst :: rest) ∧ t.done = false ∨
    ∃ a v rest, s.world = .write a v :: rest ∧
      ((wordAddress a = 0x028 ∧ s.busy = false ∧ t.done = false) ∨
       (wordAddress a = 0x024 ∧ t.done = (s.done && !v.getLsbD 1))) := by
  rcases step_next_cases h with ⟨op, hrun, hdue, hc⟩ | ⟨a, v, rest, n, hev, rfl⟩ | ⟨rest, n, hev, rfl⟩ | ⟨w, rs, n, rfl⟩
  · obtain ⟨-, hdone, -⟩ := runCommand_frame hc
    exact .inr (.inl ⟨⟨(State.busy_iff s).2 ⟨op, hrun⟩, hdue⟩, hdone⟩)
  · exact (busWrite_done { s with world := rest, wait := n } a v).imp_right
      fun hw => .inr (.inr ⟨a, v, rest, hev, hw⟩)
  · exact .inr (.inr (.inl ⟨⟨rest, hev⟩, rfl⟩))
  · exact .inl rfl

/-- Settles O38: of the events that write a flag, its values before and after single out the one that took place. -/
theorem flagsChangeOnlyByTheirEvents : Obligations.FlagsChangeOnlyByTheirEvents := by
  intro s t h
  refine ⟨fun h0 h1 => ?_, fun h1 h0 => ?_, fun h0 h1 => ?_, fun h1 h0 => ?_⟩
  · rcases step_ovr h with hsame | ⟨-, hclear⟩ | ⟨a, v, rest, hev, ⟨ha, hbusy, -⟩ | ⟨-, hstatus⟩⟩
    · simp [hsame, h0] at h1
    · simp [hclear] at h1
    · exact ⟨hbusy, a, v, rest, hev, ha⟩
    · simp [hstatus, h0] at h1
  · rcases step_ovr h with hsame | ⟨hrst, -⟩ | ⟨a, v, rest, hev, ⟨-, -, hset⟩ | ⟨ha, hstatus⟩⟩
    · simp [hsame, h1] at h0
    · exact .inl hrst
    · simp [hset] at h0
    · exact .inr ⟨a, v, rest, hev, ha, by simpa [hstatus, h1] using h0⟩
  · rcases step_done h with hsame | ⟨hdue, -⟩ | ⟨-, hclear⟩ | ⟨a, v, rest, -, ⟨-, -, hclear⟩ | ⟨-, hstatus⟩⟩
    · simp [hsame, h0] at h1
    · exact hdue
    · simp [hclear] at h1
    · simp [hclear] at h1
    · simp [hstatus, h0] at h1
  · rcases step_done h with hsame | ⟨-, hset⟩ | ⟨hrst, -⟩ | ⟨a, v, rest, hev, ⟨ha, hidle, -⟩ | ⟨ha, hstatus⟩⟩
    · simp [hsame, h1] at h0
    · simp [hset] at h0
    · exact .inl hrst
    · exact .inr ⟨a, v, rest, hev, .inr ⟨ha, hidle⟩⟩
    · exact .inr ⟨a, v, rest, hev, .inl ⟨ha, by simpa [hstatus, h1] using h0⟩⟩

/-- Settles O36: a completion sets DONE and leaves CTRL.IE, whose conjunction is irq (R48). -/
theorem completionRaisesIrqWhenEnabled : Obligations.CompletionRaisesIrqWhenEnabled := by
  intro s t op h
  obtain ⟨-, hdone, -, hie, -⟩ := runCommand_frame h
  rw [State.irq, hdone, hie, Bool.and_true]

/-- Settles O58: at the wait for irq the outside world's step goes by irq, which is IE and DONE both 1. -/
theorem irqWaitRepeatsUntilIrq : Obligations.IrqWaitRepeatsUntilIrq := by
  intro s rest hl hd hw
  have hirq : s.irq = true ↔ s.ie = true ∧ s.done = true := Bool.and_eq_true_iff
  rw [step_event hl hd (by simp [hw])]
  by_cases h : s.irq = true
  · rw [if_pos (hirq.1 h)]
    simp only [worldStep, hw]
    exact if_pos h
  · rw [if_neg (mt hirq.2 h)]
    simp only [worldStep, hw]
    exact if_neg h

/-! ### Reset -/

/-- The step at a reset event that takes place, idle or while a command runs (R186, R187). -/
theorem step_rst {s : State} {rest : List Event} (hl : s.cfg.legal = true) (hd : s.eng = .idle ∨ s.wait ≠ 0)
    (hw : s.world = .rst :: rest) : step s = .next ({ s with world := rest } : State).resetBlock := by
  rw [step_event hl hd (by simp [hw])]
  simp only [worldStep, hw]
  rfl

/-- Settles O54: the reset state's fields are R52's, its memories are undrawn and it has no table. -/
theorem resetIsGood : Obligations.ResetIsGood where
  control :=
    { legal := by decide
      doneNotBusy := fun _ => rfl
      causeRange := Nat.zero_le _
      infoZero := fun _ => rfl
      busyNoError := fun _ => rfl
      symWf := Memory.drawn_wf _ 0
      packWf := Memory.drawn_wf _ 0
      outWf := Memory.drawn_wf _ 0
      symDraw := Nat.zero_lt_one
      packDraw := Nat.zero_lt_one
      outDraw := Nat.zero_lt_one
      outLenRange := Nat.zero_le _ }
  shared := .of_noTable rfl rfl rfl rfl

/-! ### Registers -/

/-- A register's address is its offset, which is a whole word's (R20, R63). -/
theorem wordAddress_regAddr (r : Reg) : wordAddress (HostProgram.regAddr r) = r.offset := by
  cases r with
  | tblCode k => revert k; decide
  | _ => rfl

/-- An idle block's register reads its value (R64). -/
theorem busRead_regAddr {s : State} (hidle : s.eng = .idle) (r : Reg) :
    s.busRead (HostProgram.regAddr r) = s.regValue r :=
  busRead_reg (wordAddress_regAddr r) (.inl ((State.busy_eq_false_iff s).2 hidle))

/-- A write of a register goes by the register's access rule (R65). -/
theorem busWrite_regAddr (s : State) (r : Reg) (v : Word) :
    s.busWrite (HostProgram.regAddr r) v = s.writeReg v r :=
  busWrite_reg (wordAddress_regAddr r) v

theorem State.whenIdle_of_idle {s : State} (hidle : s.eng = .idle) (f : State → State) : s.whenIdle f = f s := by
  rw [State.whenIdle, (State.busy_eq_false_iff s).2 hidle]; rfl

/-- R20's table lists the registers' offsets and no others. -/
theorem exists_offset_eq {o : Nat} (h : o ∈ registerOffsets) : ∃ r : Reg, r.offset = o := by
  have hregs : registerOffsets = allRegs.map Reg.offset := by decide
  obtain ⟨r, -, hr⟩ := List.mem_map.1 (hregs ▸ h)
  exact ⟨r, hr⟩

/-- CTRL reads IE in bit 0 and zeros above (R24). -/
theorem State.ctrlWord_eq (s : State) : s.ctrlWord = if s.ie then 1#32 else 0#32 := by
  rw [State.ctrlWord]; cases s.ie <;> rfl

/-- Settles O41: the reset block's CTRL and STATUS are read as registers, every other field is a field of the reset. -/
theorem resetEventResetsTheBlock : Obligations.ResetEventResetsTheBlock := by
  intro s rest hl hd hw
  exact ⟨_, step_rst hl hd hw, rfl, busRead_regAddr rfl .ctrl, busRead_regAddr rfl .status, rfl, rfl, rfl, rfl, rfl,
    rfl, rfl, rfl, rfl, rfl, rfl, rfl, rfl, fun _ => rfl, fun _ => rfl, fun _ => rfl⟩

/-- Settles O43: each address is a register's, whose value is a constant, a parameter or a field. -/
theorem registersReadTheirValues : Obligations.RegistersReadTheirValues := by
  intro s hidle
  have reads := busRead_regAddr hidle
  exact ⟨reads .id, reads .version, reads .cfgNsym, reads .cfgIn, reads .cfgPack, reads .cfgOut,
    (reads .ctrl).trans s.ctrlWord_eq, reads .cmd, reads .errCode, reads .errInfo, reads .inLen, reads .packLen,
    reads .outLen, reads .ndist, reads .encBits, reads .encPad, reads .tblIdx⟩

/-- STATUS is the binary number of its five flags (R25). -/
theorem State.statusWord_eq_bits (s : State) :
    s.statusWord = BitVec.ofNat 32
      (Nat.bit s.busy (Nat.bit s.done (Nat.bit s.err (Nat.bit s.ovr (Nat.bit s.tvalid 0))))) := by
  simp only [State.statusWord, Nat.bit_val]
  congr 1
  omega

/-- Bit `k` of STATUS is its `k`-th flag, 0 above bit 4 (R25). -/
theorem State.statusWord_getLsbD (s : State) (k : Nat) :
    s.statusWord.getLsbD k = [s.busy, s.done, s.err, s.ovr, s.tvalid].getD k false := by
  rw [s.statusWord_eq_bits, BitVec.getLsbD_ofNat]
  match k with
  | 0 | 1 | 2 | 3 | 4 => simp [Nat.testBit_bit_succ]
  | k + 5 => simp [Nat.testBit_bit_succ]

/-- Settles O44: the bits of STATUS are its flags, of which BUSY and ERR stand for ENG and ERR_CODE. -/
theorem statusBitsReadTheFlags : Obligations.StatusBitsReadTheFlags := by
  intro s
  have hread : s.busRead 0x024#22 = s.statusWord := busRead_status s
  have hbusy : s.busy = true ↔ s.eng ≠ .idle := by
    rw [ne_eq, ← State.busy_eq_false_iff, Bool.not_eq_false]
  have herr : s.err = true ↔ s.errCode ≠ 0#4 := bne_iff_ne
  simp only [hread, State.statusWord_getLsbD]
  refine ⟨hbusy, rfl, herr, rfl, rfl, fun k hk => ?_⟩
  exact List.getD_eq_default _ _ hk

/-- Settles O45: CTRL, STATUS, CMD, IN_LEN, PACK_LEN and TBL_IDX by their access rules, which ignore any other write. -/
theorem idleRegisterWrites : Obligations.IdleRegisterWrites := by
  intro s v hidle
  have writes := fun r => busWrite_regAddr s r v
  refine ⟨writes .ctrl, (writes .status).trans (writeStatus_eq s v), (writes .cmd).trans ?_,
    (writes .inLen).trans (State.whenIdle_of_idle hidle fun s => { s with inLen := v }),
    (writes .packLen).trans (State.whenIdle_of_idle hidle fun s => { s with packLen := v }),
    (writes .tblIdx).trans (State.whenIdle_of_idle hidle fun s => { s with tblIdx := v }), fun a ha hother => ?_⟩
  · rw [State.writeReg, State.writeCmd, (State.busy_eq_false_iff s).2 hidle]; rfl
  · obtain ⟨r, rfl⟩ := exists_offset_eq ha
    cases r with
    | ctrl | status | cmd | inLen | packLen | tblIdx => exact absurd (by decide) hother
    | _ => exact writes _

/-! ### Table read-back -/

/-- TBL_IDX selects the entry at its index while TV is 1 (R43). -/
theorem State.selected_eq_some {s : State} {e : Entry} (htv : s.tv = true) (he : s.table[s.tblIdx.toNat]? = some e) :
    s.selected = some e := by
  rw [State.selected, if_pos htv, he]

/-- Nothing is selected while TV is 0 or beyond the last entry (R43, R46). -/
theorem State.selected_eq_none {s : State} (h : s.tv = false ∨ s.table.length ≤ s.tblIdx.toNat) :
    s.selected = none := by
  rw [State.selected]
  rcases h with htv | hidx
  · rw [htv]; rfl
  · rw [List.getElem?_eq_none hidx, ite_self]

/-- CLEN holds the length of a code of at most 255 bits exactly (R41). -/
theorem Entry.clen_toNat {e : Entry} (h : e.code.length ≤ 255) : e.clen.toNat = e.code.length := by
  rw [Entry.clen, BitVec.toNat_ofNat]; omega

/-- Settles O52: the eleven registers by the entry selected, a code's words bit by bit (R45). -/
theorem tableReadBack : Obligations.TableReadBack := by
  intro s hidle
  have reads := busRead_regAddr hidle
  have readsCode : ∀ k (hk : k < 8), s.busRead (BitVec.ofNat 22 (0x060 + 4 * k)) = s.tblCode ⟨k, hk⟩ :=
    fun k hk => reads (.tblCode ⟨k, hk⟩)
  refine ⟨fun e htv he hlen => ?_, fun hnone => ?_⟩
  · have hsel := State.selected_eq_some htv he
    refine ⟨(reads .tblSym).trans ?_, (reads .tblFreq).trans ?_, (congrArg _ (reads .tblClen)).trans ?_,
      fun k hk m hm => ?_⟩
    · simp only [State.regValue, State.tblSym, hsel]
    · simp only [State.regValue, State.tblFreq, hsel]
    · simp only [State.regValue, State.tblClen, hsel]
      rw [BitVec.toNat_setWidth_of_le (by decide), Entry.clen_toNat hlen]
    · simp only [readsCode k hk, State.tblCode, hsel]
      exact codeWord_bit e.code k m hm
  · have hsel := State.selected_eq_none hnone
    refine ⟨(reads .tblSym).trans ?_, (reads .tblFreq).trans ?_, (reads .tblClen).trans ?_,
      fun k hk => (readsCode k hk).trans ?_⟩
    · simp only [State.regValue, State.tblSym, hsel]
    · simp only [State.regValue, State.tblFreq, hsel]
    · simp only [State.regValue, State.tblClen, hsel]
    · simp only [State.tblCode, hsel]

end Sys2Proof.Machine

/-!
SUPPORT. Read and write events, the inputs a running command freezes, the wait for irq, and the words of the host window
(20_memory.md).
-/

namespace Sys2Proof.Machine

/-! ### Read and write events -/

/-- Settles O8: the event's read answers the bus read, which looks at neither the events nor the count of events. -/
theorem readHasNoSideEffect : Obligations.ReadHasNoSideEffect := by
  intro s a rest hl hd hw
  rw [step_event hl hd (by simp [hw])]
  simp only [worldStep, hw]
  rfl

/-- Settles O57: the outside world's step at a write event is the bus write. -/
theorem writeEventsReachTheBus : Obligations.WriteEventsReachTheBus := by
  intro s a v rest hl hd hw
  rw [step_event hl hd (by simp [hw])]
  simp only [worldStep, hw]

/-! ### What a running command freezes -/

/-- While BUSY a write reaches nothing but CTRL.IE and the flags DONE and OVR (R192). -/
theorem busWrite_busy_flagsOnly {s : State} (hb : s.busy = true) (a : Addr) (v : Word) :
    ∃ ie done ovr, s.busWrite a v = { s with ie := ie, done := done, ovr := ovr } := by
  rw [busWrite_busy hb, writeStatus_eq]
  split
  · exact ⟨_, _, _, rfl⟩
  split
  · exact ⟨_, _, _, rfl⟩
  split
  · exact ⟨_, _, _, rfl⟩
  · exact ⟨_, _, _, rfl⟩

/-- Settles O39: a completion and a reset leave the block idle, a write reaches only flags, nothing else touches it. -/
theorem inputsAreFrozenWhileBusy : Obligations.InputsAreFrozenWhileBusy := by
  intro s t h hs ht
  rcases step_next_cases h with ⟨op, -, -, hc⟩ | ⟨a, v, rest, n, -, rfl⟩ | ⟨rest, n, -, rfl⟩ | ⟨w, rs, n, rfl⟩
  · obtain ⟨hidle, -⟩ := runCommand_frame hc
    exact absurd (ht.symm.trans ((State.busy_eq_false_iff t).2 hidle)) (by decide)
  · obtain ⟨ie, done, ovr, hw⟩ := busWrite_busy_flagsOnly (s := { s with world := rest, wait := n }) hs a v
    rw [hw]
    exact ⟨rfl, rfl, rfl, rfl, rfl, rfl, rfl, rfl, rfl, rfl, rfl, rfl, rfl, rfl, rfl⟩
  · exact nomatch ht
  · exact ⟨rfl, rfl, rfl, rfl, rfl, rfl, rfl, rfl, rfl, rfl, rfl, rfl, rfl, rfl, rfl⟩

/-! ### The wait for irq while a command runs -/

/-- While a command runs with DONE 0 the wait for irq repeats at every event let pass, up to the command's completion
(R77; logs 2 and 16). -/
theorem run_irqWait {s : State} {op : Command} {rest : List Event} (hl : s.cfg.legal = true) (he : s.eng = .run op)
    (hdone : s.done = false) (hw : s.world = .waitIrq :: rest) (n : Nat) :
    Sys2Proof.core.run n { s with wait := n } = .next { s with wait := 0 } := by
  induction n with
  | zero => rfl
  | succ n ih =>
    have hstep : step { s with wait := n + 1 } = .next { s with wait := n } := by
      rw [irqWaitRepeatsUntilIrq { s with wait := n + 1 } rest hl (.inr n.succ_ne_zero) hw]
      simp [he, hdone]
    rw [run_succ hstep, ih]

/-- Settles O60: the wait repeats until the completion is due, which raises irq, and the next look at irq ends it. -/
theorem irqWaitEndsWithTheCommand : Obligations.IrqWaitEndsWithTheCommand := by
  intro s op rest hl he hdone hie hw
  obtain ⟨t, ht⟩ := runCommand_completes op { s with wait := 0 }
  obtain ⟨htidle, htdone, htcfg, htie, -, -, -, -, htworld, -⟩ := runCommand_frame ht
  have hirq : t.irq = true := (completionRaisesIrqWhenEnabled _ t op ht).trans hie
  have hcompletion : step { s with wait := 0 } = .next t :=
    (step_due (s := { s with wait := 0 }) hl he (.inl rfl)).trans ht
  have hend : step t = .next { t with world := rest } := by
    rw [irqWaitRepeatsUntilIrq t rest (htcfg ▸ hl) (.inl htidle) (htworld.trans hw), if_pos htidle,
      if_pos ⟨htie.trans hie, htdone⟩]
  refine ⟨t, ht, htidle, htdone, hirq, ?_⟩
  rw [run_add s.wait 2 (run_irqWait hl he hdone hw s.wait), run_succ hcompletion, run_succ hend]
  rfl

/-! ### The word an address names, region by region -/

theorem targetAt_of_lt_symBase (p : Config.Params) {a : Addr} (h : wordAddress a < 0x100000) :
    targetAt p a = regTarget (wordAddress a) := by
  rw [targetAt, if_pos h]

theorem targetAt_of_symRegion (p : Config.Params) {a : Addr} (h : 0x100000 ≤ wordAddress a)
    (h' : wordAddress a < 0x200000) :
    targetAt p a = mappedWord p.inMax ((wordAddress a - 0x100000) / 4) (.sym ((wordAddress a - 0x100000) / 4)) := by
  rw [targetAt, if_neg (by omega), if_pos h']

theorem targetAt_of_packRegion (p : Config.Params) {a : Addr} (h : 0x200000 ≤ wordAddress a)
    (h' : wordAddress a < 0x300000) :
    targetAt p a = mappedWord p.packMax ((wordAddress a - 0x200000) / 4) (.pack ((wordAddress a - 0x200000) / 4)) := by
  rw [targetAt, if_neg (by omega), if_neg (by omega), if_pos h']

theorem targetAt_of_outRegion (p : Config.Params) {a : Addr} (h : 0x300000 ≤ wordAddress a) :
    targetAt p a = mappedWord p.outMax ((wordAddress a - 0x300000) / 4) (.out ((wordAddress a - 0x300000) / 4)) := by
  rw [targetAt, if_neg (by omega), if_neg (by omega), if_neg (by omega)]

theorem mappedWord_of_lt {depth i : Nat} (h : i < depth) (t : Target) : mappedWord depth i t = t := if_pos h

theorem mappedWord_of_le {depth i : Nat} (h : depth ≤ i) (t : Target) : mappedWord depth i t = .unmapped :=
  if_neg (Nat.not_lt.2 h)

/-- Settles O47: in each region the address names nothing, so reads give 0 and writes are ignored. -/
theorem unmappedWordsReadZero : Obligations.UnmappedWordsReadZero := by
  intro s a v h
  refine bus_unmapped ?_ v
  rcases h with ⟨hlt, hnot⟩ | ⟨hge, hlt, hdepth⟩ | ⟨hge, hlt, hdepth⟩ | ⟨hge, hdepth⟩
  · rw [targetAt_of_lt_symBase _ hlt, regTarget, regAt_eq_none hnot]
  · rw [targetAt_of_symRegion _ hge hlt, mappedWord_of_le hdepth]
  · rw [targetAt_of_packRegion _ hge hlt, mappedWord_of_le hdepth]
  · rw [targetAt_of_outRegion _ hge, mappedWord_of_le hdepth]

/-- Settles O48: the address with bits 1:0 cleared names the same word. -/
theorem lowAddressBitsAreIgnored : Obligations.LowAddressBitsAreIgnored := by
  intro s a v
  constructor
  · simp only [State.busRead, targetAt_wordAddress]
  · simp only [State.busWrite, targetAt_wordAddress]

/-! ### The words of the data memories -/

/-- Each of the four bytes of a whole word's address names the word (R63). -/
theorem wordAddress_ofNat_add {n b : Nat} (hn : n % 4 = 0) (hlt : n < 0x400000) (hb : b < 4) :
    wordAddress (BitVec.ofNat 22 (n + b)) = n := by
  rw [wordAddress_ofNat (by omega)]; omega

/-- Word `i` of the SYM_MEM region (R61). -/
theorem targetAt_symWord (p : Config.Params) {i b : Nat} (hi : i < 262144) (hb : b < 4) :
    targetAt p (BitVec.ofNat 22 (0x100000 + 4 * i + b)) = mappedWord p.inMax i (.sym i) := by
  have ha := wordAddress_ofNat_add (n := 0x100000 + 4 * i) (by omega) (by omega) hb
  rw [targetAt_of_symRegion p (by omega) (by omega), ha, show (0x100000 + 4 * i - 0x100000) / 4 = i by omega]

/-- Word `i` of the PACK_MEM region (R61). -/
theorem targetAt_packWord (p : Config.Params) {i b : Nat} (hi : i < 262144) (hb : b < 4) :
    targetAt p (BitVec.ofNat 22 (0x200000 + 4 * i + b)) = mappedWord p.packMax i (.pack i) := by
  have ha := wordAddress_ofNat_add (n := 0x200000 + 4 * i) (by omega) (by omega) hb
  rw [targetAt_of_packRegion p (by omega) (by omega), ha, show (0x200000 + 4 * i - 0x200000) / 4 = i by omega]

/-- Word `i` of the OUT_MEM region (R61). -/
theorem targetAt_outWord (p : Config.Params) {i b : Nat} (hi : i < 262144) (hb : b < 4) :
    targetAt p (BitVec.ofNat 22 (0x300000 + 4 * i + b)) = mappedWord p.outMax i (.out i) := by
  have ha := wordAddress_ofNat_add (n := 0x300000 + 4 * i) (by omega) (by omega) hb
  rw [targetAt_of_outRegion p (by omega), ha, show (0x300000 + 4 * i - 0x300000) / 4 = i by omega]

/-- An idle block's read gives the value of the word named (R64). -/
theorem busRead_of_idle {s : State} (hidle : s.eng = .idle) {a : Addr} {t : Target} (ht : targetAt s.cfg a = t) :
    s.busRead a = s.wordValue t := by
  rw [State.busRead, (State.busy_eq_false_iff s).2 hidle, ht]; rfl

/-- An idle block stores bits 20:0 in the SYM_MEM word named (R62, R65). -/
theorem busWrite_sym {s : State} (hidle : s.eng = .idle) {a : Addr} {i : Nat} (ht : targetAt s.cfg a = .sym i)
    (v : Word) : s.busWrite a v = { s with symMem := s.symMem.write i (v.setWidth 21) } := by
  rw [State.busWrite, ht]; exact State.whenIdle_of_idle hidle _

/-- An idle block stores bits 7:0 in the PACK_MEM word named (R62, R65). -/
theorem busWrite_pack {s : State} (hidle : s.eng = .idle) {a : Addr} {i : Nat} (ht : targetAt s.cfg a = .pack i)
    (v : Word) : s.busWrite a v = { s with packMem := s.packMem.write i (v.setWidth 8) } := by
  rw [State.busWrite, ht]; exact State.whenIdle_of_idle hidle _

/-- The host does not write OUT_MEM (R62). -/
theorem busWrite_out {s : State} {a : Addr} {i : Nat} (ht : targetAt s.cfg a = .out i) (v : Word) :
    s.busWrite a v = s := by
  rw [State.busWrite, ht]

/-- An idle block at word `i` of a memory region: its word below the depth, nothing from there on (R64, R66). -/
theorem bus_memoryWord {s : State} (hidle : s.eng = .idle) {a : Addr} {depth i : Nat} {t : Target}
    (h : targetAt s.cfg a = mappedWord depth i t) (v : Word) :
    (i < depth → targetAt s.cfg a = t ∧ s.busRead a = s.wordValue t) ∧
    (depth ≤ i → s.busRead a = 0#32 ∧ s.busWrite a v = s) := by
  refine ⟨fun hlt => ?_, fun hge => bus_unmapped (h.trans (mappedWord_of_le hge t)) v⟩
  have htarget := h.trans (mappedWord_of_lt hlt t)
  exact ⟨htarget, busRead_of_idle hidle htarget⟩

/-- Settles O49: the address names SYM_MEM word `i` below the depth and nothing from there on. -/
theorem symMemWords : Obligations.SymMemWords := by
  rintro s i b v hidle hi hb a rfl
  obtain ⟨hbelow, hbeyond⟩ := bus_memoryWord hidle (targetAt_symWord s.cfg hi hb) v
  refine ⟨fun hlt => ?_, hbeyond⟩
  obtain ⟨htarget, hread⟩ := hbelow hlt
  have hwrite := busWrite_sym hidle htarget v
  exact ⟨hread, _, hwrite, fun j => (congrArg (State.readSym · j) hwrite).trans (Memory.read_write ..)⟩

/-- Settles O50: the address names PACK_MEM word `i` below the depth and nothing from there on. -/
theorem packMemWords : Obligations.PackMemWords := by
  rintro s i b v hidle hi hb a rfl
  obtain ⟨hbelow, hbeyond⟩ := bus_memoryWord hidle (targetAt_packWord s.cfg hi hb) v
  refine ⟨fun hlt => ?_, hbeyond⟩
  obtain ⟨htarget, hread⟩ := hbelow hlt
  have hwrite := busWrite_pack hidle htarget v
  exact ⟨hread, _, hwrite, fun j => (congrArg (State.readPack · j) hwrite).trans (Memory.read_write ..)⟩

/-- Settles O51: the address names OUT_MEM word `i` below the depth and nothing from there on. -/
theorem outMemWords : Obligations.OutMemWords := by
  rintro s i b v hidle hi hb a rfl
  obtain ⟨hbelow, hbeyond⟩ := bus_memoryWord hidle (targetAt_outWord s.cfg hi hb) v
  by_cases hlt : i < s.cfg.outMax
  · obtain ⟨htarget, hread⟩ := hbelow hlt
    exact ⟨hread.trans (if_pos hlt).symm, busWrite_out htarget v⟩
  · obtain ⟨hread, hwrite⟩ := hbeyond (Nat.not_lt.1 hlt)
    exact ⟨hread.trans (if_neg hlt).symm, hwrite⟩

end Sys2Proof.Machine

/-!
SUPPORT. Command words, the POLL of STATUS and the pseudo-instructions built on it, LOADSYM, and the artifact as ENCODE
writes it and DECODE reads it (30_encoding.md).
-/

namespace Sys2Proof.Machine

/-! ### Command words -/

theorem decodeCmd_encode (i : Instr) : decodeCmd (encode i) = .instr i := by
  cases i <;> rfl

/-- Every word is the encoding of the command it decodes to, or no command's and rejected with itself (R87, R88). -/
theorem decodeCmd_cases (v : Word) :
    (∃ i, v = encode i ∧ decodeCmd v = .instr i) ∨ ((∀ i, v ≠ encode i) ∧ decodeCmd v = .illegal v) := by
  by_cases h : ∃ i, v = encode i
  · obtain ⟨i, rfl⟩ := h
    exact .inl ⟨i, rfl, decodeCmd_encode i⟩
  · have hne : ∀ i, v ≠ encode i := not_exists.1 h
    refine .inr ⟨hne, ?_⟩
    have h1 : v ≠ 1#32 := hne .clear
    have h2 : v ≠ 2#32 := hne .encode
    have h3 : v ≠ 3#32 := hne .decode
    simp only [decodeCmd, h1, h2, h3, if_false]

theorem decodeCmd_eq_instr_iff {v : Word} {i : Instr} : decodeCmd v = .instr i ↔ v = encode i := by
  refine ⟨fun h => ?_, fun h => h ▸ decodeCmd_encode i⟩
  rcases decodeCmd_cases v with ⟨j, hv, hj⟩ | ⟨-, hill⟩
  · cases hj.symm.trans h
    exact hv
  · exact nomatch hill.symm.trans h

/-- Settles O1: seven closed facts about the decoder. -/
theorem commandWordsDecode : Obligations.CommandWordsDecode := by
  unfold Obligations.CommandWordsDecode
  decide

/-- Settles O2: a word is a command's encoding, and decodes to it, or is no command's and illegal. -/
theorem decodeAndEncodeAgree : Obligations.DecodeAndEncodeAgree := by
  refine ⟨fun i _ => decodeCmd_encode i, fun v i => decodeCmd_eq_instr_iff.1, fun v hne => ?_⟩
  rcases decodeCmd_cases v with ⟨i, hv, -⟩ | ⟨-, hill⟩
  · exact absurd hv (hne i)
  · exact hill

/-- A command word is its RSV field and then its OP field (R86). -/
theorem word_toNat_eq_fields (v : Word) :
    v.toNat = 16 * (v.extractLsb 31 4).toNat + (v.extractLsb 3 0).toNat := by
  have := v.isLt
  simp only [BitVec.extractLsb_toNat, Nat.shiftRight_eq_div_pow]
  omega

/-- The two fields determine the word (R86). -/
theorem word_eq_of_fields {v w : Word} (hrsv : v.extractLsb 31 4 = w.extractLsb 31 4)
    (hop : v.extractLsb 3 0 = w.extractLsb 3 0) : v = w :=
  BitVec.eq_of_toNat_eq (by rw [word_toNat_eq_fields v, word_toNat_eq_fields w, hrsv, hop])

/-- Settles O3: a command's encoding has the fields named, and the fields determine the word. -/
theorem commandWordFieldsDecide : Obligations.CommandWordFieldsDecide := by
  intro v
  simp only [decodeCmd_eq_instr_iff]
  constructor
  · rintro ⟨i, rfl⟩
    cases i <;> decide
  · rintro ⟨hrsv, hop | hop | hop⟩
    · exact ⟨.clear, word_eq_of_fields hrsv hop⟩
    · exact ⟨.encode, word_eq_of_fields hrsv hop⟩
    · exact ⟨.decode, word_eq_of_fields hrsv hop⟩

/-! ### POLL and WAIT -/

/-- Settles O9: at a POLL the outside world's step is a read that goes by the masked value. -/
theorem pollRepeatsUntilItMatches : Obligations.PollRepeatsUntilItMatches := by
  intro s a mask value rest hl hd hw
  rw [step_event hl hd (by simp [hw])]
  by_cases h : s.busRead a &&& mask = value
  · rw [if_pos h]
    simp only [worldStep, hw]
    exact if_pos h
  · rw [if_neg h]
    simp only [worldStep, hw]
    exact if_neg h

/-- WAIT in an idle block is one read of STATUS, whose BUSY is 0 (R92). -/
theorem step_waitIdle_of_idle {s : State} {rest : List Event} (hl : s.cfg.legal = true)
    (hw : s.world = HostProgram.waitIdle ++ rest) (hidle : s.eng = .idle) :
    step s = .next { s with world := rest, replies := s.statusWord :: s.replies } := by
  rw [pollRepeatsUntilItMatches s _ _ _ rest hl (.inl hidle) hw, busRead_status,
    if_pos ((statusWord_and_one s).2 ((State.busy_eq_false_iff s).2 hidle)), if_pos hidle]

/-- WAIT while a command runs is one read of STATUS and stays next, one event less to let pass (R92; logs 2 and 3). -/
theorem step_waitIdle_of_run {s : State} {op : Command} {rest : List Event} (hl : s.cfg.legal = true)
    (hw : s.world = HostProgram.waitIdle ++ rest) (he : s.eng = .run op) (hwait : s.wait ≠ 0) :
    step s = .next { s with replies := s.statusWord :: s.replies, wait := s.wait - 1 } := by
  have hbusy : ¬ s.busy = false := by simp [(State.busy_iff s).2 ⟨op, he⟩]
  rw [pollRepeatsUntilItMatches s _ _ _ rest hl (.inr hwait) hw, busRead_status,
    if_neg (mt (statusWord_and_one s).1 hbusy), if_neg (by simp [he])]

/-- While a command runs WAIT reads STATUS at every event let pass, up to the command's completion. -/
theorem run_waitIdle {s : State} {op : Command} {rest : List Event} (hl : s.cfg.legal = true)
    (hw : s.world = HostProgram.waitIdle ++ rest) (he : s.eng = .run op) (n : Nat) (rs : List Word) :
    Sys2Proof.core.run n { s with wait := n, replies := rs } =
      .next { s with wait := 0, replies := List.replicate n s.statusWord ++ rs } := by
  induction n generalizing rs with
  | zero => rfl
  | succ n ih =>
    have hstep : step { s with wait := n + 1, replies := rs } =
        .next { s with wait := n, replies := s.statusWord :: rs } :=
      step_waitIdle_of_run (s := { s with wait := n + 1, replies := rs }) hl hw he n.succ_ne_zero
    rw [run_succ hstep, ih, List.replicate_succ', List.append_assoc, List.singleton_append]

/-- Settles O59: WAIT reads until the completion is due, and the read after the completion ends it. -/
theorem waitEndsWithTheCommand : Obligations.WaitEndsWithTheCommand := by
  intro s rest hl hw
  refine ⟨step_waitIdle_of_idle hl hw, fun op he => ?_⟩
  set due : State := { s with wait := 0, replies := List.replicate s.wait s.statusWord ++ s.replies }
  obtain ⟨t, ht⟩ := runCommand_completes op due
  obtain ⟨htidle, htdone, htcfg, -, -, -, -, -, htworld, -⟩ := runCommand_frame ht
  have hcompletion : step due = .next t := (step_due (s := due) hl he (.inl rfl)).trans ht
  have hend := step_waitIdle_of_idle (s := t) (htcfg ▸ hl) (htworld.trans hw) htidle
  refine ⟨t, ht, htidle, htdone, ?_⟩
  rw [run_add s.wait 2 (run_waitIdle hl hw he s.wait s.replies), run_succ hcompletion, run_succ hend]
  rfl

/-! ### A list written to a memory from word 0 on -/

/-- A list written from word 0 on is read back word by word. -/
theorem Memory.map_read_writeFrom {w : Nat} (free : Nat → Nat → BitVec w) (m : Memory w) {vs : List (BitVec w)} {n : Nat}
    (hn : vs.length = n) : (List.range n).map ((m.writeFrom 0 vs).read free) = vs := by
  subst hn
  refine List.ext_getElem (by simp) fun j hj hj' => ?_
  simp [Memory.read_writeFrom, hj']

/-- The words past a list written from word 0 on are as they were. -/
theorem Memory.read_writeFrom_of_le {w : Nat} (free : Nat → Nat → BitVec w) (m : Memory w) {vs : List (BitVec w)}
    {j : Nat} (hj : vs.length ≤ j) : (m.writeFrom 0 vs).read free j = m.read free j := by
  simp [Memory.read_writeFrom, hj]

/-! ### LOADSYM -/

/-- The step at a write of `SYM[i]` in an idle block stores bits 20:0 (R61, R62). -/
theorem step_writeSym {s : State} {i : Nat} {v : Word} {rest : List Event} (hl : s.cfg.legal = true)
    (hidle : s.eng = .idle) (hi : i < s.cfg.inMax) (hw : s.world = .write (HostProgram.symAddr i) v :: rest) :
    step s = .next { s with world := rest, symMem := s.symMem.write i (v.setWidth 21) } := by
  have hi' : i < 262144 := by
    obtain ⟨-, ⟨-, hin⟩, -⟩ := (Params.legal_iff _).1 hl
    omega
  have htarget : targetAt s.cfg (HostProgram.symAddr i) = .sym i :=
    (targetAt_symWord s.cfg hi' (b := 0) (by decide)).trans (mappedWord_of_lt hi _)
  rw [writeEventsReachTheBus s _ v rest hl (.inl hidle) hw, if_pos hidle]
  exact congrArg _ (busWrite_sym (s := { s with world := rest }) hidle htarget v)

/-- The step at a write of IN_LEN in an idle block (R34). -/
theorem step_writeInLen {s : State} {v : Word} {rest : List Event} (hl : s.cfg.legal = true) (hidle : s.eng = .idle)
    (hw : s.world = .write (HostProgram.regAddr .inLen) v :: rest) :
    step s = .next { s with world := rest, inLen := v } := by
  rw [writeEventsReachTheBus s _ v rest hl (.inl hidle) hw, if_pos hidle, busWrite_regAddr]
  exact congrArg _ (State.whenIdle_of_idle (s := { s with world := rest }) hidle fun s => { s with inLen := v })

/-- The symbol writes of LOADSYM from word `i` on store the list from word `i` on (R92). -/
theorem run_loadSymFrom (vs : List Word) {s : State} {i : Nat} {rest : List Event} (hl : s.cfg.legal = true)
    (hidle : s.eng = .idle) (hfit : i + vs.length ≤ s.cfg.inMax)
    (hw : s.world = HostProgram.loadSymFrom i vs ++ rest) :
    Sys2Proof.core.run vs.length s =
      .next { s with world := rest, symMem := s.symMem.writeFrom i (vs.map (·.setWidth 21)) } := by
  induction vs generalizing s i with
  | nil =>
    obtain rfl : s.world = rest := hw
    rfl
  | cons v vs ih =>
    rw [List.length_cons] at hfit ⊢
    refine (run_succ (step_writeSym hl hidle (by omega) hw) _).trans ?_
    exact ih hl hidle (by dsimp only; omega) rfl

/-- LOADSYM writes the symbols one by one, then IN_LEN (R92). -/
theorem run_loadSym {s : State} {vs : List Word} {rest : List Event} (hl : s.cfg.legal = true) (hidle : s.eng = .idle)
    (hfit : vs.length ≤ s.cfg.inMax) (hw : s.world = HostProgram.loadSym vs ++ rest) :
    Sys2Proof.core.run (vs.length + 1) s =
      .next { s with world := rest, symMem := s.symMem.writeFrom 0 (vs.map (·.setWidth 21)),
                     inLen := BitVec.ofNat 32 vs.length } := by
  rw [HostProgram.loadSym, List.append_assoc] at hw
  refine (run_add _ 1 (run_loadSymFrom vs hl hidle (by omega) hw)).trans (run_succ ?_ 0)
  exact step_writeInLen hl hidle rfl

/-- Settles O53: the text read back is the list written, and no word past it is. -/
theorem loadSymLoadsTheText : Obligations.LoadSymLoadsTheText := by
  intro s vs rest hl hidle hfit hw
  have hlen : (BitVec.ofNat 32 vs.length).toNat = vs.length := by
    obtain ⟨-, ⟨-, hin⟩, -⟩ := (Params.legal_iff _).1 hl
    rw [BitVec.toNat_ofNat]
    omega
  refine ⟨_, run_loadSym hl hidle hfit hw, rfl, hidle, hlen, ?_, fun j hj => ?_⟩
  · simp only [State.inputText, hlen]
    exact Memory.map_read_writeFrom Config.freeSymWord s.symMem (List.length_map _)
  · exact Memory.read_writeFrom_of_le _ _ ((List.length_map _).trans_le hj)

/-! ### The artifact -/

/-- A failing ENCODE leaves its error commit (R138). -/
theorem execEncode_error {s t : State} (h : exec .encode s = .next t) (h0 : t.errCode ≠ 0#4) :
    ∃ e, t = s.commitEncodeError.completeRaised e := by
  rcases execEncode_cases s with ⟨r, -, ht⟩ | ⟨e, -, ht⟩ <;> cases h.symm.trans ht
  · exact absurd rfl h0
  · exact ⟨e, rfl⟩

/-- Settles O20: the committed bytes unpack to the header, the raw code stream and the padding. -/
theorem encodeWritesTheArtifact : Obligations.EncodeWritesTheArtifact := by
  intro s t hl h
  refine ⟨fun h0 => ?_, fun h0 k => ?_⟩
  · obtain ⟨hpad, hbits, hlen, -, hunpack, hheader⟩ := execEncode_artifact hl h h0
    obtain ⟨-, -, -, hfit, r, hr, ht⟩ := execEncode_ok h h0
    have htable : s.inputText.flatMap (codeOf t.table) = textRaw s.inputText := by rw [ht, hr]; rfl
    obtain ⟨hpos, hle⟩ := padding_range (textRaw s.inputText).length
    have hsum := padding_sum (textRaw s.inputText).length
    have hB : artifactLength (textRaw s.inputText).length =
        1 + ((textRaw s.inputText).length + padding (textRaw s.inputText).length) / 8 := rfl
    have hword : t.readPack 0 = BitVec.ofNat 8 (padding (textRaw s.inputText).length) :=
      BitVec.eq_of_toNat_eq (by rw [BitVec.toNat_ofNat]; exact hheader.trans (by omega))
    rw [htable, hpad, hbits, hlen]
    refine ⟨hpos, hle, hsum, rfl, by omega, hfit, hheader, ?_, rfl, fun k hk => ?_⟩
    · rw [hunpack, hword]
      rfl
    · rw [ht, hr]
      exact Memory.read_writeFrom_of_le _ _ ((packBits_artifact_length _).trans_le hk)
  · obtain ⟨e, rfl⟩ := execEncode_error h h0
    rfl

/-- The BitUnpacker as a function of PACK_LEN, the header and the body (R142-R146). -/
theorem unpackBody_eq (s : State) :
    unpackBody s =
      if s.cfg.packMax < s.packLen.toNat then .error { cause := .lengthCapacity, info := s.packLen }
      else if s.packLen.toNat = 0 then .error (corrupt 1#32)
      else if 8 < s.header then .error (corrupt 2#32)
      else if 8 * s.packLen.toNat - 8 < s.header then .error (corrupt 3#32)
      else .ok s.body := by
  rcases unpackBody_cases s with ⟨h1, h⟩ | ⟨h1, h2, h⟩ | ⟨h1, h2, h3, h⟩ | ⟨h1, h2, h3, h4, h⟩ | ⟨⟨h1, h2, h3, h4⟩, h⟩
  · rw [h, if_pos h1]
  · rw [h, if_neg (by omega), if_pos h2]
  · rw [h, if_neg (by omega), if_neg (by omega), if_pos h3]
  · rw [h, if_neg (by omega), if_neg (by omega), if_neg (by omega), if_pos h4]
  · rw [h, if_neg (by omega), if_neg (by omega), if_neg (by omega), if_neg (by omega)]

/-- The body is the artifact's bits between the header and the padding (R144, R146). -/
theorem State.body_eq (s : State) :
    s.body = ((unpackBytes s.artifact).take (8 * s.packLen.toNat - s.header)).drop 8 := by
  rw [State.body, List.drop_take, Nat.sub_right_comm]

theorem exec_decode_ok {s : State} {body : Bits} {out : List Sym} (hb : unpackBody s = .ok body)
    (hw : walk s.validEntries s.cfg.outMax body [] [] = .ok out) :
    exec .decode s = .next (s.commitDecoded out).completeOk := by
  simp only [exec, execDecode, hb, hw]

/-- DECODE reads PACK_MEM through the BitUnpacker only, and does not write it (R114, R143). -/
theorem exec_decode_withPackMem {s t : State} {m : Memory 8}
    (hunpack : unpackBody { s with packMem := m } = unpackBody s) (h : exec .decode s = .next t) :
    exec .decode { s with packMem := m } = .next { t with packMem := m } := by
  rcases execDecode_cases s with ⟨e, hb, ht⟩ | ⟨hr, e, hwalk, ht⟩ | ⟨hr, out, hwalk, ht⟩ <;> cases h.symm.trans ht
  · exact exec_decode_unpackError (hunpack.trans hb)
  · exact exec_decode_walkError (hunpack.trans (unpackBody_ok hr)) hwalk
  · exact exec_decode_ok (hunpack.trans (unpackBody_ok hr)) hwalk

/-- Settles O31: the header and the body are the same, so the BitUnpacker gives the same. -/
theorem paddingBitsChangeNothing : Obligations.PaddingBitsChangeNothing := by
  intro s t m hword hbits h
  have hheader : ({ s with packMem := m } : State).header = s.header := congrArg BitVec.toNat hword
  have hbody : ({ s with packMem := m } : State).body = s.body := by
    rw [State.body_eq, State.body_eq, hheader]
    exact congrArg (List.drop 8) hbits
  refine exec_decode_withPackMem ?_ h
  rw [unpackBody_eq, unpackBody_eq s, hheader, hbody]

/-! ### The tree -/

/-- The walker starts from the tree itself when it has two leaves or more (R156). -/
theorem walkRoot_eq_self {t : Tree} (h : 2 ≤ t.entries.length) : walkRoot t = t := by
  cases t with
  | internal w l r => rfl
  | leaf i w => exact absurd h (by simp [Tree.entries])
  | missing => exact absurd h (by simp [Tree.entries])

/-- A lone entry: the tree is its leaf, which the walker takes as left child, and its code is "0" (R125, R156). -/
theorem lone_entry_path (f : Nat) : (walkRoot (buildTree [f])).path 0 = some [false] := rfl

/-- Settles O22: two entries or more are the merges' paths, one entry is the left child of the walker's root. -/
theorem codesArePathsOfTheTree : Obligations.CodesArePathsOfTheTree := by
  intro freqs h
  match freqs with
  | [f] =>
    refine ⟨rfl, rfl, .refl _, fun i hi => ?_⟩
    obtain rfl : i = 0 := Nat.lt_one_iff.1 hi
    exact lone_entry_path f
  | a :: b :: l =>
    have h2 : 2 ≤ (a :: b :: l).length := Nat.le_add_left ..
    obtain ⟨hlen, hfull, hperm, hpath⟩ := build_paths _ h2
    have hroot : walkRoot (buildTree (a :: b :: l)) = buildTree (a :: b :: l) :=
      walkRoot_eq_self (by rwa [hperm.length_eq, List.length_range])
    exact ⟨hlen, hfull, hperm, hroot.symm ▸ hpath⟩

end Sys2Proof.Machine

/-!
SUPPORT. The acceptance, the run and the completion of a command, what it depends on and what it leaves unchanged, and
runs that never stop (40_control.md).
-/

namespace Sys2Proof.Machine

/-! ### Good runs -/

/-- An event takes at most itself from the events to come (log 3). -/
theorem worldStep_world_suffix {s t : State} (h : worldStep s = .next t) : t.world <:+ s.world := by
  rcases worldStep_cases h with ⟨-, rfl⟩ | ⟨a, v, rest, hw, rfl⟩ | ⟨w, rs, rfl | ⟨e, hw⟩, rfl⟩ | ⟨rest, hw, rfl⟩
  · exact List.suffix_rfl
  · obtain ⟨-, -, -, -, -, -, -, hworld, -⟩ := busWrite_frame { s with world := rest } a v
    rw [hworld, hw]
    exact List.suffix_cons _ _
  · exact List.suffix_rfl
  · rw [hw]
    exact List.suffix_cons _ _
  · rw [hw]
    exact List.suffix_cons _ _

/-- A step adds nothing to the events to come (log 3). -/
theorem step_world_suffix {s t : State} (h : step s = .next t) : t.world <:+ s.world := by
  obtain ⟨-, ⟨op, -, -, hc⟩ | ⟨-, hw⟩ | ⟨op, -, -, -, hw⟩⟩ := step_cases h
  · obtain ⟨-, -, -, -, -, -, -, -, hworld, -⟩ := runCommand_frame hc
    rw [hworld]
  · exact worldStep_world_suffix hw
  · exact worldStep_world_suffix (s := { s with wait := s.wait - 1 }) hw

/-- A step of a block with legal parameters whose events are inside the spec is not refused (I20, I21). -/
theorem step_progress {s : State} (hl : s.cfg.legal = true) (hin : s.worldInside) : ∃ t, step s = .next t := by
  cases hs : step s with
  | next t => exact ⟨t, rfl⟩
  | fault f => exact nomatch f
  | refused r =>
    have hinside : ∀ {e rest}, s.world = e :: rest → e.inside = true :=
      fun hw => hin _ (hw ▸ List.mem_cons_self)
    rcases (stepRefusesOnlyWhatTheSpecKeepsOutside s r).1 hs with
      ⟨hill, -⟩ | ⟨-, -, ⟨a, n, rest, hw, -⟩ | ⟨a, rest, hw, -⟩⟩
    · exact nomatch hl.symm.trans hill
    · exact nomatch hinside hw
    · exact nomatch hinside hw

/-- Settles O56, by induction on the number of steps: a good state has a next one, which is good again. -/
theorem goodRunsNeverStop : Obligations.GoodRunsNeverStop := by
  intro s n
  induction n generalizing s with
  | zero => exact fun hinv hin => ⟨s, rfl, hinv, hin⟩
  | succ n ih =>
    intro hinv hin
    obtain ⟨t, hs⟩ := step_progress hinv.control.legal hin
    have htin : t.worldInside := fun e he => hin e ((step_world_suffix hs).subset he)
    rw [run_succ hs]
    exact ih t (everyStepKeepsTheInvariant s t hinv hs) htin

/-! ### CMD writes -/

/-- An idle block accepts the word (R106). -/
theorem State.writeCmd_of_idle {s : State} (he : s.eng = .idle) (v : Word) : s.writeCmd v = s.accept v := by
  rw [State.writeCmd, (State.busy_eq_false_iff s).2 he]
  rfl

/-- While a command runs the word is dropped and OVR set (R111). -/
theorem State.writeCmd_of_run {s : State} {op : Command} (he : s.eng = .run op) (v : Word) :
    s.writeCmd v = { s with ovr := true } := by
  rw [State.writeCmd, (State.busy_iff s).2 ⟨op, he⟩]
  rfl

/-- Settles O6: the write event reaches the bus, where an idle block accepts the word. -/
theorem cmdWriteIsAccepted : Obligations.CmdWriteIsAccepted := by
  intro s a v rest hl hidle hw ha
  rw [writeEventsReachTheBus s a v rest hl (.inl hidle) hw, if_pos hidle, busWrite_cmd ha]
  exact congrArg _ (State.writeCmd_of_idle (s := { s with world := rest }) hidle v)

/-- Settles O7: the write event reaches the bus, where a running command's block only sets OVR. -/
theorem cmdWriteWhileBusyIsDropped : Obligations.CmdWriteWhileBusyIsDropped := by
  intro s op a v rest hl he hwait hw ha
  rw [writeEventsReachTheBus s a v rest hl (.inr hwait) hw, if_neg (by simp [he]), busWrite_cmd ha]
  exact congrArg _ (State.writeCmd_of_run (s := { s with world := rest, wait := s.wait - 1 }) he v)

/-! ### What ENCODE and DECODE depend on -/

/-- The first words of a memory after a list is written from word 0 on are the list's. -/
theorem Memory.read_writeFrom_of_lt {w : Nat} (free : Nat → Nat → BitVec w) (m : Memory w) {vs : List (BitVec w)}
    {j : Nat} (hj : j < vs.length) : (m.writeFrom 0 vs).read free j = vs[j] := by
  simp [Memory.read_writeFrom, hj]

/-- The input text is a function of IN_LEN and the symbols below it (R119). -/
theorem inputText_congr {s t : State} (hlen : s.inLen = t.inLen)
    (hread : ∀ j < s.inLen.toNat, s.readSym j = t.readSym j) : s.inputText = t.inputText := by
  simp only [State.inputText, ← hlen]
  exact List.map_congr_left fun j hj => hread j (List.mem_range.1 hj)

/-- ENCODE's result is a function of the parameters, IN_LEN and the input text (R115). -/
theorem encodeResult_congr {s t : State} (hcfg : s.cfg = t.cfg) (hlen : s.inLen = t.inLen)
    (htext : s.inputText = t.inputText) : encodeResult s = encodeResult t := by
  simp only [encodeResult, hcfg, hlen, htext]

/-- The artifact has as many bytes as its length says (R133). -/
theorem encodeResult_bytes_length {s : State} {r : Encoded} (h : encodeResult s = .ok r) :
    r.bytes.length = artifactLength r.rawBits := by
  obtain ⟨-, -, -, -, rfl⟩ := encodeResult_ok h
  exact packBits_artifact_length _

theorem exec_encode_ok {s : State} {r : Encoded} (h : encodeResult s = .ok r) :
    exec .encode s = .next (s.commitEncoded r).completeOk := by
  simp only [exec, execEncode, h]

/-- Settles O21: the two results are the same, so are the commits, and PACK_MEM below PACK_LEN holds the bytes. -/
theorem encodeDependsOnItsInputsOnly : Obligations.EncodeDependsOnItsInputsOnly := by
  intro s₁ s₂ t₁ t₂ hcfg hlen hread h₁ h₂
  have hresult : encodeResult s₁ = encodeResult s₂ := encodeResult_congr hcfg hlen (inputText_congr hlen hread)
  rcases execEncode_cases s₁ with ⟨r, hr, ht⟩ | ⟨e, he, ht⟩ <;> cases h₁.symm.trans ht
  · cases h₂.symm.trans (exec_encode_ok (hresult.symm.trans hr))
    refine ⟨rfl, rfl, rfl, rfl, rfl, rfl, rfl, fun k hk => ?_⟩
    have hbytes : k < r.bytes.length := by
      rw [encodeResult_bytes_length hr]
      exact hk.trans_le ((BitVec.toNat_ofNat ..).trans_le (Nat.mod_le _ _))
    exact (Memory.read_writeFrom_of_lt _ _ hbytes).trans (Memory.read_writeFrom_of_lt _ _ hbytes).symm
  · cases h₂.symm.trans (exec_encode_error (hresult.symm.trans he))
    exact ⟨rfl, rfl, rfl, rfl, rfl, rfl, rfl, fun k hk => absurd hk (Nat.not_lt_zero k)⟩

/-- The BitUnpacker's result is a function of the parameters, PACK_LEN and the artifact (R142, R143). -/
theorem unpackBody_congr {s t : State} (hcfg : s.cfg = t.cfg) (hlen : s.packLen = t.packLen)
    (hart : s.artifact = t.artifact) : unpackBody s = unpackBody t := by
  simp only [unpackBody, hcfg, hlen, hart]

/-- Settles O32: the BitUnpacker and the walk give the same, and OUT_MEM below OUT_LEN holds the symbols. -/
theorem decodeDependsOnItsInputsOnly : Obligations.DecodeDependsOnItsInputsOnly := by
  intro s₁ s₂ t₁ t₂ hcfg hlen htv htable hread h₁ h₂
  obtain ⟨hart, -⟩ := artifact_congr hlen.symm fun k hk => (hread k hk).symm
  have hunpack : unpackBody s₂ = unpackBody s₁ := unpackBody_congr hcfg.symm hlen.symm hart
  have hwalk (body : Bits) :
      walk s₂.validEntries s₂.cfg.outMax body [] [] = walk s₁.validEntries s₁.cfg.outMax body [] [] := by
    rw [State.validEntries, State.validEntries, hcfg, htv, htable]
  rcases execDecode_cases s₁ with ⟨e, he, ht⟩ | ⟨hr, e, he, ht⟩ | ⟨hr, out, ho, ht⟩ <;> cases h₁.symm.trans ht
  · cases h₂.symm.trans (exec_decode_unpackError (hunpack.trans he))
    exact ⟨rfl, rfl, rfl, fun j hj => absurd hj (Nat.not_lt_zero j)⟩
  · cases h₂.symm.trans (exec_decode_walkError (hunpack.trans (unpackBody_ok hr)) ((hwalk _).trans he))
    exact ⟨rfl, rfl, rfl, fun j hj => absurd hj (Nat.not_lt_zero j)⟩
  · cases h₂.symm.trans (exec_decode_ok (hunpack.trans (unpackBody_ok hr)) ((hwalk _).trans ho))
    refine ⟨rfl, rfl, rfl, fun j hj => ?_⟩
    have hout : j < out.length := hj.trans_le ((BitVec.toNat_ofNat ..).trans_le (Nat.mod_le _ _))
    exact (Memory.read_writeFrom_of_lt _ _ hout).trans (Memory.read_writeFrom_of_lt _ _ hout).symm

/-! ### What a command leaves unchanged -/

/-- Settles O33: what no command writes, and then the commits of CLEAR, ENCODE and DECODE. -/
theorem commandsWriteOnlyTheirOwn : Obligations.CommandsWriteOnlyTheirOwn := by
  intro s t i h
  obtain ⟨heng, hdone, hcfg, hie, hovr, hin, hidx, hsym, hworld, hreplies, hlat, hwait⟩ :=
    runCommand_frame (op := .instr i) h
  refine ⟨⟨hie, hovr, hin, hidx, hsym, hcfg, hworld, hreplies, hlat, hwait⟩, ⟨heng, hdone⟩, ?_, ?_, ?_⟩ <;> rintro rfl
  · cases h
    exact ⟨rfl, rfl⟩
  · rcases execEncode_cases s with ⟨r, -, ht⟩ | ⟨e, -, ht⟩ <;> cases h.symm.trans ht <;> exact ⟨rfl, rfl⟩
  · rcases execDecode_cases s with ⟨e, -, ht⟩ | ⟨-, e, -, ht⟩ | ⟨-, out, -, ht⟩ <;> cases h.symm.trans ht <;>
      exact ⟨rfl, rfl, rfl, rfl, rfl, rfl⟩

/-! ### The run of a command up to its completion -/

/-- An event that a running command lets pass reaches nothing but CTRL.IE, the flags, the replies and the events to
come, of which it takes at most itself (R116, R192; logs 2 and 3). -/
theorem step_keepsRunning {s : State} {op : Command} {e : Event} {rest : List Event} (hl : s.cfg.legal = true)
    (he : s.eng = .run op) (hwait : s.wait ≠ 0) (hw : s.world = e :: rest) (hk : e.keepsRunning = true) :
    ∃ ie done ovr rs w, (w = s.world ∨ w = rest) ∧
      step s = .next { s with ie := ie, done := done, ovr := ovr, replies := rs, world := w, wait := s.wait - 1 } := by
  have hidle : s.eng ≠ .idle := by simp [he]
  cases e with
  | write a v =>
    have hbusy : s.busy = true := (State.busy_iff s).2 ⟨op, he⟩
    obtain ⟨ie, done, ovr, hwrite⟩ :=
      busWrite_busy_flagsOnly (s := { s with world := rest, wait := s.wait - 1 }) hbusy a v
    refine ⟨ie, done, ovr, s.replies, rest, .inr rfl, ?_⟩
    rw [writeEventsReachTheBus s a v rest hl (.inr hwait) hw, if_neg hidle, hwrite]
  | read a =>
    refine ⟨s.ie, s.done, s.ovr, s.busRead a :: s.replies, rest, .inr rfl, ?_⟩
    rw [readHasNoSideEffect s a rest hl (.inr hwait) hw, if_neg hidle]
  | poll a mask value =>
    refine ⟨s.ie, s.done, s.ovr, s.busRead a :: s.replies, if s.busRead a &&& mask = value then rest else s.world,
      (ite_eq_or_eq ..).symm, ?_⟩
    rw [pollRepeatsUntilItMatches s a mask value rest hl (.inr hwait) hw, if_neg hidle]
  | waitIrq =>
    refine ⟨s.ie, s.done, s.ovr, s.replies, if s.ie = true ∧ s.done = true then rest else s.world,
      (ite_eq_or_eq ..).symm, ?_⟩
    rw [irqWaitRepeatsUntilIrq s rest hl (.inr hwait) hw, if_neg hidle]
  | rst | subword a n | secondMaster a => exact nomatch hk

/-- The events a running command lets pass lead to the step at which its completion is due, its inputs as they were
(R107, R116; log 2). -/
theorem run_reaches_due (n : Nat) {s : State} {op : Command} (hl : s.cfg.legal = true) (he : s.eng = .run op)
    (hn : s.wait = n) (hk : ∀ e ∈ s.world.take n, e.keepsRunning = true) :
    ∃ k ≤ n, ∃ ie done ovr rs w m, (m = 0 ∨ w = []) ∧
      Sys2Proof.core.run k s =
        .next { s with ie := ie, done := done, ovr := ovr, replies := rs, world := w, wait := m } := by
  induction n generalizing s with
  | zero => exact ⟨0, le_rfl, s.ie, s.done, s.ovr, s.replies, s.world, s.wait, .inl hn, rfl⟩
  | succ n ih =>
    cases hw : s.world with
    | nil => exact ⟨0, Nat.zero_le _, s.ie, s.done, s.ovr, s.replies, s.world, s.wait, .inr hw, rfl⟩
    | cons e rest =>
      rw [hw, List.take_succ_cons, List.forall_mem_cons] at hk
      obtain ⟨hke, hkrest⟩ := hk
      obtain ⟨ie, done, ovr, rs, w, hsub, hstep⟩ := step_keepsRunning hl he (by omega) hw hke
      have hkw : ∀ e ∈ w.take n, e.keepsRunning = true := by
        rcases hsub with rfl | rfl
        · intro e' he'
          rw [hw] at he'
          have hmem := List.take_subset_take_left (e :: rest) n.le_succ he'
          rw [List.take_succ_cons, List.mem_cons] at hmem
          exact hmem.elim (fun h => h ▸ hke) (hkrest e')
        · exact hkrest
      obtain ⟨k, hkn, hrun⟩ := ih
        (s := { s with ie := ie, done := done, ovr := ovr, replies := rs, world := w, wait := s.wait - 1 })
        hl he (by simp [hn]) hkw
      refine ⟨k + 1, Nat.succ_le_succ hkn, ?_⟩
      rw [run_succ hstep]
      exact hrun

/-- Settles O40: the state at which the completion is due has the command's inputs, and its step is the completion. -/
theorem everyCommandCompletes : Obligations.EveryCommandCompletes := by
  intro s op hl he hk
  obtain ⟨k, hkn, ie, done, ovr, rs, w, m, hdue, hrun⟩ := run_reaches_due s.wait hl he rfl hk
  set t : State := { s with ie := ie, done := done, ovr := ovr, replies := rs, world := w, wait := m }
  obtain ⟨u, hu⟩ := runCommand_completes op t
  obtain ⟨hidle, hdone, -⟩ := runCommand_frame hu
  refine ⟨k, t, u, hkn, hrun, he, rfl, rfl, rfl, ?_, hu, hidle, hdone⟩
  rw [run_add k 1 hrun]
  exact run_succ ((step_due (s := t) hl he hdue).trans hu) 0

/-! ### Access while a command runs -/

/-- The registers readable while BUSY, by their offsets (R192). -/
theorem Reg.readableWhileBusy_iff (r : Reg) :
    r.readableWhileBusy = true ↔
      r.offset = 0x024 ∨ r.offset ∈ [0x000, 0x004, 0x008, 0x00C, 0x010, 0x014, 0x020] := by
  cases r with
  | tblCode k => revert k; decide
  | _ => decide

/-- Of the registers, only STATUS shows ENG (R26). -/
theorem State.regValue_withEng (s : State) (eng : Engine) {r : Reg} (h : r ≠ .status) :
    ({ s with eng := eng } : State).regValue r = s.regValue r := by
  cases r with
  | status => exact absurd rfl h
  | _ => rfl

/-- While BUSY a word that is no readable register reads 0 (R192). -/
theorem busRead_busy_zero {s : State} {a : Addr} (hb : s.busy = true)
    (h : ∀ r : Reg, wordAddress a = r.offset → r.readableWhileBusy = false) : s.busRead a = 0#32 := by
  have hhidden : (targetAt s.cfg a).readableWhileBusy = false := by
    cases ht : targetAt s.cfg a with
    | reg r => exact h r ((targetAt_reg_iff _ _ _).1 ht)
    | _ => rfl
  simp only [State.busRead, hb, hhidden]
  rfl

/-- Settles O46: an address names STATUS, another register readable while BUSY, or a word that reads 0; writes go by the
access rules while BUSY. -/
theorem accessWhileBusy : Obligations.AccessWhileBusy := by
  intro s a v hb
  refine ⟨?_, ?_⟩
  · by_cases hstatus : wordAddress a = 0x024
    · rw [if_pos hstatus]
      exact busRead_reg (r := .status) hstatus (.inr rfl)
    rw [if_neg hstatus]
    by_cases hlist : wordAddress a ∈ [0x000, 0x004, 0x008, 0x00C, 0x010, 0x014, 0x020]
    · rw [if_pos hlist]
      have hoffset : wordAddress a ∈ registerOffsets := List.mem_of_mem_take (i := 7) hlist
      obtain ⟨r, hr⟩ := exists_offset_eq hoffset
      have hreadable : r.readableWhileBusy = true := r.readableWhileBusy_iff.2 (.inr (hr ▸ hlist))
      have hne : r ≠ .status := fun h => hstatus (hr ▸ h ▸ rfl)
      rw [busRead_reg hr.symm (.inr hreadable), busRead_reg hr.symm (.inr hreadable), s.regValue_withEng .idle hne]
    · rw [if_neg hlist]
      refine busRead_busy_zero hb fun r hr => ?_
      rw [Bool.eq_false_iff, ne_eq, r.readableWhileBusy_iff, ← hr]
      exact not_or.2 ⟨hstatus, hlist⟩
  · rw [busWrite_busy hb, writeStatus_eq]
    rfl

/-! ### The completion step -/

/-- A word is the command word of its own number (R90). -/
theorem commandWord_toNat (v : Word) : commandWord 32 v.toNat = v := by
  rw [commandWord, Nat.mod_eq_of_lt v.isLt, BitVec.ofNat_toNat, BitVec.setWidth_eq]

/-- Settles O4: a due command's step, which is also the step of a command word just stored. -/
theorem stepRunsTheCommand : Obligations.StepRunsTheCommand := by
  refine ⟨fun s op hl he hd => ?_, fun s v i hl hv => ?_⟩
  · have hstep : step s = runCommand op s := step_due hl he hd
    exact ⟨hstep, fun i hop => by rw [hstep, hop]; rfl, fun v hop => by rw [hstep, hop]; rfl⟩
  · have hdue : step { s.begin (.instr i) with wait := 0 } = exec i { s.begin (.instr i) with wait := 0 } :=
      step_due (s := { s.begin (.instr i) with wait := 0 }) hl rfl (.inl rfl)
    rw [State.withFetchWord, State.withCommandWord, commandWord_toNat, hv]
    exact hdue

/-- Settles O5: such a word is no command's encoding, so it decodes to the illegal pseudo-command. -/
theorem illegalWordCompletes : Obligations.IllegalWordCompletes := by
  intro s v h1 h2 h3
  rcases decodeCmd_cases v with ⟨i, rfl, -⟩ | ⟨-, hill⟩
  · cases i with
    | clear => exact absurd rfl h1
    | encode => exact absurd rfl h2
    | decode => exact absurd rfl h3
  · rw [hill]
    rfl

/-- Settles O12: CLEAR is its commit and then a completion without error. -/
theorem clearCompletes : Obligations.ClearCompletes :=
  ⟨decodeCmd_encode .clear, fun _ => rfl⟩

end Sys2Proof.Machine

/-!
SUPPORT. What ENCODE does with every input text: the checks of the length, the capacity errors, the commit of a text that
fits, and the order of its code lengths (41_encode.md).
-/

namespace Sys2Proof.Machine

/-! ### The length checks -/

theorem checkInput_tooLong {p : Config.Params} {n : Word} (h : p.inMax < n.toNat) :
    checkInput p n = .error { cause := .lengthCapacity, info := n } := if_pos h

theorem checkInput_empty {p : Config.Params} {n : Word} (h : n = 0#32) :
    checkInput p n = .error { cause := .emptyInput, info := 0#32 } := by
  simp [checkInput, h]

theorem checkInput_ok {p : Config.Params} {n : Word} (hpos : 1 ≤ n.toNat) (hin : n.toNat ≤ p.inMax) :
    checkInput p n = .ok () := by
  rw [checkInput, if_neg (by omega), if_neg (by omega)]

/-- An error of the length checks is ENCODE's result, before anything is read (R118). -/
theorem encodeResult_of_checkInput_error {s : State} {e : Raised} (h : checkInput s.cfg s.inLen = .error e) :
    encodeResult s = .error e := by
  simp only [encodeResult, h]

/-- Settles O14: the check that fails gives ENCODE's result, and the state is its error commit. -/
theorem encodeLengthChecks : Obligations.EncodeLengthChecks := by
  refine fun s => ⟨fun hlong => ?_, fun hempty => ?_⟩
  · exact exec_encode_error (encodeResult_of_checkInput_error (checkInput_tooLong hlong))
  · exact exec_encode_error (encodeResult_of_checkInput_error (checkInput_empty hempty))

/-! ### The analysis -/

/-- Past the length checks, an error of the analysis is ENCODE's result (R117). -/
theorem encodeResult_of_analyze_error {s : State} {e : Raised} (hpos : 1 ≤ s.inLen.toNat)
    (hin : s.inLen.toNat ≤ s.cfg.inMax) (h : analyze s.cfg.nsymMax s.inputText = .error e) :
    encodeResult s = .error e := by
  simp only [encodeResult, checkInput_ok hpos hin, h]

/-- Settles O15: the text is not empty, so the analysis decides, and it stops at `x` (`analyze_error`). -/
theorem encodeSymbolCapacity : Obligations.EncodeSymbolCapacity := by
  intro s pre post x hin htext hx hfull
  have hpos : 1 ≤ s.inLen.toNat := by
    rw [← inputText_length, htext, List.length_append, List.length_cons]
    omega
  have hstop : analyze s.cfg.nsymMax s.inputText =
      .error { cause := .symbolCapacity, info := BitVec.ofNat 32 pre.length } :=
    htext ▸ analyze_error hx hfull
  exact exec_encode_error (encodeResult_of_analyze_error hpos hin hstop)

/-! ### The artifact's length -/

/-- A text that passes the length checks and the analysis: the artifact's length decides (R117, R134). -/
theorem encodeResult_of_counted {s : State} (hpos : 1 ≤ s.inLen.toNat) (hin : s.inLen.toNat ≤ s.cfg.inMax)
    (hsyms : s.inputText.eraseDups.length ≤ s.cfg.nsymMax) :
    encodeResult s =
      if s.cfg.packMax < artifactLength (textRaw s.inputText).length then
        .error { cause := .outputCapacity, info := BitVec.ofNat 32 (artifactLength (textRaw s.inputText).length) }
      else
        .ok { table := textTable s.inputText, rawBits := (textRaw s.inputText).length,
              pad := padding (textRaw s.inputText).length,
              bytes := packBits (artifactBits (padding (textRaw s.inputText).length) (textRaw s.inputText)) } := by
  simp only [encodeResult, checkInput_ok hpos hin, analyze_ok hsyms, encodeCounts_countsOf]

/-- Settles O16: `L` is the length of the raw code stream, so `B` is the artifact's length, which does not fit. -/
theorem encodeOutputCapacity : Obligations.EncodeOutputCapacity := by
  rintro s hpos hin hsyms L B rfl rfl hbig
  have hresult := (encodeResult_of_counted hpos hin hsyms).trans (if_pos hbig)
  exact exec_encode_error hresult

/-- Settles O13: the artifact fits, so ENCODE commits the text's table and its artifact. -/
theorem encodeCompresses : Obligations.EncodeCompresses := by
  rintro s hpos hin hsyms raw p rfl rfl hfit
  have hresult := (encodeResult_of_counted hpos hin hsyms).trans (if_neg (Nat.not_lt.2 hfit))
  exact exec_encode_ok hresult

/-! ### Causes -/

/-- Only DUPLICATE_CODE has number 2 (R161). -/
theorem Cause.code_eq_two_iff (c : Cause) : c.code = 2#4 ↔ c = .duplicateCode := by cases c <;> decide

/-- No phase of ENCODE raises DUPLICATE_CODE: the codes of `build` are distinct (R129). -/
theorem encodeResult_error_ne_duplicateCode {s : State} {e : Raised} (h : encodeResult s = .error e) :
    e.cause ≠ .duplicateCode := by
  rcases encodeResult_error h with hc | hc | hc | hc <;> simp [hc]

/-- The BitUnpacker has no DUPLICATE_CODE to raise (R142-R146). -/
theorem unpackBody_error_ne_duplicateCode {s : State} {e : Raised} (h : unpackBody s = .error e) :
    e.cause ≠ .duplicateCode := by
  rcases unpackBody_cases s with ⟨-, h'⟩ | ⟨-, -, h'⟩ | ⟨-, -, -, h'⟩ | ⟨-, -, -, -, h'⟩ | ⟨-, h'⟩ <;>
    cases h.symm.trans h' <;> simp [corrupt]

/-- The walk has no DUPLICATE_CODE to raise (R149-R151). -/
theorem walk_error_ne_duplicateCode {entries : List Entry} {outMax : Nat} {body buf : Bits} {out : List Sym}
    {e : Raised} (h : walk entries outMax body buf out = .error e) : e.cause ≠ .duplicateCode := by
  rcases walk_error h with rfl | rfl | rfl <;> simp [corrupt]

/-- Settles O17: a command completes without error or with a cause that one of its phases raised. -/
theorem duplicateCodeIsNeverRaised : Obligations.DuplicateCodeIsNeverRaised := by
  intro s t i h
  have hraised {e : Raised} (he : e.cause ≠ .duplicateCode) : e.cause.code ≠ 2#4 := mt (Cause.code_eq_two_iff _).1 he
  have hok : 0#4 ≠ 2#4 := by decide
  cases i with
  | clear => cases h; exact hok
  | encode =>
    rcases execEncode_cases s with ⟨r, -, ht⟩ | ⟨e, he, ht⟩ <;> cases h.symm.trans ht
    · exact hok
    · exact hraised (encodeResult_error_ne_duplicateCode he)
  | decode =>
    rcases execDecode_cases s with ⟨e, he, ht⟩ | ⟨-, e, he, ht⟩ | ⟨-, out, -, ht⟩ <;> cases h.symm.trans ht
    · exact hraised (unpackBody_error_ne_duplicateCode he)
    · exact hraised (walk_error_ne_duplicateCode he)
    · exact hok

/-! ### The order of the code lengths -/

/-- An entry of a text's table is the one of its symbol's position in first-occurrence order: it has that position's
count and its code of `build` (R120, R128). -/
theorem textTable_index {text : List Sym} {e : Entry} (he : e ∈ textTable text) :
    ∃ i, ∃ hi : i < (text.eraseDups.map fun x => text.count x).length,
      (text.eraseDups.map fun x => text.count x)[i] = text.count e.sym ∧ (textCodes text).getD i [] = e.code := by
  obtain ⟨i, hi, rfl⟩ := List.mem_iff_getElem.1 he
  rw [textTable_length] at hi
  refine ⟨i, by simpa using hi, ?_, ?_⟩ <;> simp [textTable, hi]

/-- Settles O19: the counts are exact, and `build` orders its codes' lengths by them (`build_order`). -/
theorem rarerSymbolsHaveNoShorterCodes : Obligations.RarerSymbolsHaveNoShorterCodes := by
  intro s t _ h h0 e he e' he' hlt
  obtain ⟨-, -, -, -, r, rfl, rfl⟩ := execEncode_ok h h0
  have h32 : s.inputText.length < 2 ^ 32 := by rw [inputText_length]; exact s.inLen.isLt
  obtain ⟨-, hcount⟩ := textTable_freq_toNat h32 he
  obtain ⟨-, hcount'⟩ := textTable_freq_toNat h32 he'
  obtain ⟨i, hi, hfreq, hcode⟩ := textTable_index he
  obtain ⟨j, hj, hfreq', hcode'⟩ := textTable_index he'
  rw [← hcode, ← hcode']
  exact build_order _ hi hj (.inl (by omega))

end Sys2Proof.Machine

/-!
SUPPORT. What DECODE does with every artifact: the errors before the walk, the walk over the codes of table entries,
what a success has read, the round trip with ENCODE, and the tree walker as the walk's other realisation (42_decode.md).
-/

namespace Sys2Proof.Machine

/-! ### The tree walker -/

/-- The walker's root has the tree's leaves. -/
@[simp] theorem walkRoot_entries (t : Tree) : (walkRoot t).entries = t.entries := by cases t <;> rfl

/-- Below the walker's root every internal node has both children: what `walkRoot` adds is the root alone (R156). -/
theorem full_below_walkRoot {t : Tree} (ht : t = .missing ∨ t.full = true) {p : Bits} {w : Nat} {l r : Tree}
    (hp : p ≠ []) (h : (walkRoot t).sub p = .internal w l r) : (Tree.internal w l r).full = true := by
  obtain ⟨b, q, rfl⟩ := List.exists_cons_of_ne_nil hp
  have hchild : (walkRoot t).child b = .missing ∨ ((walkRoot t).child b).full = true := by
    cases t with
    | leaf i v => cases b <;> simp [walkRoot, Tree.child, Tree.full]
    | missing => cases b <;> simp [walkRoot, Tree.child]
    | internal v l' r' =>
      have hfull : l'.full = true ∧ r'.full = true := by simpa [Tree.full] using ht
      cases b <;> simp [walkRoot, Tree.child, hfull]
  have hsub : ((walkRoot t).child b).sub q = .internal w l r := h
  rcases hchild with hmissing | hfull
  · rw [hmissing, Tree.sub_missing] at hsub
    cases hsub
  · have hbelow := Tree.sub_full hfull q
    rw [hsub] at hbelow
    exact hbelow.resolve_left (by simp)

/-- What the walker uses of the tree of the counts, with no count too: below its root the tree is full, it has one leaf
per entry, and the leaves' paths from its root are the codes (R126, R156). -/
theorem walkRoot_buildTree (freqs : List Nat) :
    (buildTree freqs = .missing ∨ (buildTree freqs).full = true) ∧
    (walkRoot (buildTree freqs)).entries.Perm (List.range freqs.length) ∧
    ∀ i < freqs.length, (walkRoot (buildTree freqs)).path i = some ((build freqs).getD i []) := by
  rcases freqs.length.eq_zero_or_pos with h0 | hpos
  · obtain rfl := List.eq_nil_of_length_eq_zero h0
    exact ⟨.inl rfl, .refl _, fun i hi => absurd hi (Nat.not_lt_zero i)⟩
  · obtain ⟨-, hfull, hperm, hpath⟩ := codesArePathsOfTheTree freqs hpos
    exact ⟨.inr hfull, (walkRoot_entries _).symm ▸ hperm, hpath⟩

/-- Settles O23: the leaves' paths are the entries' codes, so the walker does what the table match does
(`treeWalk_eq_walk`). -/
theorem treeWalkerRefinesTheTableMatch : Obligations.TreeWalkerRefinesTheTableMatch := by
  intro freqs entries outMax body hcodes
  obtain ⟨hshape, hperm, hpath⟩ := walkRoot_buildTree freqs
  have hlen : entries.length = freqs.length := by simpa using congrArg List.length hcodes
  have hleaf : ∀ i e, entries[i]? = some e → (walkRoot (buildTree freqs)).path i = some e.code := by
    intro i e hi
    obtain ⟨hlt, -⟩ := List.getElem?_eq_some_iff.1 hi
    rw [hpath i (hlen ▸ hlt), ← hcodes]
    simp [hi]
  have hrange : ∀ i ∈ (walkRoot (buildTree freqs)).entries, i < entries.length := fun i hi => by
    rw [hlen]
    exact List.mem_range.1 (hperm.mem_iff.1 hi)
  exact treeWalk_eq_walk _ outMax (fun i e hi => ⟨hleaf i e hi, by simp [hi]⟩) hrange
    (hperm.nodup_iff.2 List.nodup_range) (fun _ _ _ _ hp => full_below_walkRoot hshape hp) body [] [] _ rfl true
    (by simp)

/-! ### The errors before the walk -/

/-- Settles O25: each case is the first check of the BitUnpacker that fails (`unpackBody_eq`). -/
theorem decodeHeaderChecks : Obligations.DecodeHeaderChecks := by
  refine fun s => ⟨fun hlong => ?_, fun hempty => ?_, fun hpos hfit (hheader : 8 < s.header) => ?_,
    fun hone hmax (hpos : 1 ≤ s.header) (hheader : s.header ≤ 8) => ?_⟩
  · have hunpack := (unpackBody_eq s).trans (if_pos hlong)
    exact exec_decode_unpackError hunpack
  · have h0 : s.packLen.toNat = 0 := by simp [hempty]
    have hunpack : unpackBody s = .error (corrupt 1#32) := by rw [unpackBody_eq, if_neg (by omega), if_pos h0]
    exact exec_decode_unpackError hunpack
  · have hunpack : unpackBody s = .error (corrupt 2#32) := by
      rw [unpackBody_eq, if_neg (by omega), if_neg (by omega), if_pos hheader]
    exact exec_decode_unpackError hunpack
  · have h1 : s.packLen.toNat = 1 := by simp [hone]
    have hunpack : unpackBody s = .error (corrupt 3#32) := by
      rw [unpackBody_eq, if_neg (by omega), if_neg (by omega), if_neg (by omega), if_pos (by omega)]
    exact exec_decode_unpackError hunpack

/-! ### The walk over the codes of table entries -/

/-- Usable codes are the valid entries' codes, each of at least one bit (R41). -/
theorem State.codesUsable.code_pos {s : State} (h : s.codesUsable) : ∀ e ∈ s.validEntries, 1 ≤ e.code.length :=
  fun _ he => h.2 _ (List.mem_map_of_mem he)

/-- Over entries' codes that fit and then a rest, the walk outputs the entries' symbols and goes on with the rest
(R150). -/
theorem walk_entries_rest {s : State} {es : List Entry} {rest : Bits} (hu : s.codesUsable)
    (hes : ∀ e ∈ es, e ∈ s.validEntries) (hbody : s.body = es.flatMap (·.code) ++ rest)
    (hfit : es.length ≤ s.cfg.outMax) :
    walk s.validEntries s.cfg.outMax s.body [] [] = walk s.validEntries s.cfg.outMax rest [] (es.map (·.sym)) := by
  rw [hbody]
  exact walk_codes hu.1 hu.code_pos _ rest es hes [] (by simpa using hfit)

/-- Settles O24: the walk outputs the entries' symbols and ends with an empty buffer. -/
theorem decodeOutputsTheSymbols : Obligations.DecodeOutputsTheSymbols := by
  intro s es hu hr hes hbody hfit
  have hwalk : walk s.validEntries s.cfg.outMax s.body [] [] = .ok (es.map (·.sym)) :=
    walk_entries_rest hu hes (hbody.trans (List.append_nil _).symm) hfit
  rw [exec_decode_ok (unpackBody_ok hr) hwalk, State.commitDecoded, List.length_map]
  rfl

/-- Settles O26: the walk of the entries' codes overflows, or the walk of the rest fails. -/
theorem decodeWalkErrors : Obligations.DecodeWalkErrors := by
  intro s es rest hu hr hes hbody
  refine ⟨fun hmany => ?_, fun u b tail hfit hrest hbegins hnone hnone' => ?_, ?_⟩
  · have hwalk : walk s.validEntries s.cfg.outMax s.body [] [] =
        .error { cause := .outputCapacity, info := BitVec.ofNat 32 s.cfg.outMax } := by
      rw [hbody]
      exact walk_codes_overflow hu.1 hu.code_pos _ rest es hes [] (Nat.zero_le _) (by simpa using hmany)
    exact exec_decode_walkError (unpackBody_ok hr) hwalk
  · have hbegins' : u = [] ∨ ∃ e ∈ s.validEntries, u <+: e.code := by simpa [State.codes] using hbegins
    have hwalk := walk_entries_rest hu hes (hrest ▸ hbody) hfit
    rw [walk_begins_none _ u b tail [] u rfl hbegins' (fun e he => hnone _ (List.mem_map_of_mem he))
      (fun e he => hnone' _ (List.mem_map_of_mem he))] at hwalk
    exact exec_decode_walkError (unpackBody_ok hr) hwalk
  · rintro hfit hne ⟨c, hc, hpre, hproper⟩
    obtain ⟨e, he, rfl⟩ := List.mem_map.1 hc
    have hwalk := walk_entries_rest hu hes hbody hfit
    rw [walk_leftover _ rest [] rest rfl hne hu.1 he hpre hproper] at hwalk
    exact exec_decode_walkError (unpackBody_ok hr) hwalk

/-- Without a table there is no valid entry (R148). -/
theorem State.validEntries_of_noTable {s : State} (h : s.tv = false) : s.validEntries = [] := by
  simp [State.validEntries, h]

/-- Settles O27: no code is usable, so an empty body is the concatenation of none (O24) and the first bit of any other
begins none (O26). -/
theorem decodeWithoutATable : Obligations.DecodeWithoutATable := by
  intro s htv hr
  have hcodes : s.codes = [] := by rw [State.codes, State.validEntries_of_noTable htv, List.map_nil]
  have hu : s.codesUsable := by simp [State.codesUsable, codesPrefixFree, hcodes]
  refine ⟨fun hempty => ?_, fun hne => ?_⟩
  · exact decodeOutputsTheSymbols s [] hu hr (by simp) hempty (Nat.zero_le _)
  · obtain ⟨b, tail, hbody⟩ := List.exists_cons_of_ne_nil hne
    obtain ⟨-, hfail, -⟩ := decodeWalkErrors s [] s.body hu hr (by simp) rfl
    exact hfail [] b tail (Nat.zero_le _) hbody (.inl rfl) (by simp [hcodes]) (by simp [hcodes])

/-! ### What a successful DECODE has read -/

/-- In a table of distinct symbols the codes looked up for entries' symbols are those entries' codes. -/
theorem flatMap_codeOf_syms {table es : List Entry} (hn : (table.map (·.sym)).Nodup) (hes : ∀ e ∈ es, e ∈ table) :
    (es.map (·.sym)).flatMap (codeOf table) = es.flatMap (·.code) := by
  rw [List.flatMap_map]
  exact List.flatMap_congr fun e he => codeOf_mem hn (hes e he)

/-- A successful DECODE: the artifact was readable, and the walk's output is committed (R152). -/
theorem execDecode_ok {s t : State} (h : exec .decode s = .next t) (h0 : t.errCode = 0#4) :
    s.bodyReadable ∧ ∃ out, walk s.validEntries s.cfg.outMax s.body [] [] = .ok out ∧
      t = (s.commitDecoded out).completeOk := by
  rcases execDecode_cases s with ⟨e, -, ht⟩ | ⟨-, e, -, ht⟩ | ⟨hr, out, hwalk, ht⟩ <;> cases h.symm.trans ht
  · exact absurd h0 (Cause.code_ne_zero _)
  · exact absurd h0 (Cause.code_ne_zero _)
  · exact ⟨hr, out, hwalk, rfl⟩

/-- Settles O28: the walk has consumed the codes of its output (`walk_ok`), which OUT_MEM holds from word 0 on. -/
theorem decodeConsumesTheWholeBody : Obligations.DecodeConsumesTheWholeBody := by
  intro s t hl hn h h0
  obtain ⟨hr, out, hwalk, rfl⟩ := execDecode_ok h h0
  obtain ⟨es, hes, hout, hbody⟩ := walk_ok hwalk
  have hfit : out.length ≤ s.cfg.outMax := walk_ok_length (Nat.zero_le _) hwalk
  have hlen : (BitVec.ofNat 32 out.length).toNat = out.length := by
    obtain ⟨-, -, -, -, hmax⟩ := (Params.legal_iff _).1 hl
    rw [BitVec.toNat_ofNat]
    omega
  refine ⟨hr, hlen.trans_le hfit, ?_, fun j hj => Memory.read_writeFrom_of_le _ _ (hlen.symm.trans_le hj)⟩
  calc ((List.range (BitVec.ofNat 32 out.length).toNat).map
          ((s.outMem.writeFrom 0 out).read Config.freeOutWord)).flatMap (codeOf s.validEntries)
      = out.flatMap (codeOf s.validEntries) := by rw [Memory.map_read_writeFrom _ _ hlen.symm]
    _ = es.flatMap (·.code) := by rw [hout, List.nil_append, flatMap_codeOf_syms hn hes]
    _ = s.body := hbody.symm

/-! ### The round trip -/

/-- A list of symbols that a table has is the symbols of a list of its entries. -/
theorem exists_entries_of_syms {table : List Entry} {syms : List Sym} (h : ∀ x ∈ syms, x ∈ table.map (·.sym)) :
    ∃ es : List Entry, (∀ e ∈ es, e ∈ table) ∧ es.map (·.sym) = syms := by
  induction syms with
  | nil => exact ⟨[], by simp, rfl⟩
  | cons x xs ih =>
    obtain ⟨hx, hxs⟩ := List.forall_mem_cons.1 h
    obtain ⟨e, he, rfl⟩ := List.mem_map.1 hx
    obtain ⟨es, hes, rfl⟩ := ih hxs
    exact ⟨e :: es, List.forall_mem_cons.2 ⟨he, hes⟩, rfl⟩

/-- A text is the symbols of entries of its table, and its raw code stream is their codes (R130). -/
theorem exists_entries_of_text (text : List Sym) :
    ∃ es : List Entry, (∀ e ∈ es, e ∈ textTable text) ∧ es.map (·.sym) = text ∧
      textRaw text = es.flatMap (·.code) := by
  obtain ⟨es, hes, hsyms⟩ := exists_entries_of_syms (table := textTable text) (syms := text)
    (by simp [textTable_syms])
  refine ⟨es, hes, hsyms, ?_⟩
  rw [← flatMap_codeOf_syms (textTable_symsNodup text) hes, hsyms]
  rfl

/-- The codes of a text's table are usable (R127, R129). -/
theorem State.codesUsable_of_textTable {s : State} {text : List Sym} (h : s.validEntries = textTable text) :
    s.codesUsable := by
  have hcodes : s.codes = textCodes text := by rw [State.codes, h, textTable_codes]
  rw [State.codesUsable, hcodes]
  exact ⟨build_prefixFree _, build_code_pos _⟩

/-- A state that still has the parameters, the table and the artifact of a successful ENCODE is one whose artifact
DECODE reads as the text's raw code stream (R130, R158). -/
theorem bodyReadable_after_encode {s t u : State} (hl : s.cfg.legal = true) (h : exec .encode s = .next t)
    (h0 : t.errCode = 0#4) (hcfg : u.cfg = t.cfg) (htv : u.tv = t.tv) (htable : u.table = t.table)
    (hlen : u.packLen = t.packLen) (hread : ∀ k < t.packLen.toNat, u.readPack k = t.readPack k) :
    u.cfg = s.cfg ∧ u.validEntries = textTable s.inputText ∧ u.bodyReadable ∧ u.body = textRaw s.inputText := by
  obtain ⟨hr, hbody⟩ := execEncode_body hl h h0
  obtain ⟨-, -, -, -, r, hres, ht⟩ := execEncode_ok h h0
  obtain ⟨hpos, hmax, hheader, hpad⟩ := hr
  obtain ⟨-, hheader', hbody'⟩ := artifact_congr hlen hread
  refine ⟨by rw [hcfg, ht]; rfl, ?_, ?_, (hbody' hpos).trans hbody⟩
  · rw [State.validEntries, htv, htable, ht, hres]
    rfl
  · rw [State.bodyReadable, hlen, hcfg, hheader' hpos]
    exact ⟨hpos, hmax, hheader, hpad⟩

/-- Settles O29: the body is the codes of the text's entries, which DECODE outputs (O24) or which overflow (O26). -/
theorem decodeUndoesEncode : Obligations.DecodeUndoesEncode := by
  intro s t u hl h h0 hcfg htv htable hplen hread
  obtain ⟨hucfg, hvalid, hr, hbody⟩ := bodyReadable_after_encode hl h h0 hcfg htv htable hplen hread
  obtain ⟨es, hes, hsyms, hraw⟩ := exists_entries_of_text s.inputText
  have hu : u.codesUsable := State.codesUsable_of_textTable hvalid
  have hes' : ∀ e ∈ es, e ∈ u.validEntries := hvalid ▸ hes
  have hlen : es.length = s.inLen.toNat := by rw [← inputText_length, ← hsyms, List.length_map]
  rw [← hucfg, ← hlen]
  refine ⟨fun hfit => ?_, fun hmany => ?_⟩
  · refine ⟨_, decodeOutputsTheSymbols u es hu hr hes' (hbody.trans hraw) hfit, rfl, ?_, fun j hj => ?_⟩
    · exact BitVec.eq_of_toNat_eq (by simp [hlen])
    · have hj' : j < s.inputText.length := by rwa [inputText_length, ← hlen]
      rw [hsyms]
      exact (Memory.read_writeFrom_of_lt _ _ hj').trans (inputText_getElem s j hj')
  · obtain ⟨hoverflow, -, -⟩ := decodeWalkErrors u es [] hu hr hes' (by rw [hbody, hraw, List.append_nil])
    exact ⟨_, hoverflow hmany, rfl, rfl, rfl⟩

/-! ### CORRUPT_STREAM(4) -/

/-- Only CORRUPT_STREAM has number 3 (R161). -/
theorem Cause.code_eq_three_iff (c : Cause) : c.code = 3#4 ↔ c = .corruptStream := by cases c <;> decide

/-- ERR_CODE 3 and a detail are read after CORRUPT_STREAM with that sub-cause only (R161, R162). -/
theorem eq_corrupt_of_code {e : Raised} {sub : Word} (hcode : e.cause.code = 3#4) (hinfo : e.info = sub) :
    e = corrupt sub := by
  obtain ⟨cause, info⟩ := e
  obtain rfl : cause = .corruptStream := (Cause.code_eq_three_iff _).1 hcode
  obtain rfl : info = sub := hinfo
  rfl

/-- The BitUnpacker raises CORRUPT_STREAM with sub-causes 1 to 3 only (R142-R146). -/
theorem unpackBody_ne_corrupt_four (s : State) : unpackBody s ≠ .error (corrupt 4#32) := by
  rcases unpackBody_cases s with ⟨-, h⟩ | ⟨-, -, h⟩ | ⟨-, -, -, h⟩ | ⟨-, -, -, -, h⟩ | ⟨-, h⟩ <;> simp [h, corrupt]

/-- Settles O30: the BitUnpacker does not raise it, and the codes are complete, so neither does the walk. -/
theorem twoEntriesNeverBeginNoCode : Obligations.TwoEntriesNeverBeginNoCode := by
  rintro s t hinv h2 h ⟨hcode, hinfo⟩
  have hvalid : s.validEntries = s.table := if_pos (hinv.validIff.2 (List.ne_nil_of_length_pos (by omega)))
  rcases execDecode_cases s with ⟨e, he, ht⟩ | ⟨-, e, he, ht⟩ | ⟨-, out, -, ht⟩ <;> cases h.symm.trans ht
  · obtain rfl := eq_corrupt_of_code hcode hinfo
    exact unpackBody_ne_corrupt_four s he
  · obtain rfl := eq_corrupt_of_code hcode hinfo
    rw [hvalid] at he
    exact walk_complete hinv.free (hinv.complete h2) hinv.codePos (.inl rfl) he
  · exact absurd hcode (show ¬ 0#4 = 3#4 by decide)

end Sys2Proof.Machine

/-!
SUPPORT. The stage a failure belongs to (60_exceptions.md R163): which causes each phase raises, and what the host reads
after the command that raised them.
-/

namespace Sys2Proof.Machine

/-! ### The numbers of the causes -/

/-- Every cause of R161, in the order of its table. -/
def allCauses : List Cause :=
  [.emptyInput, .duplicateCode, .corruptStream, .illegalCommand, .symbolCapacity, .lengthCapacity, .outputCapacity]

theorem mem_allCauses (c : Cause) : c ∈ allCauses := by cases c <;> decide

/-- ERR_CODE determines the cause (R161). -/
theorem Cause.code_injective : Function.Injective Cause.code := by
  have hdistinct : (allCauses.map Cause.code).Nodup := by decide
  exact fun c d => List.inj_on_of_nodup_map hdistinct (mem_allCauses c) (mem_allCauses d)

/-! ### Failing commands -/

/-- A raise of ENCODE is read after it, with the stage of its cause (R138, R163). -/
theorem failsIn_of_encodeResult {s : State} {e : Raised} {stage : Stage} (h : encodeResult s = .error e)
    (hstage : failureStage .encode e = some stage) : s.failsIn .encode e stage :=
  ⟨_, exec_encode_error h, rfl, rfl, hstage⟩

/-- A raise of the walk is read after DECODE, with its stage (R153, R163). -/
theorem failsIn_of_walk {s : State} {e : Raised} {body : Bits} {stage : Stage} (hb : unpackBody s = .ok body)
    (hw : walk s.validEntries s.cfg.outMax body [] [] = .error e) (hstage : failureStage .decode e = some stage) :
    s.failsIn .decode e stage :=
  ⟨_, exec_decode_walkError hb hw, rfl, rfl, hstage⟩

/-- A command has one outcome, so what it fails with is what the host reads after it. -/
theorem State.failsIn.reported {s t : State} {i : Instr} {e : Raised} {stage : Stage} (h : s.failsIn i e stage)
    (ht : exec i s = .next t) : e.cause.code = t.errCode ∧ e.info = t.errInfo ∧ failureStage i e = some stage := by
  obtain ⟨u, hu, hcode, hinfo, hstage⟩ := h
  cases hu.symm.trans ht
  exact ⟨hcode.symm, hinfo.symm, hstage⟩

/-! ### ENCODE's stages -/

/-- The length checks in their cases, in order (R118). -/
theorem checkInput_cases (p : Config.Params) (n : Word) :
    (p.inMax < n.toNat ∧ checkInput p n = .error { cause := .lengthCapacity, info := n }) ∨
    (n = 0#32 ∧ checkInput p n = .error { cause := .emptyInput, info := 0#32 }) ∨
    (1 ≤ n.toNat ∧ n.toNat ≤ p.inMax ∧ checkInput p n = .ok ()) := by
  by_cases hlong : p.inMax < n.toNat
  · exact .inl ⟨hlong, checkInput_tooLong hlong⟩
  by_cases hempty : n = 0#32
  · exact .inr (.inl ⟨hempty, checkInput_empty hempty⟩)
  · have hpos : 1 ≤ n.toNat := by bv_omega
    have hin : n.toNat ≤ p.inMax := Nat.not_lt.1 hlong
    exact .inr (.inr ⟨hpos, hin, checkInput_ok hpos hin⟩)

theorem failsIn_of_checkInput {s : State} {e : Raised} (h : checkInput s.cfg s.inLen = .error e) :
    s.failsIn .encode e .frequencyAnalyzer := by
  refine failsIn_of_encodeResult (encodeResult_of_checkInput_error h) ?_
  rcases checkInput_cases s.cfg s.inLen with ⟨-, h'⟩ | ⟨-, h'⟩ | ⟨-, -, h'⟩ <;> cases h.symm.trans h' <;> rfl

theorem failsIn_of_analyze {s : State} {e : Raised} (hcheck : checkInput s.cfg s.inLen = .ok ())
    (h : analyze s.cfg.nsymMax s.inputText = .error e) : s.failsIn .encode e .frequencyAnalyzer := by
  have hresult : encodeResult s = .error e := by simp only [encodeResult, hcheck, h]
  exact failsIn_of_encodeResult hresult (by simp only [failureStage, analyzeFrom_error_cause h])

theorem failureStage_of_checkDistinct {e : Raised} {codes : List Bits} (h : checkDistinct codes = .error e) :
    failureStage .encode e = some .treeBuilder := by
  simp only [failureStage, checkDistinctFrom_error_cause h]

/-- An artifact longer than PACK_MAX is found too long after the checks of the other stages (R134, R135). -/
theorem failsIn_of_artifact_tooLong {s : State} {counts : List Count} (hcheck : checkInput s.cfg s.inLen = .ok ())
    (hcounts : analyze s.cfg.nsymMax s.inputText = .ok counts)
    (hbig : s.cfg.packMax < artifactLength (rawLength counts (build (counts.map (·.freq))))) :
    s.failsIn .encode
      { cause := .outputCapacity
        info := BitVec.ofNat 32 (artifactLength (rawLength counts (build (counts.map (·.freq))))) } .bitPacker := by
  refine failsIn_of_encodeResult ?_ rfl
  simp only [encodeResult, hcheck, hcounts, encodeCounts, checkDistinct_build, if_pos hbig]

/-- Every raise of ENCODE has a stage: its causes are those of the three stages that can fail (R163). -/
theorem failsIn_of_encode_error {s : State} {e : Raised} (h : encodeResult s = .error e) :
    ∃ stage, s.failsIn .encode e stage := by
  obtain ⟨stage, hstage⟩ : ∃ stage, failureStage .encode e = some stage := by
    rcases encodeResult_error h with hc | hc | hc | hc <;> simp [failureStage, hc]
  exact ⟨stage, failsIn_of_encodeResult h hstage⟩

/-! ### DECODE's stages -/

/-- The BitUnpacker raises LENGTH_CAPACITY and the sub-causes 1 to 3, which are its own (R163). -/
theorem failsIn_of_unpackBody {s : State} {e : Raised} (h : unpackBody s = .error e) :
    s.failsIn .decode e .bitUnpacker := by
  refine ⟨_, exec_decode_unpackError h, rfl, rfl, ?_⟩
  rcases unpackBody_cases s with ⟨-, h'⟩ | ⟨-, -, h'⟩ | ⟨-, -, -, h'⟩ | ⟨-, -, -, -, h'⟩ | ⟨-, h'⟩ <;>
    cases h.symm.trans h' <;> rfl

/-- Every raise of the walk has a stage: symbol output for OUTPUT_CAPACITY, the walk itself for the others (R163). -/
theorem failsIn_of_walk_error {s : State} {e : Raised} {body : Bits} (hb : unpackBody s = .ok body)
    (hw : walk s.validEntries s.cfg.outMax body [] [] = .error e) : ∃ stage, s.failsIn .decode e stage := by
  rcases walk_error hw with rfl | rfl | rfl
  · exact ⟨.symbolOutput, failsIn_of_walk hb hw rfl⟩
  · exact ⟨.walk, failsIn_of_walk hb hw rfl⟩
  · exact ⟨.walk, failsIn_of_walk hb hw rfl⟩

/-! ### Every failing command -/

/-- A command of the table that reports an error failed in a stage: CLEAR never does, and ENCODE and DECODE report what
one of their phases raised (R163). -/
theorem exec_failsIn {s t : State} {i : Instr} (ht : exec i s = .next t) (h0 : t.errCode ≠ 0#4) :
    ∃ e stage, s.failsIn i e stage := by
  cases i with
  | clear => cases ht; exact absurd rfl h0
  | encode =>
    rcases execEncode_cases s with ⟨r, -, h⟩ | ⟨e, he, -⟩
    · cases ht.symm.trans h; exact absurd rfl h0
    · exact ⟨e, failsIn_of_encode_error he⟩
  | decode =>
    rcases execDecode_cases s with ⟨e, he, -⟩ | ⟨hr, e, he, -⟩ | ⟨-, out, -, h⟩
    · exact ⟨e, _, failsIn_of_unpackBody he⟩
    · exact ⟨e, failsIn_of_walk_error (unpackBody_ok hr) he⟩
    · cases ht.symm.trans h; exact absurd rfl h0

/-- Settles O35: stage by stage, the causes a phase raises are those R163 gives to it. -/
theorem failuresNameTheirStage : Obligations.FailuresNameTheirStage := by
  refine ⟨fun s e => ⟨failsIn_of_checkInput, failsIn_of_analyze, fun _ => failureStage_of_checkDistinct, ?_,
    failsIn_of_unpackBody, fun body hb hw => ⟨?_, fun hc => ?_⟩⟩, fun i v => ?_, fun s t i ht h0 => ?_,
    fun _ _ h => Cause.code_injective h⟩
  · rintro counts _ hcheck hcounts rfl - hbig
    exact failsIn_of_artifact_tooLong hcheck hcounts hbig
  · rintro (rfl | rfl) <;> exact failsIn_of_walk hb hw rfl
  · exact failsIn_of_walk hb hw (by simp only [failureStage, hc])
  · cases i <;> rfl
  · obtain ⟨e, stage, hfails⟩ := exec_failsIn ht h0
    exact ⟨e, stage, hfails.reported ht⟩

end Sys2Proof.Machine
